-- ==== Sys2Proof/Word.lean ====
section
/-! DEFINITION. The widths of the ADSR-2025 envelope block (10_state.md, 30_encoding.md R80) and the
four-fold bank that every per-channel register of it is. -/

namespace Sys2Proof

/-- A 40-bit operation word (30_encoding.md R80). -/
abbrev OpWord := BitVec 40

/-- A channel number, 0..3; every value of the two CH bits is a legal channel (R81). -/
abbrev Channel := Fin 4

/-- A duration in microseconds, and the operand field: 32 bits, unsigned (R5 W_US, R80). -/
abbrev Micros := BitVec 32

/-- The time counter and every timestamp: 64 bits, unsigned (R5 W_T, R25, R36, R39). -/
abbrev Time := BitVec 64

/-- A level register: W_L bits, unsigned, where W_L = ceil(log2 R) is a configuration's (R5, R22, R26 to R28).
The register carries its width as data, and a step keeps it at W_L (log 7). -/
structure Level where
  width : Nat
  bits : BitVec width
  deriving DecidableEq, Repr

/-- The unsigned integer a level register holds (R6). -/
def Level.toNat (l : Level) : Nat := l.bits.toNat

/-- The level register of `width` bits after `n` is written to it; bits that do not fit are lost. -/
def Level.ofNat (width n : Nat) : Level := ⟨width, BitVec.ofNat width n⟩

/-- The register with 0 written to it. -/
def Level.cleared (l : Level) : Level := Level.ofNat l.width 0

/-- One register for each of the four channels. -/
abbrev PerChannel (α : Type) := Vector α 4

/-- The register of channel `c` in a bank. -/
def bankGet {α : Type} (v : PerChannel α) (c : Channel) : α := v[c.val]

/-- The bank with the register of channel `c` replaced. -/
def bankSet {α : Type} (v : PerChannel α) (c : Channel) (x : α) : PerChannel α := v.set c.val x

/-- The bank whose register of channel `c` is `f c`. -/
def bankOf {α : Type} (f : Channel → α) : PerChannel α := Vector.ofFn f

/-- The channels in the order every fixed sweep of the block visits them (R93, R158). -/
def channels : List Channel := [0, 1, 2, 3]

/-- One bit as a natural number. -/
def bitNat (b : Bool) : Nat := if b then 1 else 0

end Sys2Proof
end

