-- ==== Sys2Proof/Config.lean ====
section
/-! DEFINITION. The configuration record of the block (00_scope.md R5, R9). The spec writes every rule
for arbitrary legal values and asks a model to take them as parameters (93_implementation_defined.md
section 1); no value is unpredictable (section 3), so there is no opaque constant here. -/

namespace Sys2Proof

/-- A curve coefficient, the exact rational `num / den` (40_curve_table.md R101). -/
structure Coeff where
  num : Nat
  den : Nat
  deriving DecidableEq, Repr

/-- The implementation parameters of R5. The channel count 4 and the widths 64, 32, 8 are fixed by the
spec and stand in the types. -/
structure Config where
  /-- R, the vertical resolution: levels are 0 .. R-1. -/
  r : Nat
  /-- N, entries per lookup table. -/
  n : Nat
  /-- ALPHA, the attack shape coefficient. -/
  alpha : Coeff
  /-- BETA, the decay and release shape coefficient. -/
  beta : Coeff
  /-- T_DB_US, the debounce interval: every 32-bit value is legal. -/
  tDbUs : Micros
  /-- RESET_ATTACK_US. -/
  resetAttackUs : Micros
  /-- RESET_DECAY_US. -/
  resetDecayUs : Micros
  /-- RESET_SUSTAIN before its clamp to R-1. -/
  resetSustain : Nat
  /-- RESET_RELEASE_US. -/
  resetReleaseUs : Micros
  /-- RESET_POLICY. -/
  resetPolicy : Bool
  deriving DecidableEq, Repr

/-- `0 < num / den < 1` (R5, R101). -/
abbrev Coeff.Legal (a : Coeff) : Prop := 0 < a.num ∧ a.num < a.den

/-- The legal values of R5: 2 ≤ R ≤ 2^16, 2 ≤ N ≤ 2^16, both coefficients strictly between 0 and 1. -/
abbrev Config.Legal (cfg : Config) : Prop :=
  2 ≤ cfg.r ∧ cfg.r ≤ 65536 ∧ 2 ≤ cfg.n ∧ cfg.n ≤ 65536 ∧ cfg.alpha.Legal ∧ cfg.beta.Legal

/-- R-1, the top level. -/
def Config.top (cfg : Config) : Nat := cfg.r - 1

/-- N-1, the last table index. -/
def Config.last (cfg : Config) : Nat := cfg.n - 1

/-- W_L = ceil(log2 R), the width of every level register and of a `level_out` pin (R5, R92). -/
def Config.levelWidth (cfg : Config) : Nat := Nat.log2 (cfg.r - 1) + 1

/-- The W_L-bit level register that holds `n` (R5). -/
def Config.levelOf (cfg : Config) (n : Nat) : Level := Level.ofNat cfg.levelWidth n

/-- The default configuration of R5. -/
def Config.default : Config where
  r := 4096
  n := 256
  alpha := ⟨63, 64⟩
  beta := ⟨63, 64⟩
  tDbUs := 5000#32
  resetAttackUs := 100000#32
  resetDecayUs := 100000#32
  resetSustain := 2500
  resetReleaseUs := 1000000#32
  resetPolicy := false

/-- The small configuration of 95_test_vectors.md, used by the vectors only: R = 16, N = 4, both
coefficients 1/2, no debounce interval. -/
def Config.small : Config :=
  { Config.default with r := 16, n := 4, alpha := ⟨1, 2⟩, beta := ⟨1, 2⟩, tDbUs := 0#32 }

end Sys2Proof
end

