-- ==== Sys2Proof/Syntax.lean ====
section
/-! DEFINITION. The operations of the block: one constructor of `Instr` per row of
spec/opcode_table.json (30_encoding.md R84), the five sources that present operation words (R83) and
the register names of READ (45_system.md R202). -/

namespace Sys2Proof

/-- The five sources of operation words (R83). -/
inductive Source where
  | host | seq | sampler | timebase | dac
  deriving DecidableEq, Repr

/-- The register map of READ, numbers 0x00 .. 0x15 in order, and the reserved numbers 0x16 .. 0x1F
(R202); `reserved k` is number 0x16 + k. -/
inductive Reg where
  | attackUs | decayUs | sustainLevel | releaseUs | policy | notesHeld | tNoteOn | tNoteOff
  | attackStartLevel | releaseStartLevel | lastOutputLevel
  | gateDb | gateDbTime | buttonDb | buttonDbTime | manualTriggerActive
  | now | chanSel | status | config | lutAtt | lutDr
  | reserved (k : Fin 10)
  deriving DecidableEq, Repr

/-- The column "uses c" of R202. -/
def Reg.usesChannel : Reg → Bool
  | .attackUs | .decayUs | .sustainLevel | .releaseUs | .policy | .notesHeld | .tNoteOn | .tNoteOff
  | .attackStartLevel | .releaseStartLevel | .lastOutputLevel
  | .gateDb | .gateDbTime | .buttonDb | .buttonDbTime | .manualTriggerActive => true
  | .now | .chanSel | .status | .config | .lutAtt | .lutDr | .reserved _ => false

/-- "`index` is used only by reg 0x14 and 0x15" (R82). -/
def Reg.usesIndex : Reg → Bool
  | .lutAtt | .lutDr => true
  | .attackUs | .decayUs | .sustainLevel | .releaseUs | .policy | .notesHeld | .tNoteOn | .tNoteOff
  | .attackStartLevel | .releaseStartLevel | .lastOutputLevel
  | .gateDb | .gateDbTime | .buttonDb | .buttonDbTime | .manualTriggerActive
  | .now | .chanSel | .status | .config | .reserved _ => false

/-- The operations, in the order of the opcode map (R84), with the operands R82 gives them. -/
inductive Instr where
  | nop
  | setAttack (c : Channel) (us : Micros)
  | setDecay (c : Channel) (us : Micros)
  | setSustain (c : Channel) (level : Micros)
  | setRelease (c : Channel) (us : Micros)
  | setPolicy (c : Channel) (p : Bool)
  | noteOn (c : Channel)
  | noteOff (c : Channel)
  | read (c : Channel) (reg : Reg) (index : BitVec 16)
  | clrFlags (mask : BitVec 3)
  | eval (c : Channel)
  | poll (gates buttons : BitVec 4)
  | tick (n : Micros)
  | outAck
  deriving DecidableEq, Repr

/-- The fourteen rows of the opcode map (R84). -/
inductive Opcode where
  | nop | setAttack | setDecay | setSustain | setRelease | setPolicy | noteOn | noteOff
  | read | clrFlags | eval | poll | tick | outAck
  deriving DecidableEq, Repr

/-- The row of the opcode map an operation belongs to. -/
def Instr.opcode : Instr → Opcode
  | .nop => .nop
  | .setAttack _ _ => .setAttack
  | .setDecay _ _ => .setDecay
  | .setSustain _ _ => .setSustain
  | .setRelease _ _ => .setRelease
  | .setPolicy _ _ => .setPolicy
  | .noteOn _ => .noteOn
  | .noteOff _ => .noteOff
  | .read _ _ _ => .read
  | .clrFlags _ => .clrFlags
  | .eval _ => .eval
  | .poll _ _ => .poll
  | .tick _ => .tick
  | .outAck => .outAck

end Sys2Proof
end

