-- ==== Sys2Proof/Machine/State.lean ====
section
/-! DEFINITION. The state of the block (10_state.md R20 to R49), its configuration, the inputs still to
come and the output event trace, all as plain data, and the state after reset (R49, R241). -/

namespace Sys2Proof.Machine

/-- One engine bank `E[c]`: eleven fields (R21 to R28). -/
structure Engine where
  /-- `attack_us` (R21). -/
  attackUs : Micros
  /-- `decay_us` (R21). -/
  decayUs : Micros
  /-- `release_us` (R21). -/
  releaseUs : Micros
  /-- `sustain_level`, W_L bits (R22). -/
  sustainLevel : Level
  /-- `reset_attack_on_trigger` (R23). -/
  resetAttackOnTrigger : Bool
  /-- `notes_held` (R24). -/
  notesHeld : BitVec 8
  /-- `t_note_on` (R25). -/
  tNoteOn : Time
  /-- `t_note_off` (R25). -/
  tNoteOff : Time
  /-- `attack_start_level`, W_L bits (R26). -/
  attackStartLevel : Level
  /-- `release_start_level`, W_L bits (R27). -/
  releaseStartLevel : Level
  /-- `last_output_level`, W_L bits, which is also the pin `level_out[c]` (R28, R31). -/
  lastOutputLevel : Level
  deriving DecidableEq, Repr

/-- One debounce cell (R37 to R39); true is asserted, `Pressed` (R38). -/
structure DebounceCell where
  /-- `raw_level`. -/
  rawLevel : Bool
  /-- `stable_level`, the state `{Released, Pressed}` of the input's machine. -/
  stableLevel : Bool
  /-- `last_change_time`. -/
  lastChangeTime : Time
  deriving DecidableEq, Repr

/-- An output event (R10). -/
inductive Event where
  /-- `Out(c, level)`, by EVAL (R128). -/
  | out (c : Channel) (level : Level)
  /-- `ModeToggle`, by POLL (R163). -/
  | modeToggle
  /-- `Resync(c)`, by POLL (R164). -/
  | resync (c : Channel)
  /-- `Rsp(v)`, by READ (R202). -/
  | rsp (v : BitVec 64)
  deriving DecidableEq, Repr

/-- What the outside world does next: a word presented by a source (R83), or an input pin (R92). -/
inductive Input where
  /-- `src` presents the operation word `w`; from `host` this is the command port (R83, R92). -/
  | word (src : Source) (w : OpWord)
  /-- `us_tick` = 1. -/
  | usTick
  /-- `poll_strobe` = 1 with these levels on `gate_in` and `button_in`. -/
  | pollStrobe (gates buttons : BitVec 4)
  /-- `sample_strobe` = 1 (R93). -/
  | sampleStrobe
  /-- The sequencer takes its next turn in the pass under way, if there is one (R93, log 4). -/
  | seqTurn
  /-- `out_ack` = 1. -/
  | outAck
  /-- `rst` = 1 (R240). -/
  | rst
  deriving DecidableEq, Repr

/-- The whole machine: the tuple of R20, and the model's own fields `cfg`, `seqNext`, `inputs`, `trace`. -/
structure State where
  /-- The configuration; no step writes it (R9, log 6). -/
  cfg : Config
  /-- The four engine banks `E[0..3]` (R20). -/
  engines : PerChannel Engine
  /-- `now` (R36). -/
  now : Time
  /-- `G[0..3]` (R37). -/
  gates : PerChannel DebounceCell
  /-- `B[0..3]` (R37). -/
  buttons : PerChannel DebounceCell
  /-- `chan_sel` (R40). -/
  chanSel : Channel
  /-- `manual_trigger_active[0..3]` (R41). -/
  manualTriggerActive : PerChannel Bool
  /-- `display_dirty` (R42). -/
  displayDirty : Bool
  /-- `out_refresh` (R43). -/
  outRefresh : Bool
  /-- `cmd_err` (R44). -/
  cmdErr : Bool
  /-- The sequencer's position: the channel of the next EVAL of the pass under way (R45, R93, log 4). -/
  seqNext : Option Channel
  /-- The operations and strobes still to come, in their total order (R68, log 1). -/
  inputs : List Input
  /-- The output event trace so far, oldest event first (R10, log 3). -/
  trace : List Event
  deriving DecidableEq, Repr

/-- Why a step could stop with a fault. It has no constructor: "No step faults, traps, hangs or is stuck"
(R11), "No operation raises an exception" (R220); safe (log 12). -/
inductive Fault where
  deriving DecidableEq, Repr

/-- Why a step could be refused. Every word has an outcome in the block itself (R11, R88), so no meaning
refuses. -/
inductive Refusal where
  /-- Raised by an arm of `exec` whose operation has no meaning yet; safe. No arm raises it (log 12). -/
  | notModelled (mnemonic : String)
  deriving DecidableEq, Repr

/-- An engine bank after reset (R49, R241). -/
def Engine.resetOf (cfg : Config) : Engine where
  attackUs := cfg.resetAttackUs
  decayUs := cfg.resetDecayUs
  releaseUs := cfg.resetReleaseUs
  sustainLevel := cfg.levelOf (min cfg.resetSustain cfg.top)
  resetAttackOnTrigger := cfg.resetPolicy
  notesHeld := 0#8
  tNoteOn := 0#64
  tNoteOff := 0#64
  attackStartLevel := cfg.levelOf 0
  releaseStartLevel := cfg.levelOf 0
  lastOutputLevel := cfg.levelOf 0

/-- A debounce cell after reset (R38, R39). -/
def DebounceCell.reset : DebounceCell where
  rawLevel := false
  stableLevel := false
  lastChangeTime := 0#64

/-- The state after reset under a configuration (R49, R241), nothing presented, nothing emitted. -/
def State.resetOf (cfg : Config) : State where
  cfg := cfg
  engines := bankOf (fun _ => Engine.resetOf cfg)
  now := 0#64
  gates := bankOf (fun _ => DebounceCell.reset)
  buttons := bankOf (fun _ => DebounceCell.reset)
  chanSel := 0
  manualTriggerActive := bankOf (fun _ => false)
  displayDirty := true
  outRefresh := false
  cmdErr := false
  seqNext := none
  inputs := []
  trace := []

/-- The machine right after reset, at the default configuration (R5, R49, R241). -/
def State.reset : State := State.resetOf Config.default

end Sys2Proof.Machine
end

