-- ==== Sys2Proof/Machine/Flags.lean ====
section
/-! DEFINITION. Every set and clear of the three flags (60_exceptions.md R223). -/

namespace Sys2Proof.Machine

/-- `display_dirty <- 1` (R42, R223). -/
def State.markDisplay (s : State) : State := { s with displayDirty := true }

/-- `if c = 3 then out_refresh <- 1`: the end of a synthesis pass (R43, R128). -/
def State.markPassEnd (c : Channel) (s : State) : State :=
  { s with outRefresh := s.outRefresh || c == 3 }

/-- `out_refresh <- 0` (R205). -/
def State.clearRefresh (s : State) : State := { s with outRefresh := false }

/-- `cmd_err <- 1` when `bad` (R44, R88, R202). -/
def State.markError (bad : Bool) (s : State) : State := { s with cmdErr := s.cmdErr || bad }

/-- CLR_FLAGS: mask bit 0 clears `display_dirty`, bit 1 `out_refresh`, bit 2 `cmd_err` (R203). -/
def State.clearFlags (mask : BitVec 3) (s : State) : State :=
  { s with
    displayDirty := s.displayDirty && !mask.getLsbD 0
    outRefresh := s.outRefresh && !mask.getLsbD 1
    cmdErr := s.cmdErr && !mask.getLsbD 2 }

end Sys2Proof.Machine
end

