-- ==== Sys2Proof/Machine/Curve.lean ====
section
/-! DEFINITION. The two lookup tables (40_curve_table.md). The ROM entry is computed from the closed form
of R103 over the naturals; the recurrence of R102 over the rationals stands beside it, as the spec
states the construction, and the two are related by an obligation. -/

namespace Sys2Proof.Machine

/-- The two tables of the LUT space (20_memory.md R60). -/
inductive Table where
  /-- attack_table, `ATT`. -/
  | att
  /-- decay_release_table, `DR`. -/
  | dr
  deriving DecidableEq, Repr

/-- `round_half_up(x / y) = floor(x / y + 1/2)` for y > 0 (R102 step 4). -/
def roundHalfUpDiv (x y : Nat) : Nat := (2 * x + y) / (2 * y)

/-- `ATT[i]`: `round_half_up((R-1)·(1 - α^i)/(1 - α^(N-1)))` with both parts of the fraction multiplied by
`den^(N-1)` (R102, R103). -/
def attEntry (cfg : Config) (i : Nat) : Nat :=
  let p := cfg.alpha.num
  let q := cfg.alpha.den
  let m := cfg.last
  roundHalfUpDiv (cfg.top * ((q ^ i - p ^ i) * q ^ (m - i))) (q ^ m - p ^ m)

/-- `DR[i]`: `round_half_up((R-1)·(β^i - β^(N-1))/(1 - β^(N-1)))`, likewise (R102, R103). -/
def drEntry (cfg : Config) (i : Nat) : Nat :=
  let p := cfg.beta.num
  let q := cfg.beta.den
  let m := cfg.last
  roundHalfUpDiv (cfg.top * (p ^ i * q ^ (m - i) - p ^ m)) (q ^ m - p ^ m)

/-- Entry `i` of a table, `0 ≤ i ≤ N-1` (R7, R61). -/
def tableEntry (cfg : Config) (table : Table) (i : Nat) : Nat :=
  match table with
  | .att => attEntry cfg i
  | .dr => drEntry cfg i

/-- A coefficient as the rational it stands for. -/
def coeffRat (a : Coeff) : ℚ := (a.num : ℚ) / (a.den : ℚ)

/-- `a[i]` of R102, steps 1 and 2. -/
def attSeed (cfg : Config) : Nat → ℚ
  | 0 => 0
  | i + 1 => (1 - coeffRat cfg.alpha) * (cfg.top : ℚ) + coeffRat cfg.alpha * attSeed cfg i

/-- `d[i]` of R102, steps 1 and 2. -/
def drSeed (cfg : Config) : Nat → ℚ
  | 0 => (cfg.top : ℚ)
  | i + 1 => coeffRat cfg.beta * drSeed cfg i

/-- `A'[i]` of R102, step 3. -/
def attNormal (cfg : Config) (i : Nat) : ℚ :=
  (attSeed cfg i - attSeed cfg 0) * (cfg.top : ℚ) / (attSeed cfg cfg.last - attSeed cfg 0)

/-- `D'[i]` of R102, step 3. -/
def drNormal (cfg : Config) (i : Nat) : ℚ :=
  (drSeed cfg i - drSeed cfg cfg.last) * (cfg.top : ℚ) / (drSeed cfg 0 - drSeed cfg cfg.last)

end Sys2Proof.Machine
end

