-- ==== Sys2Proof/Machine/Level.lean ====
section
/-! DEFINITION. LEVEL, the pure evaluation function (41_engine.md R116 to R127, R131, R132). Every quantity
is a natural number (R132); the result is narrowed once, at the end. -/

namespace Sys2Proof.Machine

/-- `sat_sub(x, y) = x - y if x ≥ y, else 0` (R116). -/
def satSub (x y : Time) : Nat := x.toNat - y.toNat

/-- The pressed macro-phase: `t_note_off < t_note_on`, unsigned (R47). -/
def Engine.pressed (e : Engine) : Bool := decide (e.tNoteOff.toNat < e.tNoteOn.toNat)

/-- The five sub-phases (R116). -/
inductive SubPhase where
  | attack | decay | sustain | release | off
  deriving DecidableEq, Repr

/-- Δ, the time since the stamp that opened the macro-phase, saturating at 0 (R117). -/
def elapsed (e : Engine) (t : Time) : Nat :=
  if e.pressed then satSub t e.tNoteOn else satSub t e.tNoteOff

/-- The selection of a sub-phase, in the spec's order of tests; the sum of the two durations does not
wrap (R116, R118). -/
def subPhase (e : Engine) (t : Time) : SubPhase :=
  if e.pressed then
    if elapsed e t < e.attackUs.toNat ∨ e.attackUs = 0#32 then .attack
    else if elapsed e t < e.attackUs.toNat + e.decayUs.toNat then .decay
    else .sustain
  else
    if elapsed e t < e.releaseUs.toNat ∨ e.releaseUs = 0#32 then .release
    else .off

/-- `INTERP(T, P, D)` (R121). -/
def interp (cfg : Config) (table : Table) (p d : Nat) : Nat :=
  if cfg.last * d ≤ p then tableEntry cfg table cfg.last
  else
    (tableEntry cfg table (p / d) * (d - p % d) + tableEntry cfg table (p / d + 1) * (p % d)) / d

/-- The interpolated value after `x` microseconds of a sub-phase that lasts `us`: P = (N-1)·x and
D = max(us, 1) (R120). -/
def curveValue (cfg : Config) (table : Table) (x : Nat) (us : Micros) : Nat :=
  interp cfg table (cfg.last * x) (max us.toNat 1)

/-- The rescale of [0, R-1] onto [start, R-1], rounded down (R122, R123). For a start above R-1, which no run
reaches, the difference is 0: DESIGN CHOICE, log 8. -/
def rescaleAbove (cfg : Config) (start : Level) (v : Nat) : Nat :=
  start.toNat + v * (cfg.top - start.toNat) / cfg.top

/-- The rescale of [0, R-1] onto [0, start], rounded down (R125). -/
def rescaleBelow (cfg : Config) (start : Level) (v : Nat) : Nat :=
  v * start.toNat / cfg.top

/-- LEVEL(e, t) as a natural number (R131). -/
def levelNat (cfg : Config) (e : Engine) (t : Time) : Nat :=
  match subPhase e t with
  | .attack => rescaleAbove cfg e.attackStartLevel (curveValue cfg .att (elapsed e t) e.attackUs)
  | .decay =>
    rescaleAbove cfg e.sustainLevel (curveValue cfg .dr (elapsed e t - e.attackUs.toNat) e.decayUs)
  | .sustain => e.sustainLevel.toNat
  | .release => rescaleBelow cfg e.releaseStartLevel (curveValue cfg .dr (elapsed e t) e.releaseUs)
  | .off => 0

/-- LEVEL(e, t) as the W_L-bit level register holds it (R28, R116, R128). -/
def level (cfg : Config) (e : Engine) (t : Time) : Level := cfg.levelOf (levelNat cfg e t)

end Sys2Proof.Machine
end

