-- ==== Sys2Proof/Machine/Ops.lean ====
section
/-! DEFINITION. The named operations over the registers that more than one meaning uses: the engine bank,
the event trace, the note actions of NOTE_ON, NOTE_OFF and POLL (41_engine.md R110, R112, 43_trigger.md
R159), and the discard of a word, which stands where a processor would take an exception
(30_encoding.md R88, 60_exceptions.md R220, R225). -/

namespace Sys2Proof.Machine

/-- `E[c]`. -/
def State.engine (s : State) (c : Channel) : Engine := bankGet s.engines c

/-- `E[c]` replaced by `f E[c]`; the other banks are untouched (R230). -/
def State.updEngine (c : Channel) (f : Engine → Engine) (s : State) : State :=
  { s with engines := bankSet s.engines c (f (s.engine c)) }

/-- `emit X`: append X to the output event trace (R7). -/
def State.emit (ev : Event) (s : State) : State := { s with trace := s.trace ++ [ev] }

/-- The engine's part of NOTE_ON at time `t` (R110). -/
def Engine.noteOn (t : Time) (e : Engine) : Engine :=
  { e with
    tNoteOn := t
    attackStartLevel := if e.resetAttackOnTrigger then e.attackStartLevel.cleared else e.lastOutputLevel
    notesHeld := BitVec.ofNat 8 (min (e.notesHeld.toNat + 1) 255) }

/-- The engine's part of NOTE_OFF at time `t` (R112). -/
def Engine.noteOff (t : Time) (e : Engine) : Engine :=
  if e.notesHeld.toNat ≤ 1 then
    { e with notesHeld := 0#8, tNoteOff := t, releaseStartLevel := e.lastOutputLevel }
  else { e with notesHeld := BitVec.ofNat 8 (e.notesHeld.toNat - 1) }

/-- NOTE_ON_ACT(c, t) (R110, R159). -/
def State.noteOnAct (c : Channel) (t : Time) (s : State) : State :=
  (s.updEngine c (Engine.noteOn t)).markDisplay

/-- NOTE_OFF_ACT(c, t) (R112, R159). -/
def State.noteOffAct (c : Channel) (t : Time) (s : State) : State :=
  (s.updEngine c (Engine.noteOff t)).markDisplay

/-- A parameter setter: one field of `E[c]` changes and the display is to be redrawn (R140 to R144). -/
def State.setParam (c : Channel) (f : Engine → Engine) (s : State) : State :=
  (s.updEngine c f).markDisplay

/-- A RESERVED or ILLEGAL_SOURCE word "changes no state except `cmd_err <- 1`, emits no event, and is
consumed" (R88). -/
def State.discard (s : State) : State := s.markError true

end Sys2Proof.Machine
end

