-- ==== Sys2Proof/Machine/EngineOps.lean ====
section
/-! DEFINITION. NOTE_ON, NOTE_OFF and EVAL (41_engine.md R110, R112, R128). -/

namespace Sys2Proof.Machine

/-- NOTE_ON c (R110). -/
def execNoteOn (c : Channel) (s : State) : Host.Outcome State Fault Refusal :=
  .next (s.noteOnAct c s.now)

/-- NOTE_OFF c (R112). -/
def execNoteOff (c : Channel) (s : State) : Host.Outcome State Fault Refusal :=
  .next (s.noteOffAct c s.now)

/-- The store of EVAL: `last_output_level <- l` (R128). -/
def Engine.storeOutput (l : Level) (e : Engine) : Engine := { e with lastOutputLevel := l }

/-- EVAL c: store LEVEL(E[c], now), emit it, and mark the end of a pass when c = 3 (R128). -/
def execEval (c : Channel) (s : State) : Host.Outcome State Fault Refusal :=
  .next (((s.updEngine c (Engine.storeOutput (level s.cfg (s.engine c) s.now))).emit
    (.out c (level s.cfg (s.engine c) s.now))).markPassEnd c)

end Sys2Proof.Machine
end

