-- ==== Sys2Proof/Machine/Operands.lean ====
section
/-! DEFINITION. The operand forms: the clamp of SET_SUSTAIN (42_setters.md R142), the input levels of POLL
(30_encoding.md R82, 43_trigger.md R150) and the register map of READ (45_system.md R202). -/

namespace Sys2Proof.Machine

/-- `min(level, R-1)`, in the W_L bits of the register (R22, R142). -/
def clampLevel (cfg : Config) (operand : Micros) : Level :=
  cfg.levelOf (min operand.toNat cfg.top)

/-- `gate_in[i]` or `button_in[i]` (R82, R150). -/
def inputLevel (levels : BitVec 4) (i : Channel) : Bool := levels.getLsbD i.val

/-- GATE_DB and BUTTON_DB: bit 0 is `raw_level`, bit 1 `stable_level` (R202). -/
def cellBits (x : DebounceCell) : Nat := bitNat x.rawLevel + 2 * bitNat x.stableLevel

/-- STATUS: bit 0 `display_dirty`, bit 1 `out_refresh`, bit 2 `cmd_err` (R202). -/
def statusBits (s : State) : Nat :=
  bitNat s.displayDirty + 2 * bitNat s.outRefresh + 4 * bitNat s.cmdErr

/-- CONFIG: bits 15:0 R-1, bits 31:16 N-1, bits 63:32 T_DB_US (R202). -/
def configBits (cfg : Config) : BitVec 64 :=
  cfg.tDbUs ++ BitVec.ofNat 16 cfg.last ++ BitVec.ofNat 16 cfg.top

/-- The two error cases of READ: a reserved register, or a table index that is not below N (R202). -/
def readError (cfg : Config) (reg : Reg) (index : BitVec 16) : Bool :=
  match reg with
  | .reserved _ => true
  | .lutAtt | .lutDr => decide (cfg.n ≤ index.toNat)
  | .attackUs | .decayUs | .sustainLevel | .releaseUs | .policy | .notesHeld | .tNoteOn | .tNoteOff
  | .attackStartLevel | .releaseStartLevel | .lastOutputLevel
  | .gateDb | .gateDbTime | .buttonDb | .buttonDbTime | .manualTriggerActive
  | .now | .chanSel | .status | .config => false

/-- REGVALUE(c, reg, index): the table of R202, zero-extended to 64 bits. -/
def regValue (s : State) (c : Channel) (reg : Reg) (index : BitVec 16) : BitVec 64 :=
  match reg with
  | .attackUs => (s.engine c).attackUs.setWidth 64
  | .decayUs => (s.engine c).decayUs.setWidth 64
  | .sustainLevel => (s.engine c).sustainLevel.bits.setWidth 64
  | .releaseUs => (s.engine c).releaseUs.setWidth 64
  | .policy => BitVec.ofNat 64 (bitNat (s.engine c).resetAttackOnTrigger)
  | .notesHeld => (s.engine c).notesHeld.setWidth 64
  | .tNoteOn => (s.engine c).tNoteOn
  | .tNoteOff => (s.engine c).tNoteOff
  | .attackStartLevel => (s.engine c).attackStartLevel.bits.setWidth 64
  | .releaseStartLevel => (s.engine c).releaseStartLevel.bits.setWidth 64
  | .lastOutputLevel => (s.engine c).lastOutputLevel.bits.setWidth 64
  | .gateDb => BitVec.ofNat 64 (cellBits (bankGet s.gates c))
  | .gateDbTime => (bankGet s.gates c).lastChangeTime
  | .buttonDb => BitVec.ofNat 64 (cellBits (bankGet s.buttons c))
  | .buttonDbTime => (bankGet s.buttons c).lastChangeTime
  | .manualTriggerActive => BitVec.ofNat 64 (bitNat (bankGet s.manualTriggerActive c))
  | .now => s.now
  | .chanSel => BitVec.ofNat 64 s.chanSel.val
  | .status => BitVec.ofNat 64 (statusBits s)
  | .config => configBits s.cfg
  | .lutAtt => BitVec.ofNat 64 (tableEntry s.cfg .att index.toNat)
  | .lutDr => BitVec.ofNat 64 (tableEntry s.cfg .dr index.toNat)
  | .reserved _ => 0#64

/-- READ's answer: REGVALUE, or 0 in the two error cases (R202). -/
def readValue (s : State) (c : Channel) (reg : Reg) (index : BitVec 16) : BitVec 64 :=
  if readError s.cfg reg index then 0#64 else regValue s c reg index

end Sys2Proof.Machine
end

