-- ==== Sys2Proof/Machine/Setters.lean ====
section
/-! DEFINITION. The parameter setters (42_setters.md R140 to R146). -/

namespace Sys2Proof.Machine

/-- SET_ATTACK c, us: stored verbatim (R140). -/
def execSetAttack (c : Channel) (us : Micros) (s : State) : Host.Outcome State Fault Refusal :=
  .next (s.setParam c (fun e => { e with attackUs := us }))

/-- SET_DECAY c, us: stored verbatim (R141). -/
def execSetDecay (c : Channel) (us : Micros) (s : State) : Host.Outcome State Fault Refusal :=
  .next (s.setParam c (fun e => { e with decayUs := us }))

/-- SET_SUSTAIN c, level: clamped to R-1, never refused (R142). -/
def execSetSustain (c : Channel) (operand : Micros) (s : State) : Host.Outcome State Fault Refusal :=
  .next (s.setParam c (fun e => { e with sustainLevel := clampLevel s.cfg operand }))

/-- SET_RELEASE c, us: stored verbatim (R143). -/
def execSetRelease (c : Channel) (us : Micros) (s : State) : Host.Outcome State Fault Refusal :=
  .next (s.setParam c (fun e => { e with releaseUs := us }))

/-- SET_POLICY c, p (R144). -/
def execSetPolicy (c : Channel) (p : Bool) (s : State) : Host.Outcome State Fault Refusal :=
  .next (s.setParam c (fun e => { e with resetAttackOnTrigger := p }))

end Sys2Proof.Machine
end

