-- ==== Sys2Proof/Machine/System.lean ====
section
/-! DEFINITION. The system operations NOP, READ, CLR_FLAGS, TICK, OUT_ACK (45_system.md). -/

namespace Sys2Proof.Machine

/-- NOP: nothing (R200). -/
def execNop (s : State) : Host.Outcome State Fault Refusal := .next s

/-- READ c, reg, index: answer, and in the two error cases `cmd_err <- 1`; the value is of the state before
this READ (R202). -/
def execRead (c : Channel) (reg : Reg) (index : BitVec 16) (s : State) :
    Host.Outcome State Fault Refusal :=
  .next ((s.markError (readError s.cfg reg index)).emit (.rsp (readValue s c reg index)))

/-- CLR_FLAGS mask (R203). -/
def execClrFlags (mask : BitVec 3) (s : State) : Host.Outcome State Fault Refusal :=
  .next (s.clearFlags mask)

/-- TICK n: `now <- (now + n) mod 2^64` (R204). -/
def execTick (n : Micros) (s : State) : Host.Outcome State Fault Refusal :=
  .next { s with now := s.now + n.setWidth 64 }

/-- OUT_ACK: `out_refresh <- 0` (R205). -/
def execOutAck (s : State) : Host.Outcome State Fault Refusal := .next s.clearRefresh

end Sys2Proof.Machine
end

