-- ==== Sys2Proof/Machine/Trigger.lean ====
section
/-! DEFINITION. The debounce and gate/trigger sampler: POLL (43_trigger.md R150 to R170). -/

namespace Sys2Proof.Machine

/-- `lct'` of R153: "a raw level change resets a timer". -/
def changeTime (cell : DebounceCell) (x : Bool) (t : Time) : Time :=
  if x = cell.rawLevel then cell.lastChangeTime else t

/-- Whether DEBOUNCE(X, x, t) accepts a transition (R153). -/
def accepts (cfg : Config) (cell : DebounceCell) (x : Bool) (t : Time) : Bool :=
  x != cell.stableLevel && decide (cfg.tDbUs.toNat ≤ satSub t (changeTime cell x t))

/-- The cell DEBOUNCE(X, x, t) returns (R153). -/
def debounce (cfg : Config) (cell : DebounceCell) (x : Bool) (t : Time) : DebounceCell where
  rawLevel := x
  stableLevel := if accepts cfg cell x t then x else cell.stableLevel
  lastChangeTime := changeTime cell x t

/-- Phase 1 of POLL over one class of four cells: all with the same t, independent of each other (R152). -/
def debounceAll (cfg : Config) (cells : PerChannel DebounceCell) (levels : BitVec 4) (t : Time) :
    PerChannel DebounceCell :=
  bankOf (fun i => debounce cfg (bankGet cells i) (inputLevel levels i) t)

/-- `accG` or `accB` of R152. -/
def acceptsAt (cfg : Config) (cells : PerChannel DebounceCell) (levels : BitVec 4) (t : Time)
    (i : Channel) : Bool :=
  accepts cfg (bankGet cells i) (inputLevel levels i) t

/-- GATE_ACTION(i, s, t) (R160). -/
def gateAction (i : Channel) (pressed : Bool) (t : Time) (s : State) : State :=
  if pressed then s.noteOnAct i t else s.noteOffAct i t

/-- `manual_trigger_active[i] <- v` (R41). -/
def State.setManual (i : Channel) (v : Bool) (s : State) : State :=
  { s with manualTriggerActive := bankSet s.manualTriggerActive i v }

/-- k of R163: how many buttons are in the `Pressed` state. -/
def pressedButtons (s : State) : Nat :=
  (channels.map (fun i => bitNat (bankGet s.buttons i).stableLevel)).sum

/-- The press of the selected channel's button (R161). -/
def buttonPressSelected (i : Channel) (t : Time) (s : State) : State :=
  (s.noteOnAct i t).setManual i true

/-- The release of the selected channel's button (R162). -/
def buttonReleaseSelected (i : Channel) (t : Time) (s : State) : State :=
  if bankGet s.manualTriggerActive i then (s.noteOffAct i t).setManual i false else s

/-- The chord: a mode toggle for the UI collaborator (R163). -/
def chordToggle (s : State) : State := (s.emit .modeToggle).markDisplay

/-- The channel switch (R164). -/
def switchChannel (i : Channel) (s : State) : State :=
  (State.emit (.resync i) { s with chanSel := i }).markDisplay

/-- BUTTON_ACTION(i, s, t), the table of R166: R161, R162, R163, R164, R165. -/
def buttonAction (i : Channel) (pressed : Bool) (t : Time) (s : State) : State :=
  if s.chanSel = i then
    if pressed then buttonPressSelected i t s else buttonReleaseSelected i t s
  else if pressed then
    if pressedButtons s = 2 then chordToggle s else switchChannel i s
  else s

/-- Phase 2 over one class of inputs: the accepted ones act in index order, each on the state the one
before it left (R152, R158). -/
def dispatch (acc : Channel → Bool) (act : Channel → State → State) (s : State) : State :=
  channels.foldl (fun st i => if acc i then act i st else st) s

/-- Phase 1 of POLL: the eight cells (R152). -/
def pollSample (gates buttons : BitVec 4) (s : State) : State :=
  { s with
    gates := debounceAll s.cfg s.gates gates s.now
    buttons := debounceAll s.cfg s.buttons buttons s.now }

/-- The gate actions of phase 2, on the state after phase 1; `s0` is the state before the POLL (R152, R160). -/
def pollGates (gates : BitVec 4) (s0 s : State) : State :=
  dispatch (acceptsAt s0.cfg s0.gates gates s0.now)
    (fun i st => gateAction i (bankGet st.gates i).stableLevel s0.now st) s

/-- The button actions of phase 2, after the gates (R152, R158). -/
def pollButtons (buttons : BitVec 4) (s0 s : State) : State :=
  dispatch (acceptsAt s0.cfg s0.buttons buttons s0.now)
    (fun i st => buttonAction i (bankGet st.buttons i).stableLevel s0.now st) s

/-- POLL g, b: one atomic operation in two phases, one reading of `now` (R152, R158). -/
def execPoll (gates buttons : BitVec 4) (s : State) : Host.Outcome State Fault Refusal :=
  .next (pollButtons buttons s (pollGates gates s (pollSample gates buttons s)))

end Sys2Proof.Machine
end

