-- ==== Sys2Proof/Machine/Dispatch.lean ====
section
/-! DEFINITION. The meaning of every operation: one arm per row of the opcode map (30_encoding.md R84). -/

namespace Sys2Proof.Machine

def exec (i : Instr) (s : State) : Host.Outcome State Fault Refusal :=
  match i with
  | .nop => Sys2Proof.Machine.execNop s
  | .setAttack c us => Sys2Proof.Machine.execSetAttack c us s
  | .setDecay c us => Sys2Proof.Machine.execSetDecay c us s
  | .setSustain c level => Sys2Proof.Machine.execSetSustain c level s
  | .setRelease c us => Sys2Proof.Machine.execSetRelease c us s
  | .setPolicy c p => Sys2Proof.Machine.execSetPolicy c p s
  | .noteOn c => Sys2Proof.Machine.execNoteOn c s
  | .noteOff c => Sys2Proof.Machine.execNoteOff c s
  | .read c reg index => Sys2Proof.Machine.execRead c reg index s
  | .clrFlags mask => Sys2Proof.Machine.execClrFlags mask s
  | .eval c => Sys2Proof.Machine.execEval c s
  | .poll gates buttons => Sys2Proof.Machine.execPoll gates buttons s
  | .tick n => Sys2Proof.Machine.execTick n s
  | .outAck => Sys2Proof.Machine.execOutAck s

end Sys2Proof.Machine
end

