-- ==== Sys2Proof/WellFormed.lean ====
section
/-! DEFINITION. Which terms of `Instr` are operations in canonical form. The operand types admit every
value of a used field; what is left to check is that a field an operation ignores (30_encoding.md R81,
R82, R86) holds 0, as the assembler and the decoder leave it. Only READ has such fields in its term. -/

namespace Sys2Proof

/-- READ of a register that does not use CH names channel 0 (R81, R86). -/
def readChannelCanonical (c : Channel) (reg : Reg) : Bool := reg.usesChannel || c == 0

/-- READ of a register other than the two table windows has index 0 (R82, R86). -/
def readIndexCanonical (reg : Reg) (index : BitVec 16) : Bool := reg.usesIndex || index == 0#16

/-- An operation in canonical form. -/
def Instr.wellFormed : Instr → Bool
  | .read c reg index => readChannelCanonical c reg && readIndexCanonical reg index
  | .nop => true
  | .setAttack _ _ => true
  | .setDecay _ _ => true
  | .setSustain _ _ => true
  | .setRelease _ _ => true
  | .setPolicy _ _ => true
  | .noteOn _ => true
  | .noteOff _ => true
  | .clrFlags _ => true
  | .eval _ => true
  | .poll _ _ => true
  | .tick _ => true
  | .outAck => true

end Sys2Proof
end

