-- ==== Sys2Proof/Decode.lean ====
section
/-! DEFINITION. Decoding and encoding of the 40-bit operation word (30_encoding.md R80 to R89). -/

namespace Sys2Proof

/-- OPC, bits 39:36 (R80). -/
def opcField (w : OpWord) : BitVec 4 := w.extractLsb' 36 4

/-- CH, bits 35:34 (R80). -/
def chField (w : OpWord) : BitVec 2 := w.extractLsb' 34 2

/-- Z, bits 33:32, which must be 0 (R80). -/
def zField (w : OpWord) : BitVec 2 := w.extractLsb' 32 2

/-- OPERAND, bits 31:0, unsigned (R80, R82). -/
def operandField (w : OpWord) : Micros := w.extractLsb' 0 32

/-- `c = word[35:34]` as an unsigned number (R81). -/
def channelField (w : OpWord) : Channel := (chField w).toFin

/-- The opcode map, from code to row; 0xE and 0xF are reserved (R84, R87). -/
def opcodeOf (code : BitVec 4) : Option Opcode :=
  match code.toNat with
  | 0x0 => some .nop
  | 0x1 => some .setAttack
  | 0x2 => some .setDecay
  | 0x3 => some .setSustain
  | 0x4 => some .setRelease
  | 0x5 => some .setPolicy
  | 0x6 => some .noteOn
  | 0x7 => some .noteOff
  | 0x8 => some .read
  | 0x9 => some .clrFlags
  | 0xA => some .eval
  | 0xB => some .poll
  | 0xC => some .tick
  | 0xD => some .outAck
  | _ => none

/-- The opcode map, from row to code (R84). -/
def Opcode.code : Opcode → BitVec 4
  | .nop => 0x0#4
  | .setAttack => 0x1#4
  | .setDecay => 0x2#4
  | .setSustain => 0x3#4
  | .setRelease => 0x4#4
  | .setPolicy => 0x5#4
  | .noteOn => 0x6#4
  | .noteOff => 0x7#4
  | .read => 0x8#4
  | .clrFlags => 0x9#4
  | .eval => 0xA#4
  | .poll => 0xB#4
  | .tick => 0xC#4
  | .outAck => 0xD#4

/-- The one source each opcode is legal from (R83, R84). -/
def Opcode.legalSource : Opcode → Source
  | .nop | .setAttack | .setDecay | .setSustain | .setRelease | .setPolicy | .noteOn | .noteOff
  | .read | .clrFlags => .host
  | .eval => .seq
  | .poll => .sampler
  | .tick => .timebase
  | .outAck => .dac

/-- The register a number 0x00 .. 0x1F names (R202). -/
def regOf (num : BitVec 5) : Reg :=
  match num.toNat with
  | 0x00 => .attackUs
  | 0x01 => .decayUs
  | 0x02 => .sustainLevel
  | 0x03 => .releaseUs
  | 0x04 => .policy
  | 0x05 => .notesHeld
  | 0x06 => .tNoteOn
  | 0x07 => .tNoteOff
  | 0x08 => .attackStartLevel
  | 0x09 => .releaseStartLevel
  | 0x0A => .lastOutputLevel
  | 0x0B => .gateDb
  | 0x0C => .gateDbTime
  | 0x0D => .buttonDb
  | 0x0E => .buttonDbTime
  | 0x0F => .manualTriggerActive
  | 0x10 => .now
  | 0x11 => .chanSel
  | 0x12 => .status
  | 0x13 => .config
  | 0x14 => .lutAtt
  | 0x15 => .lutDr
  | k => .reserved (Fin.ofNat 10 (k - 0x16))

/-- The number of a register (R202). -/
def Reg.number : Reg → BitVec 5
  | .attackUs => 0x00#5
  | .decayUs => 0x01#5
  | .sustainLevel => 0x02#5
  | .releaseUs => 0x03#5
  | .policy => 0x04#5
  | .notesHeld => 0x05#5
  | .tNoteOn => 0x06#5
  | .tNoteOff => 0x07#5
  | .attackStartLevel => 0x08#5
  | .releaseStartLevel => 0x09#5
  | .lastOutputLevel => 0x0A#5
  | .gateDb => 0x0B#5
  | .gateDbTime => 0x0C#5
  | .buttonDb => 0x0D#5
  | .buttonDbTime => 0x0E#5
  | .manualTriggerActive => 0x0F#5
  | .now => 0x10#5
  | .chanSel => 0x11#5
  | .status => 0x12#5
  | .config => 0x13#5
  | .lutAtt => 0x14#5
  | .lutDr => 0x15#5
  | .reserved k => BitVec.ofNat 5 (0x16 + k.val)

/-- READ's operands: `reg = OPERAND[4:0]`, `index = OPERAND[23:8]`; CH and the index read as 0 where
the register does not use them, since they then have no effect whatever (R81, R82, R86). DEDUCED, log 9. -/
def readOperands (c : Channel) (operand : Micros) : Instr :=
  let reg := regOf (operand.extractLsb' 0 5)
  .read (if reg.usesChannel then c else 0) reg (if reg.usesIndex then operand.extractLsb' 8 16 else 0#16)

/-- The operation an opcode row makes of CH and OPERAND; fields it does not name are ignored (R81, R82, R86). -/
def Opcode.assemble (op : Opcode) (c : Channel) (operand : Micros) : Instr :=
  match op with
  | .nop => .nop
  | .setAttack => .setAttack c operand
  | .setDecay => .setDecay c operand
  | .setSustain => .setSustain c operand
  | .setRelease => .setRelease c operand
  | .setPolicy => .setPolicy c (operand.getLsbD 0)
  | .noteOn => .noteOn c
  | .noteOff => .noteOff c
  | .read => readOperands c operand
  | .clrFlags => .clrFlags (operand.extractLsb' 0 3)
  | .eval => .eval c
  | .poll => .poll (operand.extractLsb' 0 4) (operand.extractLsb' 4 4)
  | .tick => .tick operand
  | .outAck => .outAck

/-- Why a word is reserved (R87). -/
inductive DecodeError where
  /-- Z is not 0. -/
  | reservedZ (z : BitVec 2)
  /-- OPC is 0xE or 0xF. -/
  | reservedOpcode (code : BitVec 4)
  deriving DecidableEq, Repr

/-- The decoder: total on 40-bit words (R85, R87). -/
def decode (w : OpWord) : Except DecodeError Instr :=
  if zField w = 0#2 then
    match opcodeOf (opcField w) with
    | some op => .ok (op.assemble (channelField w) (operandField w))
    | none => .error (.reservedOpcode (opcField w))
  else .error (.reservedZ (zField w))

/-- The source an operation is legal from (R83). -/
def Instr.legalSource (i : Instr) : Source := i.opcode.legalSource

/-- The three verdicts of R85. -/
inductive Verdict where
  | execute (i : Instr)
  | reserved
  | illegalSource
  deriving DecidableEq, Repr

/-- Decoding of a word from a source (R85). -/
def verdict (src : Source) (w : OpWord) : Verdict :=
  match decode w with
  | .error _ => .reserved
  | .ok i => if i.legalSource = src then .execute i else .illegalSource

/-- The CH bits of an operation; 0 where it takes no channel (R90). -/
def Instr.chBits : Instr → BitVec 2
  | .setAttack c _ | .setDecay c _ | .setSustain c _ | .setRelease c _ | .setPolicy c _
  | .noteOn c | .noteOff c | .read c _ _ | .eval c => BitVec.ofFin c
  | .nop | .clrFlags _ | .poll _ _ | .tick _ | .outAck => 0#2

/-- The OPERAND bits of an operation; ignored bits are 0 (R82, R90). -/
def Instr.operandBits : Instr → Micros
  | .setAttack _ us | .setDecay _ us | .setSustain _ us | .setRelease _ us | .tick us => us
  | .setPolicy _ p => (BitVec.ofBool p).setWidth 32
  | .read _ reg index => (0#8 ++ index ++ 0#3 ++ reg.number : BitVec 32)
  | .clrFlags mask => mask.setWidth 32
  | .poll gates buttons => (buttons ++ gates : BitVec 8).setWidth 32
  | .nop | .noteOn _ | .noteOff _ | .eval _ | .outAck => 0#32

/-- `OPC[39:36] CH[35:34] Z[33:32] OPERAND[31:0]` with Z = 0 (R80). -/
def packWord (code : BitVec 4) (ch : BitVec 2) (operand : Micros) : OpWord :=
  (code ++ ch ++ 0#2 ++ operand : BitVec 40)

/-- The word of an operation (R80 to R84, R90). -/
def encode (i : Instr) : OpWord := packWord i.opcode.code i.chBits i.operandBits

/-- The host's question to the decoder: the word is one 40-bit vector, bit 0 least significant (R62,
R80), so the first `nbits` bits of `w` are the word itself. DESIGN CHOICE, log 10. -/
def decodeTableWord (nbits w : Nat) : Option Instr :=
  match decode (BitVec.ofNat 40 (w % 2 ^ nbits)) with
  | .ok i => some i
  | .error _ => none

/-- One row of the opcode map: an opcode and its match value; the mask is common (R84). -/
structure OpcodeRow where
  opcode : Opcode
  matchValue : OpWord
  deriving DecidableEq, Repr

/-- The mask 0xF300000000 selects OPC and Z (R84). -/
def opcodeMask : OpWord := 0xF300000000#40

/-- The opcode map as R84 tabulates it. -/
def opcodeTable : List OpcodeRow :=
  [⟨.nop, 0x0000000000#40⟩, ⟨.setAttack, 0x1000000000#40⟩, ⟨.setDecay, 0x2000000000#40⟩,
   ⟨.setSustain, 0x3000000000#40⟩, ⟨.setRelease, 0x4000000000#40⟩, ⟨.setPolicy, 0x5000000000#40⟩,
   ⟨.noteOn, 0x6000000000#40⟩, ⟨.noteOff, 0x7000000000#40⟩, ⟨.read, 0x8000000000#40⟩,
   ⟨.clrFlags, 0x9000000000#40⟩, ⟨.eval, 0xA000000000#40⟩, ⟨.poll, 0xB000000000#40⟩,
   ⟨.tick, 0xC000000000#40⟩, ⟨.outAck, 0xD000000000#40⟩]

/-- The row a word matches: `word & mask = match` (R84). -/
def tableLookup (w : OpWord) : Option Opcode :=
  (opcodeTable.find? (fun row => w &&& opcodeMask == row.matchValue)).map OpcodeRow.opcode

end Sys2Proof
end

