-- ==== Sys2Proof/Machine/Fetch.lean ====
section
/-! DEFINITION. What stands where a processor fetches: the next input of the total order, the word it
presents (30_encoding.md R83, R92, R93), its verdict (R85) and the discard of a refused word (R88). -/

namespace Sys2Proof.Machine

/-- The channel a pass evaluates after `c`; none after channel 3 (R93, R129). -/
def seqAfter (c : Channel) : Option Channel := if h : c.val + 1 < 4 then some ⟨c.val + 1, h⟩ else none

/-- The word an input presents and the source it comes from, given the sequencer's position (R83, R92, R93);
none for an input that presents no word. -/
def presented (pos : Option Channel) (x : Input) : Option (Source × OpWord) :=
  match x with
  | .word src w => some (src, w)
  | .usTick => some (.timebase, encode (.tick 1#32))
  | .pollStrobe gates buttons => some (.sampler, encode (.poll gates buttons))
  | .seqTurn => pos.map (fun c => (Source.seq, encode (.eval c)))
  | .outAck => some (.dac, encode .outAck)
  | .sampleStrobe => none
  | .rst => none

/-- The sequencer's position after an input: `sample_strobe` starts a pass at channel 0 unless one is in
progress, a turn advances it, `rst` abandons it (R93, R240). -/
def seqMove (pos : Option Channel) (x : Input) : Option Channel :=
  match x with
  | .sampleStrobe => some (pos.getD 0)
  | .seqTurn => pos.bind seqAfter
  | .rst => none
  | .word _ _ => pos
  | .usTick => pos
  | .pollStrobe _ _ => pos
  | .outAck => pos

/-- `rst`: "every register takes its reset value", nothing executes, no event is emitted (R240, R241); the
configuration, the inputs still to come and the trace so far are no registers (log 5). -/
def State.hardReset (s : State) : State :=
  { State.resetOf s.cfg with inputs := s.inputs, trace := s.trace }

/-- What the next place of the total order holds. -/
inductive Fetched where
  /-- No operation executes; the machine is then in state `s`. -/
  | done (s : State)
  /-- The operation `i` executes on state `s`. -/
  | run (i : Instr) (s : State)
  deriving DecidableEq, Repr

/-- The verdict on a presented word (R85), and the discard of a refused one (R88). -/
def accept (src : Source) (w : OpWord) (s : State) : Fetched :=
  match verdict src w with
  | .execute i => .run i s
  | .reserved => .done s.discard
  | .illegalSource => .done s.discard

/-- One input taken, on the state that no longer lists it. -/
def takeInput (x : Input) (s : State) : Fetched :=
  match presented s.seqNext x with
  | some (src, w) => accept src w { s with seqNext := seqMove s.seqNext x }
  | none => if x = .rst then .done s.hardReset else .done { s with seqNext := seqMove s.seqNext x }

/-- The next input of the total order, if any: "an agent that stops issuing operations simply leaves the
state as it is" (R206). -/
def fetch (s : State) : Fetched :=
  match s.inputs with
  | [] => .done s
  | x :: rest => takeInput x { s with inputs := rest }

/-- The source the host's question presents a word from: the legal source of its opcode, or the command port
for a reserved word (R83, R84, log 10). -/
def presentingSource (w : OpWord) : Source :=
  match decode w with
  | .ok i => i.legalSource
  | .error _ => .host

/-- The input that presents the word numbered `w`. -/
def wordInput (nbits w : Nat) : Input :=
  .word (presentingSource (BitVec.ofNat 40 (w % 2 ^ nbits))) (BitVec.ofNat 40 (w % 2 ^ nbits))

end Sys2Proof.Machine
end

