-- ==== Sys2Proof/Machine/Step.lean ====
section
/-! DEFINITION. One step: one atomic operation of the total order (20_memory.md R66, R68). -/

namespace Sys2Proof.Machine

/-- One step of the machine: it takes the next input and executes what that presents (R66, R68, R85). -/
def step (s : State) : Host.Outcome State Fault Refusal :=
  match fetch s with
  | .done t => .next t
  | .run i t => exec i t

/-- The state in which the word numbered `w` is presented next, ahead of all other inputs (log 1, log 10). -/
def State.withFetchWord (s : State) (nbits w : Nat) : State :=
  { s with inputs := wordInput nbits w :: s.inputs }

end Sys2Proof.Machine
end

