-- ==== Sys2Proof/Machine/Assembler.lean ====
section
/-! DEFINITION. The text of operation sequences and its pseudo-operations (30_encoding.md R90, R91), as a
function from a text and the value of the time counter at its start to the inputs it presents. What a
text must look like beyond R90's words (blanks, capitals) is a DESIGN CHOICE, log 19. -/

namespace Sys2Proof.Machine

/-- A statement of the text: an operation from its legal source, an operation forced onto the command port by
`HOST!`, a raw word on the command port, or a pseudo-operation (R90, R91). -/
inductive AsmStmt where
  | op (i : Instr)
  | hostOp (i : Instr)
  | rawWord (w : OpWord)
  | setAdsr (c : Channel) (a d s r : Micros)
  | pass
  | wait (n : Micros)
  | hold (gates buttons : BitVec 4) (k : Nat) (dt : Micros)
  | atTime (t : Time)
  deriving DecidableEq, Repr

/-- `PASS` (R91): one synthesis pass. -/
def passOps : List Instr := channels.map Instr.eval

/-- `SET_ADSR c, a, d, s, r` (R91). -/
def setAdsrOps (c : Channel) (a d s r : Micros) : List Instr :=
  [.setAttack c a, .setDecay c d, .setSustain c s, .setRelease c r]

/-- `HOLD g, b, k, dt` (R91): k repetitions of `TICK dt ; POLL g, b`. -/
def holdOps (gates buttons : BitVec 4) (k : Nat) (dt : Micros) : List Instr :=
  (List.replicate k [Instr.tick dt, Instr.poll gates buttons]).flatten

/-- `AT t` with the time counter at `now` (R91): legal only if t ≥ now, and then `TICK (t - now)`; a distance
that no 32-bit operand holds has no expansion. -/
def atOps (now t : Time) : Option (List Instr) :=
  if now.toNat ≤ t.toNat ∧ t.toNat - now.toNat < 2 ^ 32 then
    some [.tick (BitVec.ofNat 32 (t.toNat - now.toNat))]
  else none

/-- The operation presented by its legal source (R90). -/
def present (i : Instr) : Input := .word i.legalSource (encode i)

/-- The time counter after operations presented by their legal sources: TICK alone moves it (R204). -/
def timeAfter (now : Time) (ops : List Instr) : Time :=
  ops.foldl (fun t i => match i with
    | .tick n => t + n.setWidth 64
    | .nop | .setAttack _ _ | .setDecay _ _ | .setSustain _ _ | .setRelease _ _ | .setPolicy _ _
    | .noteOn _ | .noteOff _ | .read _ _ _ | .clrFlags _ | .eval _ | .poll _ _ | .outAck => t) now

/-- The operations from their legal sources that a statement stands for (R91). -/
def AsmStmt.ops (now : Time) : AsmStmt → Option (List Instr)
  | .op i => some [i]
  | .setAdsr c a d s r => some (setAdsrOps c a d s r)
  | .pass => some passOps
  | .wait n => some [.tick n]
  | .hold gates buttons k dt => some (holdOps gates buttons k dt)
  | .atTime t => atOps now t
  | .hostOp _ => some []
  | .rawWord _ => some []

/-- The inputs of a statement (R90, R91). -/
def AsmStmt.inputs (now : Time) (stmt : AsmStmt) : Option (List Input) :=
  match stmt with
  | .hostOp i => some [.word .host (encode i)]
  | .rawWord w => some [.word .host w]
  | .op _ | .setAdsr _ _ _ _ _ | .pass | .wait _ | .hold _ _ _ _ | .atTime _ =>
    (stmt.ops now).map (fun ops => ops.map present)

/-- The inputs of a sequence of statements, from a value of the time counter. -/
def assembleStmts (now : Time) : List AsmStmt → Option (List Input)
  | [] => some []
  | stmt :: rest => do
    let ops ← stmt.ops now
    let here ← stmt.inputs now
    let later ← assembleStmts (timeAfter now ops) rest
    return here ++ later

/-- A list cut at every element that satisfies `p`. -/
def splitAt (p : Char → Bool) (cs : List Char) : List (List Char) :=
  cs.foldr (fun c parts => if p c then [] :: parts else
    match parts with
    | [] => [[c]]
    | w :: ws => (c :: w) :: ws) [[]]

/-- Blanks taken off both ends. -/
def trimBlanks (cs : List Char) : List Char :=
  ((cs.dropWhile Char.isWhitespace).reverse.dropWhile Char.isWhitespace).reverse

/-- One digit in a base. -/
def digitOf (base : Nat) (c : Char) : Option Nat :=
  let v :=
    if '0' ≤ c ∧ c ≤ '9' then c.toNat - '0'.toNat
    else if 'a' ≤ c ∧ c ≤ 'f' then c.toNat - 'a'.toNat + 10
    else if 'A' ≤ c ∧ c ≤ 'F' then c.toNat - 'A'.toNat + 10
    else base
  if v < base then some v else none

/-- A non-empty run of digits in a base. -/
def digitsOf (base : Nat) (cs : List Char) : Option Nat :=
  if cs.isEmpty then none
  else cs.foldl (fun acc c => acc.bind (fun v => (digitOf base c).map (fun d => v * base + d))) (some 0)

/-- A number in the notation of R6: decimal, or prefixed 0x or 0b. -/
def parseNumber (cs : List Char) : Option Nat :=
  match cs with
  | '0' :: 'x' :: ds => digitsOf 16 ds
  | '0' :: 'b' :: ds => digitsOf 2 ds
  | ds => digitsOf 10 ds

/-- A number of at most `w` bits. -/
def parseBits (w : Nat) (cs : List Char) : Option (BitVec w) :=
  (parseNumber cs).bind (fun v => if v < 2 ^ w then some (BitVec.ofNat w v) else none)

/-- A channel operand. -/
def parseChannel (cs : List Char) : Option Channel := (parseBits 2 cs).map BitVec.toFin

/-- The register names of R202. -/
def regNames : List (String × Reg) :=
  [("ATTACK_US", .attackUs), ("DECAY_US", .decayUs), ("SUSTAIN_LEVEL", .sustainLevel),
   ("RELEASE_US", .releaseUs), ("POLICY", .policy), ("NOTES_HELD", .notesHeld),
   ("T_NOTE_ON", .tNoteOn), ("T_NOTE_OFF", .tNoteOff), ("ATTACK_START_LEVEL", .attackStartLevel),
   ("RELEASE_START_LEVEL", .releaseStartLevel), ("LAST_OUTPUT_LEVEL", .lastOutputLevel),
   ("GATE_DB", .gateDb), ("GATE_DB_TIME", .gateDbTime), ("BUTTON_DB", .buttonDb),
   ("BUTTON_DB_TIME", .buttonDbTime), ("MANUAL_TRIGGER_ACTIVE", .manualTriggerActive),
   ("NOW", .now), ("CHAN_SEL", .chanSel), ("STATUS", .status), ("CONFIG", .config),
   ("LUT_ATT", .lutAtt), ("LUT_DR", .lutDr)]

/-- "REGNAME of 45_system.md rule R202, or a number" (R90). -/
def parseReg (cs : List Char) : Option Reg :=
  match regNames.find? (fun row => row.1.toList == cs) with
  | some row => some row.2
  | none => (parseBits 5 cs).map regOf

/-- READ of a text: an index that the register does not use is an ignored operand bit and assembles as 0 (R82,
R90); the channel stays as the text gives it, also for a register that ignores it ("CH = c"; log 19). -/
def readOf (c : Channel) (reg : Reg) (index : BitVec 16) : Instr :=
  .read c reg (if reg.usesIndex then index else 0#16)

/-- An operation, from its mnemonic and operands (R90). -/
def parseInstr (name : List Char) (args : List (List Char)) : Option Instr :=
  let channelAnd (f : Channel → Micros → Instr) : Option Instr :=
    match args with
    | [c, x] => do return f (← parseChannel c) (← parseBits 32 x)
    | _ => none
  let channelOnly (f : Channel → Instr) : Option Instr :=
    match args with
    | [c] => (parseChannel c).map f
    | _ => none
  let plain (i : Instr) : Option Instr := if args.isEmpty then some i else none
  if name = "NOP".toList then plain .nop
  else if name = "SET_ATTACK".toList then channelAnd .setAttack
  else if name = "SET_DECAY".toList then channelAnd .setDecay
  else if name = "SET_SUSTAIN".toList then channelAnd .setSustain
  else if name = "SET_RELEASE".toList then channelAnd .setRelease
  else if name = "SET_POLICY".toList then channelAnd (fun c x => .setPolicy c (x.getLsbD 0))
  else if name = "NOTE_ON".toList then channelOnly .noteOn
  else if name = "NOTE_OFF".toList then channelOnly .noteOff
  else if name = "READ".toList then
    match args with
    | [c, r] => do return readOf (← parseChannel c) (← parseReg r) 0#16
    | [c, r, k] => do return readOf (← parseChannel c) (← parseReg r) (← parseBits 16 k)
    | _ => none
  else if name = "CLR_FLAGS".toList then
    match args with
    | [m] => (parseBits 32 m).map (fun x => .clrFlags (x.extractLsb' 0 3))
    | _ => none
  else if name = "EVAL".toList then channelOnly .eval
  else if name = "POLL".toList then
    match args with
    | [g, b] => do return .poll (← parseBits 4 g) (← parseBits 4 b)
    | _ => none
  else if name = "TICK".toList then
    match args with
    | [n] => (parseBits 32 n).map Instr.tick
    | _ => none
  else if name = "OUT_ACK".toList then plain .outAck
  else none

/-- A pseudo-operation (R91). -/
def parsePseudo (name : List Char) (args : List (List Char)) : Option AsmStmt :=
  if name = "SET_ADSR".toList then
    match args with
    | [c, a, d, s, r] => do
      return .setAdsr (← parseChannel c) (← parseBits 32 a) (← parseBits 32 d) (← parseBits 32 s)
        (← parseBits 32 r)
    | _ => none
  else if name = "PASS".toList then if args.isEmpty then some .pass else none
  else if name = "WAIT".toList then
    match args with
    | [n] => (parseBits 32 n).map AsmStmt.wait
    | _ => none
  else if name = "HOLD".toList then
    match args with
    | [g, b, k, dt] => do
      return .hold (← parseBits 4 g) (← parseBits 4 b) (← parseNumber k) (← parseBits 32 dt)
    | _ => none
  else if name = "AT".toList then
    match args with
    | [t] => (parseBits 64 t).map AsmStmt.atTime
    | _ => none
  else none

/-- A text cut into its first word and the operands after it, which commas separate. -/
def nameAndArgs (cs : List Char) : List Char × List (List Char) :=
  let name := cs.takeWhile (fun c => !c.isWhitespace)
  let rest := trimBlanks (cs.dropWhile (fun c => !c.isWhitespace))
  (name, if rest.isEmpty then [] else (splitAt (· == ',') rest).map trimBlanks)

/-- One statement (R90, R91). -/
def parseStmt (cs : List Char) : Option AsmStmt :=
  let (name, args) := nameAndArgs cs
  if name = ".word".toList then
    match args with
    | [w] => (parseBits 40 w).map AsmStmt.rawWord
    | _ => none
  else if name = "HOST!".toList then
    let (inner, innerArgs) := nameAndArgs (trimBlanks (cs.drop 5))
    (parseInstr inner innerArgs).map AsmStmt.hostOp
  else
    match parseInstr name args with
    | some i => some (.op i)
    | none => parsePseudo name args

/-- The statements of a text: lines, comments from `#` on, several operations separated by `;` (R90). -/
def parseText (text : String) : Option (List AsmStmt) :=
  ((splitAt (· == '\n') text.toList).flatMap (fun line =>
    (((splitAt (· == ';') (line.takeWhile (fun c => c != '#'))).map trimBlanks).filter
      (fun part => !part.isEmpty)))).mapM parseStmt

/-- The inputs a text presents when the time counter stands at `now` (R90, R91). -/
def assembleText (now : Time) (text : String) : Option (List Input) :=
  (parseText text).bind (assembleStmts now)

end Sys2Proof.Machine
end

