-- ==== Sys2Proof/Machine/Pins.lean ====
section
/-! DEFINITION. The pins (30_encoding.md R92): the output pins as functions of the state and of the events,
and the inputs that one clock edge presents, in the order the silicon executes them (20_memory.md R74,
which a model "should not build in" to its step). -/

namespace Sys2Proof.Machine

/-- `level_out[c][W_L-1:0]`: the register itself (R31, R92). -/
def levelOut (s : State) (c : Channel) : BitVec s.cfg.levelWidth :=
  (s.engine c).lastOutputLevel.bits.setWidth s.cfg.levelWidth

/-- The pin `chan_sel[1:0]` (R40, R92). -/
def chanSelPin (s : State) : BitVec 2 := BitVec.ofFin s.chanSel

/-- The pulse pins in the cycle of one event (R92). -/
structure Pulses where
  rspValid : Bool
  rspData : BitVec 64
  modeToggle : Bool
  paramResync : Bool
  paramResyncCh : BitVec 2
  deriving DecidableEq, Repr

/-- No pulse. -/
def Pulses.quiet : Pulses := ⟨false, 0#64, false, false, 0#2⟩

/-- The pulses an event gives; `Out` gives none, `level_out` shows it (R92, log 18). -/
def Event.pulses : Event → Pulses
  | .out _ _ => Pulses.quiet
  | .modeToggle => { Pulses.quiet with modeToggle := true }
  | .resync c => { Pulses.quiet with paramResync := true, paramResyncCh := BitVec.ofFin c }
  | .rsp v => { Pulses.quiet with rspValid := true, rspData := v }

/-- The input pins of the block in one clock cycle (R92); `cmdWord` is the word of a completed handshake and
`seqTurn` says that the sequencer executes its next EVAL in this cycle. -/
structure CyclePins where
  rst : Bool
  usTick : Bool
  pollStrobe : Bool
  gateIn : BitVec 4
  buttonIn : BitVec 4
  cmdWord : Option OpWord
  sampleStrobe : Bool
  seqTurn : Bool
  outAck : Bool
  deriving DecidableEq, Repr

/-- The inputs of one clock edge in the silicon's order: TICK, POLL, host command, EVAL, OUT_ACK (R74); with
`rst` = 1 no operation presented in that cycle executes (R240). -/
def CyclePins.inputs (p : CyclePins) : List Input :=
  if p.rst then [.rst]
  else
    (if p.usTick then [.usTick] else []) ++
    (if p.pollStrobe then [.pollStrobe p.gateIn p.buttonIn] else []) ++
    (p.cmdWord.map (Input.word .host)).toList ++
    (if p.sampleStrobe then [.sampleStrobe] else []) ++
    (if p.seqTurn then [.seqTurn] else []) ++
    (if p.outAck then [.outAck] else [])

end Sys2Proof.Machine
end

