-- ==== Sys2Proof/Safety.lean ====
section
/-! DEFINITION. The terms in which claims about runs are stated: the invariants of 10_state.md R48, the
pieces of a frame (which part of the state an operation leaves alone) and sequences of operations. -/

namespace Sys2Proof.Machine

/-- A level register of this configuration: W_L bits wide, and its value in [0, R-1] (R5, R48). -/
abbrev Level.Fits (cfg : Config) (l : Level) : Prop := l.width = cfg.levelWidth ∧ l.toNat ≤ cfg.top

/-- The four level registers of a bank are W_L bits wide and at most R-1 (R22, R26 to R28, R48). -/
def Engine.LevelsInRange (cfg : Config) (e : Engine) : Prop :=
  Level.Fits cfg e.sustainLevel ∧ Level.Fits cfg e.attackStartLevel ∧
  Level.Fits cfg e.releaseStartLevel ∧ Level.Fits cfg e.lastOutputLevel

/-- The invariant of the levels (R48) under a legal configuration (R5). -/
def State.LevelInv (s : State) : Prop :=
  s.cfg.Legal ∧ ∀ c : Channel, (s.engine c).LevelsInRange s.cfg

/-- Every stored timestamp is at most `now` (R48). -/
def State.StampInv (s : State) : Prop :=
  (∀ c : Channel, (s.engine c).tNoteOn.toNat ≤ s.now.toNat ∧ (s.engine c).tNoteOff.toNat ≤ s.now.toNat) ∧
  ∀ i : Channel, (bankGet s.gates i).lastChangeTime.toNat ≤ s.now.toNat ∧
    (bankGet s.buttons i).lastChangeTime.toNat ≤ s.now.toNat

/-- The next step does not carry `now` past 2^64 - 1, the premise R36 and R258 ask a model to carry. -/
def State.NoWrap (s : State) : Prop :=
  ∀ n t, fetch s = .run (.tick n) t → s.now.toNat + n.toNat < 2 ^ 64

/-- What only POLL writes is as it was: the cells, `chan_sel`, `manual_trigger_active` (R226). -/
def SamplerPartKept (s t : State) : Prop :=
  t.gates = s.gates ∧ t.buttons = s.buttons ∧ t.chanSel = s.chanSel ∧
  t.manualTriggerActive = s.manualTriggerActive

/-- The configuration and what belongs to the environment are as they were. -/
def OutsideKept (s t : State) : Prop :=
  t.cfg = s.cfg ∧ t.seqNext = s.seqNext ∧ t.inputs = s.inputs

/-- Every engine bank but that of `c` is as it was (R230). -/
def OtherBanksKept (c : Channel) (s t : State) : Prop := ∀ d : Channel, d ≠ c → t.engine d = s.engine d

/-- The fields only SET_* write are as they were (R226). -/
def Engine.ParamsKept (e e' : Engine) : Prop :=
  e'.attackUs = e.attackUs ∧ e'.decayUs = e.decayUs ∧ e'.releaseUs = e.releaseUs ∧
  e'.sustainLevel = e.sustainLevel ∧ e'.resetAttackOnTrigger = e.resetAttackOnTrigger

/-- The fields only NOTE_ON, NOTE_OFF and POLL write are as they were (R226). -/
def Engine.NotePartKept (e e' : Engine) : Prop :=
  e'.notesHeld = e.notesHeld ∧ e'.tNoteOn = e.tNoteOn ∧ e'.tNoteOff = e.tNoteOff ∧
  e'.attackStartLevel = e.attackStartLevel ∧ e'.releaseStartLevel = e.releaseStartLevel

/-- Operations executed one after another, nothing in between (R68). -/
def execAll : List Instr → State → Host.Outcome State Fault Refusal
  | [], s => .next s
  | i :: rest, s =>
    match exec i s with
    | .next t => execAll rest t
    | .fault r => .fault r
    | .refused r => .refused r

/-- The word of `i` has this code in OPC, and only this source may present it (R83, R84, R85). -/
def Encodes (i : Instr) (code : BitVec 4) (src : Source) : Prop :=
  opcField (encode i) = code ∧
  ∀ from_ : Source, verdict from_ (encode i) = if from_ = src then .execute i else .illegalSource

/-- The bits of a word that its operation uses: OPC and Z always, CH and the operand bits as R81 and R82 say. -/
def usedBits (w : OpWord) : OpWord :=
  match opcodeOf (opcField w) with
  | none => 0xF300000000#40
  | some .nop | some .outAck => 0xF300000000#40
  | some .setAttack | some .setDecay | some .setSustain | some .setRelease => 0xFFFFFFFFFF#40
  | some .setPolicy => 0xFF00000001#40
  | some .noteOn | some .noteOff | some .eval => 0xFF00000000#40
  | some .read =>
    if (w &&& 0x1F#40).toNat < 0x10 then 0xFF0000001F#40
    else if (w &&& 0x1F#40).toNat = 0x14 ∨ (w &&& 0x1F#40).toNat = 0x15 then 0xF300FFFF1F#40
    else 0xF30000001F#40
  | some .clrFlags => 0xF300000007#40
  | some .poll => 0xF3000000FF#40
  | some .tick => 0xF3FFFFFFFF#40

/-- The eight cells after phase 1 of a POLL, all else as before (R152). -/
def sampled (gates buttons : BitVec 4) (s : State) : State :=
  { s with
    gates := bankOf (fun i => debounce s.cfg (bankGet s.gates i) (inputLevel gates i) s.now)
    buttons := bankOf (fun i => debounce s.cfg (bankGet s.buttons i) (inputLevel buttons i) s.now) }

/-- Gate `i` has an accepted transition in this POLL and no other input has (R152). -/
def OnlyGateAccepted (gates buttons : BitVec 4) (s : State) (i : Channel) : Prop :=
  (∀ j, accepts s.cfg (bankGet s.gates j) (inputLevel gates j) s.now = true ↔ j = i) ∧
  ∀ j, accepts s.cfg (bankGet s.buttons j) (inputLevel buttons j) s.now = false

/-- Button `i` has an accepted transition in this POLL and no other input has (R152). -/
def OnlyButtonAccepted (gates buttons : BitVec 4) (s : State) (i : Channel) : Prop :=
  (∀ j, accepts s.cfg (bankGet s.gates j) (inputLevel gates j) s.now = false) ∧
  ∀ j, accepts s.cfg (bankGet s.buttons j) (inputLevel buttons j) s.now = true ↔ j = i

/-- How many buttons are in the `Pressed` state after phase 1, the k of R163. -/
def pressedAfter (gates buttons : BitVec 4) (s : State) : Nat :=
  (Finset.univ.filter (fun j : Channel =>
    (bankGet (sampled gates buttons s).buttons j).stableLevel = true)).card

/-- A cell that samples the same level at each of these times (R151, R153). -/
def sampleRun (cfg : Config) (x : Bool) (cell : DebounceCell) (times : List Time) : DebounceCell :=
  times.foldl (fun acc t => debounce cfg acc x t) cell

/-- The source's trigger counter, an unbounded integer: `note_on()` (true) increments it; `note_off()` (false)
decrements it and, if it reaches 0 or less, clamps it to 0 (R24, R112, R221). -/
def sourceCount (n : Int) (isOn : Bool) : Int :=
  if isOn then n + 1 else if n - 1 ≤ 0 then 0 else n - 1

/-- The note actions of the button of channel `c` in a POLL: none unless the channel is selected, and a release
only of a note that the button started (R161, R162, R166). -/
def buttonNotes (c : Channel) (pressed : Bool) (s : State) : List Bool :=
  if s.chanSel = c then
    if pressed then [true] else if bankGet s.manualTriggerActive c then [false] else []
  else []

/-- The state of a POLL when it comes to the button of channel `c`: after the gates and the buttons before it
(R158). -/
def beforeButton (gates buttons : BitVec 4) (c : Channel) (s : State) : State :=
  (channels.filter (fun i => decide (i < c))).foldl
    (fun st i => if accepts s.cfg (bankGet s.buttons i) (inputLevel buttons i) s.now
      then buttonAction i (inputLevel buttons i) s.now st else st)
    (pollGates gates s (pollSample gates buttons s))

/-- The note actions one operation performs on channel `c`, in their order: true for `note_on()`, false for
`note_off()` (R110, R112, R159, R160 to R162). -/
def noteActions (c : Channel) (s : State) : Instr → List Bool
  | .noteOn d => if d = c then [true] else []
  | .noteOff d => if d = c then [false] else []
  | .poll gates buttons =>
    (if accepts s.cfg (bankGet s.gates c) (inputLevel gates c) s.now then [inputLevel gates c] else []) ++
    (if accepts s.cfg (bankGet s.buttons c) (inputLevel buttons c) s.now
      then buttonNotes c (inputLevel buttons c) (beforeButton gates buttons c s) else [])
  | .nop | .setAttack _ _ | .setDecay _ _ | .setSustain _ _ | .setRelease _ _ | .setPolicy _ _
  | .read _ _ _ | .clrFlags _ | .eval _ | .tick _ | .outAck => []

/-- The note actions on channel `c` of operations executed one after another. -/
def noteActionsOf (c : Channel) : List Instr → State → List Bool
  | [], _ => []
  | i :: rest, s =>
    noteActions c s i ++
      match exec i s with
      | .next t => noteActionsOf c rest t
      | .fault _ => []
      | .refused _ => []

/-- An operation on one channel's engine bank (R81, R230). -/
def OnChannel (c : Channel) (i : Instr) : Prop :=
  (∃ us, i = .setAttack c us ∨ i = .setDecay c us ∨ i = .setSustain c us ∨ i = .setRelease c us) ∨
  (∃ p, i = .setPolicy c p) ∨ i = .noteOn c ∨ i = .noteOff c ∨ i = .eval c

/-- A parameter setter of channel `c` (R226). -/
def IsSetterOf (c : Channel) (i : Instr) : Prop :=
  (∃ us, i = .setAttack c us ∨ i = .setDecay c us ∨ i = .setSustain c us ∨ i = .setRelease c us) ∨
  ∃ p, i = .setPolicy c p

end Sys2Proof.Machine
end

