-- ==== Sys2Proof/Certificates/Slice0/Obligations.lean ====
section
/-! DEFINITION. The statements about the ADSR-2025 envelope block, for the provers. Each docstring names the
rule of spec/ it formalises. -/

open Sys2Proof Sys2Proof.Machine

/-! ## Encoding (30_encoding.md) -/

/-- Decoding an encoded operation gives it back, for every operation and every operand (R80, R82, R84, R90).
That READ drops fields its register ignores is DEDUCED (log 9). -/
def Obligations.DecodeInvertsEncode : Prop :=
  ∀ i : Instr, i.wellFormed = true → decode (encode i) = .ok i

/-- Whatever a word decodes to is in canonical form, encodes back to a word of the same OPC and Z, and that
word decodes to the same operation (R80, R84, R86; log 9). -/
def Obligations.DecodedOperationsAreCanonical : Prop :=
  ∀ (w : OpWord) (i : Instr), decode w = .ok i →
    i.wellFormed = true ∧ decode (encode i) = .ok i ∧
    encode i &&& 0xF300000000#40 = w &&& 0xF300000000#40

/-- R86: words that differ only in ignored bits are the same operation, from every source. -/
def Obligations.IgnoredBitsHaveNoEffect : Prop :=
  ∀ w v : OpWord, v &&& usedBits w = w &&& usedBits w →
    decode v = decode w ∧ ∀ src : Source, verdict src v = verdict src w

/-- R87: the reserved encodings are exactly Z ≠ 0 and OPC 0xE, 0xF; READ of a reserved register executes, from
the host, as a READ of a reserved number. -/
def Obligations.ReservedEncodingsExactly : Prop :=
  (∀ w : OpWord, (∃ e, decode w = .error e) ↔
    zField w ≠ 0#2 ∨ opcField w = 0xE#4 ∨ opcField w = 0xF#4) ∧
  (∀ w : OpWord, zField w = 0#2 → opcField w = 0x8#4 → 0x16 ≤ (w.extractLsb' 0 5).toNat →
    ∃ c k index, verdict .host w = .execute (.read c (.reserved k) index))

/-- R85: the decision procedure on a word and its source; it has exactly one of three verdicts. -/
def Obligations.VerdictOfEveryWord : Prop :=
  ∀ (src : Source) (w : OpWord),
    (w.extractLsb' 32 2 ≠ 0#2 → verdict src w = .reserved) ∧
    (w.extractLsb' 32 2 = 0#2 → 0xD < (w.extractLsb' 36 4).toNat → verdict src w = .reserved) ∧
    (∀ op : Opcode, w.extractLsb' 32 2 = 0#2 → opcodeOf (w.extractLsb' 36 4) = some op →
      verdict src w = if src = op.legalSource then
        .execute (op.assemble (w.extractLsb' 34 2).toFin (w.extractLsb' 0 32)) else .illegalSource) ∧
    ((w.extractLsb' 36 4).toNat ≤ 0xD → ∃ op, opcodeOf (w.extractLsb' 36 4) = some op)

/-- R84: a word decodes to an operation of a row exactly when its OPC and Z bits, under the mask
0xF300000000, equal that row's match value. -/
def Obligations.OpcodeMapByMatchAndMask : Prop :=
  ∀ (w : OpWord) (op : Opcode),
    (∃ i, decode w = .ok i ∧ i.opcode = op) ↔
      ∃ row ∈ opcodeTable, row.opcode = op ∧ w &&& 0xF300000000#40 = row.matchValue

/-- R94: the worked encodings, each both ways, and the two reserved words. -/
def Obligations.WorkedEncodings : Prop :=
  (∀ row ∈ [
      (Instr.nop, 0x0000000000#40), (.setAttack 2 100000#32, 0x18000186A0#40),
      (.setDecay 0 100000#32, 0x20000186A0#40), (.setSustain 3 2500#32, 0x3C000009C4#40),
      (.setRelease 1 1000000#32, 0x44000F4240#40), (.setPolicy 1 true, 0x5400000001#40),
      (.noteOn 0, 0x6000000000#40), (.noteOff 3, 0x7C00000000#40),
      (.read 2 .lastOutputLevel 0#16, 0x880000000A#40), (.read 0 .lutAtt 128#16, 0x8000008014#40),
      (.clrFlags 0b101#3, 0x9000000005#40), (.eval 1, 0xA400000000#40),
      (.poll 0b0001#4 0b0100#4, 0xB000000041#40), (.tick 5000#32, 0xC000001388#40),
      (.outAck, 0xD000000000#40)],
    encode row.1 = row.2 ∧ decode row.2 = .ok row.1) ∧
  decode 0x0100000000#40 = .error (.reservedZ 1#2) ∧
  decode 0xE000000000#40 = .error (.reservedOpcode 0xE#4)

/-! ## Steps, pins and reset -/

/-- A step executes the decoded operation: the word of its legal source, presented next, runs as `exec` on the
state that no longer lists it (R66, R85; the list of inputs is the model's, log 1). -/
def Obligations.StepExecutesTheDecodedOperation : Prop :=
  ∀ (s : State) (src : Source) (w : OpWord) (rest : List Input) (i : Instr),
    s.inputs = .word src w :: rest → decode w = .ok i → i.legalSource = src →
    step s = exec i { s with inputs := rest }

/-- R88: a RESERVED or ILLEGAL_SOURCE word changes nothing but `cmd_err`, emits nothing and is consumed. -/
def Obligations.DiscardedWordOnlySetsCmdErr : Prop :=
  ∀ (s : State) (src : Source) (w : OpWord) (rest : List Input),
    s.inputs = .word src w :: rest → verdict src w = .reserved ∨ verdict src w = .illegalSource →
    step s = .next { s with inputs := rest, cmdErr := true }

/-- R227: the command port cannot carry another agent's opcode, and the pins of the other agents never present
a wrong word. -/
def Obligations.OtherAgentsOpcodesAreDiscardedFromHost : Prop :=
  (∀ (s : State) (w : OpWord) (rest : List Input), s.inputs = .word .host w :: rest →
    (opcField w = 0xA#4 ∨ opcField w = 0xB#4 ∨ opcField w = 0xC#4 ∨ opcField w = 0xD#4) →
    step s = .next { s with inputs := rest, cmdErr := true }) ∧
  (∀ (pos : Option Channel) (x : Input) (src : Source) (w : OpWord),
    presented pos x = some (src, w) → (∀ src' w', x ≠ .word src' w') →
    ∃ i, verdict src w = .execute i)

/-- R11: every presented word executes by its rule or is discarded with `cmd_err`, and no step ever faults,
is refused or is stuck. -/
def Obligations.EveryStepHasItsOutcome : Prop :=
  (∀ (s : State) (src : Source) (w : OpWord) (rest : List Input), s.inputs = .word src w :: rest →
    (∃ i, verdict src w = .execute i ∧ step s = exec i { s with inputs := rest }) ∨
    ((∀ i, verdict src w ≠ .execute i) ∧ step s = .next { s with inputs := rest, cmdErr := true })) ∧
  (∀ s : State, ∃ t, step s = .next t) ∧
  (∀ (i : Instr) (s : State), ∃ t, exec i s = .next t)

/-- R92, R93: the strobe pins issue their operations; `sample_strobe` starts a pass unless one is in progress,
and a turn of the sequencer issues the next EVAL (the turn as an input is the model's, log 4). -/
def Obligations.PinsDriveTheirAgents : Prop :=
  ∀ (s : State) (rest : List Input),
    (s.inputs = .usTick :: rest → step s = exec (.tick 1#32) { s with inputs := rest }) ∧
    (∀ g b, s.inputs = .pollStrobe g b :: rest → step s = exec (.poll g b) { s with inputs := rest }) ∧
    (s.inputs = .outAck :: rest → step s = exec .outAck { s with inputs := rest }) ∧
    (s.inputs = .sampleStrobe :: rest → s.seqNext = none →
      step s = .next { s with inputs := rest, seqNext := some 0 }) ∧
    (∀ c, s.inputs = .sampleStrobe :: rest → s.seqNext = some c →
      step s = .next { s with inputs := rest }) ∧
    (∀ c, s.inputs = .seqTurn :: rest → s.seqNext = some c →
      step s = exec (.eval c) { s with inputs := rest, seqNext := seqAfter c }) ∧
    (s.inputs = .seqTurn :: rest → s.seqNext = none → step s = .next { s with inputs := rest }) ∧
    seqAfter 0 = some 1 ∧ seqAfter 1 = some 2 ∧ seqAfter 2 = some 3 ∧ seqAfter 3 = none

/-- R129: a pass evaluates channels 0, 1, 2, 3, each at its own `now`, emits the four levels in order, changes
nothing else of any engine and leaves `out_refresh` set (the inputs that drive it are the model's, log 4). -/
def Obligations.PassEvaluatesAllFourChannels : Prop :=
  ∀ (s : State) (n1 n2 n3 : Micros) (rest : List Input), s.seqNext = none →
    s.inputs = .sampleStrobe :: .seqTurn :: .word .timebase (encode (.tick n1)) :: .seqTurn ::
      .word .timebase (encode (.tick n2)) :: .seqTurn :: .word .timebase (encode (.tick n3)) ::
      .seqTurn :: rest →
    let t1 := s.now + n1.setWidth 64
    let t2 := t1 + n2.setWidth 64
    let t3 := t2 + n3.setWidth 64
    let l0 := level s.cfg (s.engine 0) s.now
    let l1 := level s.cfg (s.engine 1) t1
    let l2 := level s.cfg (s.engine 2) t2
    let l3 := level s.cfg (s.engine 3) t3
    ∃ t, Host.Core.run Sys2Proof.core 8 s = .next t ∧
      t.engine 0 = { s.engine 0 with lastOutputLevel := l0 } ∧
      t.engine 1 = { s.engine 1 with lastOutputLevel := l1 } ∧
      t.engine 2 = { s.engine 2 with lastOutputLevel := l2 } ∧
      t.engine 3 = { s.engine 3 with lastOutputLevel := l3 } ∧
      t.trace = s.trace ++ [.out 0 l0, .out 1 l1, .out 2 l2, .out 3 l3] ∧
      t.outRefresh = true ∧ t.displayDirty = s.displayDirty ∧ t.cmdErr = s.cmdErr ∧
      t.now = t3 ∧ t.seqNext = none ∧ t.inputs = rest ∧ t.cfg = s.cfg ∧ SamplerPartKept s t

/-- R240, 93_implementation_defined.md section 4: `rst` returns every register to its reset value and abandons
a pass; that the inputs to come and the trace stay is the model's choice (log 5). -/
def Obligations.ResetPinRestoresTheResetState : Prop :=
  ∀ (s : State) (rest : List Input), s.inputs = .rst :: rest →
    step s = .next { State.resetOf s.cfg with inputs := rest, trace := s.trace }

/-- R206: with nothing presented the state stays as it is (that this is a step is the model's choice, log 2). -/
def Obligations.NothingPresentedNothingChanges : Prop :=
  ∀ s : State, s.inputs = [] → step s = .next s

/-- R49, R241: the reset value of every register, for every configuration, and at the default one; a level
register has W_L bits (R22, R26 to R28). -/
def Obligations.ResetValues : Prop :=
  (∀ (cfg : Config) (c : Channel),
    let s := State.resetOf cfg
    (s.engine c).attackUs = cfg.resetAttackUs ∧ (s.engine c).decayUs = cfg.resetDecayUs ∧
    (s.engine c).releaseUs = cfg.resetReleaseUs ∧
    (s.engine c).sustainLevel.toNat = min cfg.resetSustain cfg.top ∧
    (s.engine c).sustainLevel.width = cfg.levelWidth ∧
    (s.engine c).resetAttackOnTrigger = cfg.resetPolicy ∧ (s.engine c).notesHeld = 0#8 ∧
    (s.engine c).tNoteOn = 0#64 ∧ (s.engine c).tNoteOff = 0#64 ∧
    (s.engine c).attackStartLevel = ⟨cfg.levelWidth, 0⟩ ∧
    (s.engine c).releaseStartLevel = ⟨cfg.levelWidth, 0⟩ ∧
    (s.engine c).lastOutputLevel = ⟨cfg.levelWidth, 0⟩ ∧ s.now = 0#64 ∧
    bankGet s.gates c = ⟨false, false, 0#64⟩ ∧ bankGet s.buttons c = ⟨false, false, 0#64⟩ ∧
    s.chanSel = 0 ∧ bankGet s.manualTriggerActive c = false ∧
    s.displayDirty = true ∧ s.outRefresh = false ∧ s.cmdErr = false) ∧
  State.reset = State.resetOf Config.default ∧
  Config.default.resetAttackUs = 100000#32 ∧ Config.default.resetDecayUs = 100000#32 ∧
  Config.default.resetReleaseUs = 1000000#32 ∧ Config.default.resetSustain = 2500 ∧
  Config.default.resetPolicy = false

/-! ## The curve tables (40_curve_table.md) -/

/-- R103: the closed forms of the recurrence and of its normalisation, and the mirror when α = β. -/
def Obligations.CurveClosedForms : Prop :=
  ∀ cfg : Config, cfg.Legal →
    (∀ i, attSeed cfg i = (cfg.top : ℚ) * (1 - coeffRat cfg.alpha ^ i)) ∧
    (∀ i, drSeed cfg i = (cfg.top : ℚ) * coeffRat cfg.beta ^ i) ∧
    (∀ i, attNormal cfg i =
      (cfg.top : ℚ) * (1 - coeffRat cfg.alpha ^ i) / (1 - coeffRat cfg.alpha ^ cfg.last)) ∧
    (∀ i, drNormal cfg i = (cfg.top : ℚ) * (coeffRat cfg.beta ^ i - coeffRat cfg.beta ^ cfg.last) /
      (1 - coeffRat cfg.beta ^ cfg.last)) ∧
    (coeffRat cfg.alpha = coeffRat cfg.beta → ∀ i, drNormal cfg i = (cfg.top : ℚ) - attNormal cfg i)

/-- R102: the recurrence, its normalisation, and that the ROM entries are its values rounded half up. -/
def Obligations.RomHoldsTheQuantisedCurve : Prop :=
  ∀ cfg : Config, cfg.Legal →
    attSeed cfg 0 = 0 ∧ drSeed cfg 0 = (cfg.r : ℚ) - 1 ∧
    (∀ i, attSeed cfg (i + 1) =
      (1 - coeffRat cfg.alpha) * ((cfg.r : ℚ) - 1) + coeffRat cfg.alpha * attSeed cfg i) ∧
    (∀ i, drSeed cfg (i + 1) = coeffRat cfg.beta * drSeed cfg i) ∧
    attSeed cfg 0 < attSeed cfg (cfg.n - 1) ∧ drSeed cfg (cfg.n - 1) < drSeed cfg 0 ∧
    (∀ i, i < cfg.n → (tableEntry cfg .att i : ℤ) =
      ⌊(attSeed cfg i - attSeed cfg 0) * ((cfg.r : ℚ) - 1) /
        (attSeed cfg (cfg.n - 1) - attSeed cfg 0) + 1 / 2⌋) ∧
    (∀ i, i < cfg.n → (tableEntry cfg .dr i : ℤ) =
      ⌊(drSeed cfg i - drSeed cfg (cfg.n - 1)) * ((cfg.r : ℚ) - 1) /
        (drSeed cfg 0 - drSeed cfg (cfg.n - 1)) + 1 / 2⌋)

/-- R104: end points, monotony and range of both tables, for every legal configuration. -/
def Obligations.TableInvariants : Prop :=
  ∀ cfg : Config, cfg.Legal →
    tableEntry cfg .att 0 = 0 ∧ tableEntry cfg .att (cfg.n - 1) = cfg.r - 1 ∧
    tableEntry cfg .dr 0 = cfg.r - 1 ∧ tableEntry cfg .dr (cfg.n - 1) = 0 ∧
    (∀ i, i + 1 < cfg.n → tableEntry cfg .att i ≤ tableEntry cfg .att (i + 1)) ∧
    (∀ i, i + 1 < cfg.n → tableEntry cfg .dr (i + 1) ≤ tableEntry cfg .dr i) ∧
    (∀ table i, i < cfg.n → tableEntry cfg table i ≤ cfg.r - 1) ∧
    (∀ i j, i < j → j < cfg.n → attNormal cfg i < attNormal cfg j ∧ drNormal cfg j < drNormal cfg i)

/-- R105: the ROM at the default parameters, entry by entry for ATT, its mirror DR, strictness and the two
checksums. -/
def Obligations.DefaultRomContents : Prop :=
  (List.range 256).map (tableEntry Config.default .att) =
    [0, 65, 129, 192, 255, 316, 376, 435, 494, 551, 608, 663, 718, 772, 825, 877] ++
    [929, 979, 1029, 1078, 1127, 1174, 1221, 1267, 1313, 1357, 1401, 1444, 1487, 1529, 1570, 1611] ++
    [1651, 1690, 1729, 1767, 1805, 1842, 1878, 1914, 1949, 1984, 2018, 2052, 2085, 2117, 2149, 2181] ++
    [2212, 2243, 2273, 2302, 2332, 2360, 2389, 2416, 2444, 2471, 2497, 2523, 2549, 2574, 2599, 2624] ++
    [2648, 2672, 2695, 2718, 2741, 2763, 2785, 2807, 2828, 2849, 2870, 2890, 2910, 2930, 2949, 2968] ++
    [2987, 3006, 3024, 3042, 3059, 3077, 3094, 3111, 3127, 3143, 3160, 3175, 3191, 3206, 3221, 3236] ++
    [3251, 3265, 3279, 3293, 3307, 3320, 3334, 3347, 3359, 3372, 3385, 3397, 3409, 3421, 3433, 3444] ++
    [3455, 3467, 3478, 3488, 3499, 3510, 3520, 3530, 3540, 3550, 3560, 3569, 3579, 3588, 3597, 3606] ++
    [3615, 3623, 3632, 3640, 3649, 3657, 3665, 3673, 3680, 3688, 3696, 3703, 3710, 3717, 3725, 3732] ++
    [3738, 3745, 3752, 3758, 3765, 3771, 3777, 3783, 3789, 3795, 3801, 3807, 3813, 3818, 3824, 3829] ++
    [3835, 3840, 3845, 3850, 3855, 3860, 3865, 3870, 3874, 3879, 3883, 3888, 3892, 3897, 3901, 3905] ++
    [3909, 3913, 3917, 3921, 3925, 3929, 3933, 3937, 3940, 3944, 3947, 3951, 3954, 3958, 3961, 3964] ++
    [3967, 3971, 3974, 3977, 3980, 3983, 3986, 3989, 3991, 3994, 3997, 4000, 4002, 4005, 4008, 4010] ++
    [4013, 4015, 4017, 4020, 4022, 4025, 4027, 4029, 4031, 4033, 4036, 4038, 4040, 4042, 4044, 4046] ++
    [4048, 4050, 4051, 4053, 4055, 4057, 4059, 4060, 4062, 4064, 4066, 4067, 4069, 4070, 4072, 4073] ++
    [4075, 4076, 4078, 4079, 4081, 4082, 4084, 4085, 4086, 4088, 4089, 4090, 4091, 4093, 4094, 4095] ∧
  (∀ i < 256, tableEntry Config.default .dr i = 4095 - tableEntry Config.default .att i) ∧
  (∀ i < 255, tableEntry Config.default .att i < tableEntry Config.default .att (i + 1)) ∧
  (∀ i < 255, tableEntry Config.default .dr (i + 1) < tableEntry Config.default .dr i) ∧
  ((List.range 256).map (tableEntry Config.default .att)).sum = 805411 ∧
  ((List.range 256).map (tableEntry Config.default .dr)).sum = 242909

/-! ## LEVEL and EVAL (41_engine.md) -/

/-- R121: the clamp, the index range, the blend, and that the result lies between the two entries. -/
def Obligations.InterpolationByR121 : Prop :=
  ∀ (cfg : Config) (table : Table) (p d : Nat), cfg.Legal → 1 ≤ d →
    ((cfg.n - 1) * d ≤ p → interp cfg table p d = tableEntry cfg table (cfg.n - 1)) ∧
    (p < (cfg.n - 1) * d →
      p / d ≤ cfg.n - 2 ∧ p % d < d ∧
      interp cfg table p d =
        (tableEntry cfg table (p / d) * (d - p % d) + tableEntry cfg table (p / d + 1) * (p % d)) / d ∧
      min (tableEntry cfg table (p / d)) (tableEntry cfg table (p / d + 1)) ≤ interp cfg table p d ∧
      interp cfg table p d ≤ max (tableEntry cfg table (p / d)) (tableEntry cfg table (p / d + 1)) ∧
      (p % d = 0 → interp cfg table p d = tableEntry cfg table (p / d))) ∧
    interp cfg table p d ≤ cfg.r - 1

/-- R131: LEVEL in one piece, as transcribed there, over the naturals (R132), for the levels a register can
hold, [0, R-1] (R48). -/
def Obligations.LevelInOnePiece : Prop :=
  ∀ (cfg : Config) (e : Engine) (t : Time), cfg.Legal →
    e.sustainLevel.toNat ≤ cfg.r - 1 → e.attackStartLevel.toNat ≤ cfg.r - 1 →
    e.releaseStartLevel.toNat ≤ cfg.r - 1 →
    levelNat cfg e t =
      if e.tNoteOff.toNat < e.tNoteOn.toNat then
        let x := if e.tNoteOn.toNat ≤ t.toNat then t.toNat - e.tNoteOn.toNat else 0
        if x < e.attackUs.toNat ∨ e.attackUs.toNat = 0 then
          let v := interp cfg .att ((cfg.n - 1) * x) (max e.attackUs.toNat 1)
          e.attackStartLevel.toNat + (v * (cfg.r - 1 - e.attackStartLevel.toNat)) / (cfg.r - 1)
        else if x < e.attackUs.toNat + e.decayUs.toNat then
          let v := interp cfg .dr ((cfg.n - 1) * (x - e.attackUs.toNat)) (max e.decayUs.toNat 1)
          e.sustainLevel.toNat + (v * (cfg.r - 1 - e.sustainLevel.toNat)) / (cfg.r - 1)
        else e.sustainLevel.toNat
      else
        let x := if e.tNoteOff.toNat ≤ t.toNat then t.toNat - e.tNoteOff.toNat else 0
        if x < e.releaseUs.toNat ∨ e.releaseUs.toNat = 0 then
          let v := interp cfg .dr ((cfg.n - 1) * x) (max e.releaseUs.toNat 1)
          (v * e.releaseStartLevel.toNat) / (cfg.r - 1)
        else 0

/-- R127 (a): LEVEL is in [0, R-1] whenever the three level fields it reads are, and then the W_L-bit level
register holds exactly LEVEL. -/
def Obligations.LevelStaysInRange : Prop :=
  ∀ (cfg : Config) (e : Engine) (t : Time), cfg.Legal →
    e.sustainLevel.toNat ≤ cfg.r - 1 → e.attackStartLevel.toNat ≤ cfg.r - 1 →
    e.releaseStartLevel.toNat ≤ cfg.r - 1 →
    levelNat cfg e t ≤ cfg.r - 1 ∧ (level cfg e t).toNat = levelNat cfg e t ∧
    (level cfg e t).width = cfg.levelWidth

/-- R127 (c) and (g): at its own stamp an envelope starts from the captured level, for every duration, 0
included. -/
def Obligations.PhasesStartAtTheCapturedLevel : Prop :=
  ∀ (cfg : Config) (e : Engine), cfg.Legal →
    (e.pressed = true → e.attackStartLevel.toNat ≤ cfg.r - 1 →
      levelNat cfg e e.tNoteOn = e.attackStartLevel.toNat) ∧
    (e.pressed = false → e.releaseStartLevel.toNat ≤ cfg.r - 1 →
      levelNat cfg e e.tNoteOff = e.releaseStartLevel.toNat)

/-- R127 (d), (f) and the end of (g): the value at the end of the attack, in sustain, and after the release. -/
def Obligations.PhaseEndValues : Prop :=
  ∀ (cfg : Config) (e : Engine) (t : Time), cfg.Legal → e.sustainLevel.toNat ≤ cfg.r - 1 →
    (e.pressed = true → e.attackUs ≠ 0#32 → t.toNat = e.tNoteOn.toNat + e.attackUs.toNat →
      (e.decayUs ≠ 0#32 → levelNat cfg e t = cfg.r - 1) ∧
      (e.decayUs = 0#32 → levelNat cfg e t = e.sustainLevel.toNat)) ∧
    (e.pressed = true → e.attackUs ≠ 0#32 →
      e.tNoteOn.toNat + e.attackUs.toNat + e.decayUs.toNat ≤ t.toNat →
      levelNat cfg e t = e.sustainLevel.toNat) ∧
    (e.pressed = false → e.tNoteOff.toNat + e.releaseUs.toNat ≤ t.toNat → 0 < t.toNat - e.tNoteOff.toNat →
      levelNat cfg e t = 0)

/-- R127 (e): LEVEL does not fall during ATTACK and does not rise during DECAY and during RELEASE. -/
def Obligations.LevelIsMonotoneInEachPhase : Prop :=
  ∀ (cfg : Config) (e : Engine) (t u : Time), cfg.Legal →
    e.sustainLevel.toNat ≤ cfg.r - 1 → e.attackStartLevel.toNat ≤ cfg.r - 1 →
    e.releaseStartLevel.toNat ≤ cfg.r - 1 →
    t.toNat ≤ u.toNat → subPhase e t = subPhase e u →
    (subPhase e t = .attack → levelNat cfg e t ≤ levelNat cfg e u) ∧
    (subPhase e t = .decay → levelNat cfg e u ≤ levelNat cfg e t) ∧
    (subPhase e t = .release → levelNat cfg e u ≤ levelNat cfg e t)

/-- R126: a zero duration snaps to the end value of its sub-phase. -/
def Obligations.ZeroDurationsSnapToTheEndValue : Prop :=
  ∀ (cfg : Config) (e : Engine) (t : Time), cfg.Legal →
    e.attackStartLevel.toNat ≤ cfg.r - 1 → e.releaseStartLevel.toNat ≤ cfg.r - 1 →
    (e.pressed = true → e.attackUs = 0#32 →
      subPhase e t = .attack ∧
      (t.toNat ≤ e.tNoteOn.toNat → levelNat cfg e t = e.attackStartLevel.toNat) ∧
      (e.tNoteOn.toNat < t.toNat → levelNat cfg e t = cfg.r - 1)) ∧
    (e.pressed = true → e.attackUs ≠ 0#32 → e.decayUs = 0#32 →
      e.tNoteOn.toNat + e.attackUs.toNat ≤ t.toNat → levelNat cfg e t = e.sustainLevel.toNat) ∧
    (e.pressed = false → e.releaseUs = 0#32 →
      subPhase e t = .release ∧
      (t.toNat ≤ e.tNoteOff.toNat → levelNat cfg e t = e.releaseStartLevel.toNat) ∧
      (e.tNoteOff.toNat < t.toNat → levelNat cfg e t = 0))

/-- R116, R127 (b), R128 (b): LEVEL does not read `notes_held`, the policy or `last_output_level`, nor the
start level of the macro-phase that is not active. -/
def Obligations.LevelReadsOnlyItsFields : Prop :=
  ∀ (cfg : Config) (e e' : Engine) (t : Time),
    e'.tNoteOn = e.tNoteOn → e'.tNoteOff = e.tNoteOff → e'.attackUs = e.attackUs →
    e'.decayUs = e.decayUs → e'.releaseUs = e.releaseUs → e'.sustainLevel = e.sustainLevel →
    (e.pressed = true → e'.attackStartLevel = e.attackStartLevel) →
    (e.pressed = false → e'.releaseStartLevel = e.releaseStartLevel) →
    level cfg e' t = level cfg e t

/-- R128: EVAL stores and emits LEVEL, marks the end of a pass, and changes nothing else; evaluating twice
stores the same; a channel never triggered gives 0; the worked example. -/
def Obligations.EvalStoresAndEmitsTheLevel : Prop :=
  (∀ (c : Channel) (s : State),
    let l := level s.cfg (s.engine c) s.now
    exec (.eval c) s = .next { s with
      engines := bankSet s.engines c { s.engine c with lastOutputLevel := l }
      trace := s.trace ++ [.out c l]
      outRefresh := if c = 3 then true else s.outRefresh } ∧
    (∃ t, execAll [.eval c, .eval c] s = .next t ∧ (t.engine c).lastOutputLevel = l ∧
      t.trace = s.trace ++ [.out c l, .out c l]) ∧
    (∀ u, level s.cfg { s.engine c with lastOutputLevel := l } u = level s.cfg (s.engine c) u)) ∧
  (∀ c : Channel, Encodes (.eval c) 0xA#4 .seq) ∧
  (∀ (cfg : Config) (t : Time), cfg.Legal → (level cfg (Engine.resetOf cfg) t).toNat = 0) ∧
  (∀ (s : State), s.cfg = Config.default → s.now = 51000#64 →
    s.engine 0 = { Engine.resetOf Config.default with tNoteOn := 1000#64 } →
    ∃ t, exec (.eval 0) s = .next t ∧ (t.engine 0).lastOutputLevel = ⟨12, 3610#12⟩ ∧
      t.trace = s.trace ++ [.out 0 ⟨12, 3610#12⟩])

/-! ## NOTE_ON and NOTE_OFF (41_engine.md) -/

/-- R110: NOTE_ON, its whole effect, the same state change inside POLL, the strict comparison of corner case
(d), and the example. -/
def Obligations.NoteOnRecordsTheTrigger : Prop :=
  (∀ (c : Channel) (s : State),
    let e := s.engine c
    let e' : Engine := { e with
      tNoteOn := s.now
      attackStartLevel := if e.resetAttackOnTrigger = true then ⟨e.attackStartLevel.width, 0⟩
        else e.lastOutputLevel
      notesHeld := if e.notesHeld = 255#8 then 255#8 else e.notesHeld + 1#8 }
    exec (.noteOn c) s =
      .next { s with engines := bankSet s.engines c e', displayDirty := true } ∧
    exec (.noteOn c) s = .next (gateAction c true s.now s) ∧
    (s.chanSel = c → exec (.noteOn c) s = .next
      { buttonAction c true s.now s with manualTriggerActive := s.manualTriggerActive }) ∧
    (s.now = e.tNoteOff → e'.pressed = false)) ∧
  (∀ c : Channel, Encodes (.noteOn c) 0x6#4 .host) ∧
  ∃ t, execAll [.tick 10#32, .noteOn 0] State.reset = .next t ∧ (t.engine 0).tNoteOn = 10#64 ∧
    (t.engine 0).attackStartLevel.toNat = 0 ∧ (t.engine 0).notesHeld = 1#8 ∧ (t.engine 0).pressed = true

/-- R112: NOTE_OFF, its two branches and their whole effect, the same state change inside POLL, the release of
corner case (b), and the example. -/
def Obligations.NoteOffReleasesTheLastTrigger : Prop :=
  (∀ (c : Channel) (s : State),
    let e := s.engine c
    (e.notesHeld.toNat ≤ 1 →
      exec (.noteOff c) s = .next { s with
        engines := bankSet s.engines c
          { e with notesHeld := 0#8, tNoteOff := s.now, releaseStartLevel := e.lastOutputLevel }
        displayDirty := true } ∧
      (e.tNoteOn.toNat ≤ s.now.toNat →
        ({ e with notesHeld := 0#8, tNoteOff := s.now,
                  releaseStartLevel := e.lastOutputLevel } : Engine).pressed = false)) ∧
    (1 < e.notesHeld.toNat →
      exec (.noteOff c) s = .next { s with
        engines := bankSet s.engines c { e with notesHeld := e.notesHeld - 1#8 }
        displayDirty := true }) ∧
    exec (.noteOff c) s = .next (gateAction c false s.now s) ∧
    (s.chanSel = c → bankGet s.manualTriggerActive c = true → exec (.noteOff c) s = .next
      { buttonAction c false s.now s with manualTriggerActive := s.manualTriggerActive })) ∧
  (∀ c : Channel, Encodes (.noteOff c) 0x7#4 .host) ∧
  (∀ (c : Channel) (s : State), (s.engine c).notesHeld = 2#8 → (s.engine c).pressed = true →
    s.now = 500#64 → (s.engine c).lastOutputLevel.toNat = 2500 →
    (∃ t, exec (.noteOff c) s = .next t ∧ (t.engine c).notesHeld = 1#8 ∧ (t.engine c).pressed = true) ∧
    ∃ t, execAll [.noteOff c, .noteOff c] s = .next t ∧ (t.engine c).notesHeld = 0#8 ∧
      (t.engine c).tNoteOff = 500#64 ∧ (t.engine c).releaseStartLevel.toNat = 2500)

/-- R113: trigger stacking. Two NOTE_ON and one NOTE_OFF leave the channel pressed with one note held, the
second NOTE_OFF releases it, provided the second NOTE_ON came after the channel's `t_note_off`. -/
def Obligations.TriggerStacking : Prop :=
  ∀ (c : Channel) (s : State) (a b d e : Micros),
    (s.engine c).notesHeld = 0#8 →
    s.now.toNat + a.toNat + b.toNat + d.toNat + e.toNat < 2 ^ 64 →
    (s.engine c).tNoteOff.toNat < s.now.toNat + a.toNat + b.toNat →
    ∃ t u, execAll [.tick a, .noteOn c, .tick b, .noteOn c, .tick d, .noteOff c] s = .next t ∧
      (t.engine c).notesHeld = 1#8 ∧ (t.engine c).pressed = true ∧
      execAll [.tick e, .noteOff c] t = .next u ∧
      (u.engine c).notesHeld = 0#8 ∧ (u.engine c).pressed = false

/-- R24, R257: the count saturates at 255 going up, however many NOTE_ON come, and clamps at 0 going down. R221:
over any operations, POLL among them, the register agrees with the source's integer counter, which is never
below 0, as long as that counter stays at or below 255. -/
def Obligations.NotesHeldSaturates : Prop :=
  (∀ (c : Channel) (s : State) (k j : Nat), (s.engine c).notesHeld = 0#8 →
    ∃ t u, execAll (List.replicate k (.noteOn c)) s = .next t ∧
      (t.engine c).notesHeld.toNat = min k 255 ∧
      execAll (List.replicate j (.noteOff c)) t = .next u ∧
      (u.engine c).notesHeld.toNat = min k 255 - j) ∧
  ∀ (c : Channel) (s : State) (ops : List Instr),
    let start : Int := (s.engine c).notesHeld.toNat
    let actions := noteActionsOf c ops s
    (∀ k, 0 ≤ (actions.take k).foldl sourceCount start) ∧
    ∃ t, execAll ops s = .next t ∧
      ((∀ k, (actions.take k).foldl sourceCount start ≤ 255) →
        ((t.engine c).notesHeld.toNat : Int) = actions.foldl sourceCount start)

/-- R252 (b): NOTE_OFF and NOTE_ON in one microsecond leave one note held and the channel released, whatever
the channel did before. -/
def Obligations.TriggerInTheMicrosecondOfTheRelease : Prop :=
  ∀ (c : Channel) (s : State), (s.engine c).notesHeld.toNat ≤ 1 →
    ∃ t, execAll [.noteOff c, .noteOn c] s = .next t ∧ (t.engine c).notesHeld = 1#8 ∧
      (t.engine c).tNoteOn = s.now ∧ (t.engine c).tNoteOff = s.now ∧ (t.engine c).pressed = false

/-- R251: whatever operations run, a channel's `last_output_level` stays until its next EVAL, and that is the
level that a NOTE_OFF which releases, and a legato NOTE_ON, then capture. -/
def Obligations.CapturedLevelIsTheLastEvaluation : Prop :=
  ∀ (c : Channel) (s : State) (ops : List Instr), Instr.eval c ∉ ops →
    ∃ t, execAll ops s = .next t ∧ (t.engine c).lastOutputLevel = (s.engine c).lastOutputLevel ∧
      ((t.engine c).notesHeld.toNat ≤ 1 →
        ∃ u, exec (.noteOff c) t = .next u ∧
          (u.engine c).releaseStartLevel = (s.engine c).lastOutputLevel) ∧
      ((t.engine c).resetAttackOnTrigger = false →
        ∃ u, exec (.noteOn c) t = .next u ∧
          (u.engine c).attackStartLevel = (s.engine c).lastOutputLevel)

/-! ## The setters (42_setters.md) -/

/-- R140, R141, R143: the three duration setters store the operand verbatim, set `display_dirty` and change
nothing else. -/
def Obligations.DurationSettersStoreVerbatim : Prop :=
  ∀ (c : Channel) (us : Micros),
    (∀ s : State, exec (.setAttack c us) s = .next { s with
      engines := bankSet s.engines c { s.engine c with attackUs := us }, displayDirty := true }) ∧
    (∀ s : State, exec (.setDecay c us) s = .next { s with
      engines := bankSet s.engines c { s.engine c with decayUs := us }, displayDirty := true }) ∧
    (∀ s : State, exec (.setRelease c us) s = .next { s with
      engines := bankSet s.engines c { s.engine c with releaseUs := us }, displayDirty := true }) ∧
    Encodes (.setAttack c us) 0x1#4 .host ∧ Encodes (.setDecay c us) 0x2#4 .host ∧
    Encodes (.setRelease c us) 0x4#4 .host ∧
    encode (.setAttack 2 100000#32) = 0x18000186A0#40 ∧ encode (.setDecay 0 100000#32) = 0x20000186A0#40 ∧
    encode (.setRelease 1 1000000#32) = 0x44000F4240#40

/-- R142: SET_SUSTAIN stores min(level, R-1), sets `display_dirty` and changes nothing else; the examples. -/
def Obligations.SetSustainClamps : Prop :=
  (∀ (c : Channel) (operand : Micros) (s : State), s.cfg.Legal →
    ∃ l : Level, l.width = s.cfg.levelWidth ∧ l.toNat = min operand.toNat (s.cfg.r - 1) ∧
      exec (.setSustain c operand) s = .next { s with
        engines := bankSet s.engines c { s.engine c with sustainLevel := l }, displayDirty := true }) ∧
  (∀ (c : Channel) (operand : Micros), Encodes (.setSustain c operand) 0x3#4 .host) ∧
  encode (.setSustain 3 2500#32) = 0x3C000009C4#40 ∧
  (∀ s : State, s.cfg = Config.default →
    (∃ t, exec (.setSustain 3 2500#32) s = .next t ∧ (t.engine 3).sustainLevel = ⟨12, 2500#12⟩) ∧
    (∃ t, exec (.setSustain 3 4096#32) s = .next t ∧ (t.engine 3).sustainLevel = ⟨12, 4095#12⟩) ∧
    (∃ t, exec (.setSustain 3 0xFFFFFFFF#32) s = .next t ∧
      (t.engine 3).sustainLevel = ⟨12, 4095#12⟩))

/-- R144: SET_POLICY stores bit 0 of its operand, sets `display_dirty` and changes nothing else; LEVEL does not
read the policy; and until it is set again every later NOTE_ON of the channel starts from 0 or from the last
output as it says. -/
def Obligations.SetPolicyDecidesTheNextStart : Prop :=
  (∀ (c : Channel) (p : Bool) (s : State), exec (.setPolicy c p) s = .next { s with
    engines := bankSet s.engines c { s.engine c with resetAttackOnTrigger := p }, displayDirty := true }) ∧
  (∀ (c : Channel) (p : Bool), Encodes (.setPolicy c p) 0x5#4 .host) ∧
  (∀ (c : Channel) (operand : Micros), Opcode.setPolicy.assemble c operand =
    .setPolicy c (operand.getLsbD 0)) ∧
  encode (.setPolicy 1 true) = 0x5400000001#40 ∧
  (∀ (cfg : Config) (e : Engine) (p : Bool) (t : Time),
    level cfg { e with resetAttackOnTrigger := p } t = level cfg e t) ∧
  (∀ (c : Channel) (p : Bool) (s : State) (ops : List Instr), (∀ q, Instr.setPolicy c q ∉ ops) →
    ∃ t u, execAll (.setPolicy c p :: ops) s = .next t ∧ exec (.noteOn c) t = .next u ∧
      (p = true → (u.engine c).attackStartLevel.toNat = 0) ∧
      (p = false → (u.engine c).attackStartLevel = (t.engine c).lastOutputLevel))

/-! ## POLL (43_trigger.md) -/

/-- R153: DEBOUNCE, the new cell and whether a transition is accepted. -/
def Obligations.DebounceCellRule : Prop :=
  ∀ (cfg : Config) (cell : DebounceCell) (x : Bool) (t : Time),
    let lct := if x ≠ cell.rawLevel then t else cell.lastChangeTime
    (accepts cfg cell x t = true ↔
      x ≠ cell.stableLevel ∧ cfg.tDbUs.toNat ≤ (if lct.toNat ≤ t.toNat then t.toNat - lct.toNat else 0)) ∧
    (accepts cfg cell x t = true → debounce cfg cell x t = ⟨x, x, lct⟩) ∧
    (accepts cfg cell x t = false → debounce cfg cell x t = ⟨x, cell.stableLevel, lct⟩)

/-- R154 (a), (c): after the POLL that first sees the change, samples of the same level that come before the
interval is over are not accepted and leave the timer alone, and the first one at or after it is; with an
interval of 0 the first sight is accepted. -/
def Obligations.TransitionAcceptedAfterTheInterval : Prop :=
  ∀ (cfg : Config) (cell : DebounceCell) (x : Bool) (t0 t : Time) (times : List Time),
    cell.rawLevel ≠ x → cell.stableLevel ≠ x →
    (cfg.tDbUs = 0#32 → accepts cfg cell x t0 = true) ∧
    (cfg.tDbUs ≠ 0#32 → (∀ u ∈ times, u.toNat - t0.toNat < cfg.tDbUs.toNat) →
      accepts cfg cell x t0 = false ∧
      sampleRun cfg x cell (t0 :: times) = ⟨x, cell.stableLevel, t0⟩ ∧
      (t.toNat - t0.toNat < cfg.tDbUs.toNat →
        accepts cfg (sampleRun cfg x cell (t0 :: times)) x t = false) ∧
      (cfg.tDbUs.toNat ≤ t.toNat - t0.toNat →
        accepts cfg (sampleRun cfg x cell (t0 :: times)) x t = true ∧
        debounce cfg (sampleRun cfg x cell (t0 :: times)) x t = ⟨x, x, t0⟩))

/-- R82, R150, R152, R158, R226: bit i of a class is input i; every POLL completes; the eight cells are sampled independently with the one `now`, and
the actions touch no cell, no parameter, no `last_output_level`, neither `now` nor the other flags, and emit
only `ModeToggle` and `Resync`. -/
def Obligations.PollSamplesAllCellsAndKeepsTheRest : Prop :=
  (∀ (levels : BitVec 4) (i : Channel), inputLevel levels i = levels.getLsbD i.val) ∧
  ∀ (g b : BitVec 4) (s : State), ∃ t evs, exec (.poll g b) s = .next t ∧
    t.gates = (sampled g b s).gates ∧ t.buttons = (sampled g b s).buttons ∧
    t.now = s.now ∧ t.outRefresh = s.outRefresh ∧ t.cmdErr = s.cmdErr ∧
    (s.displayDirty = true → t.displayDirty = true) ∧ OutsideKept s t ∧
    (∀ c, (s.engine c).ParamsKept (t.engine c)) ∧
    (∀ c, (t.engine c).lastOutputLevel = (s.engine c).lastOutputLevel) ∧
    t.trace = s.trace ++ evs ∧ ∀ ev ∈ evs, ev = .modeToggle ∨ ∃ c, ev = .resync c

/-- R167: a POLL that accepts nothing changes only raw levels and timers. -/
def Obligations.QuietPollOnlyMovesRawLevelsAndTimers : Prop :=
  ∀ (g b : BitVec 4) (s : State),
    (∀ i, accepts s.cfg (bankGet s.gates i) (inputLevel g i) s.now = false) →
    (∀ i, accepts s.cfg (bankGet s.buttons i) (inputLevel b i) s.now = false) →
    exec (.poll g b) s = .next { s with
      gates := bankOf (fun i =>
        { bankGet s.gates i with
          rawLevel := inputLevel g i
          lastChangeTime := if inputLevel g i ≠ (bankGet s.gates i).rawLevel then s.now
            else (bankGet s.gates i).lastChangeTime })
      buttons := bankOf (fun i =>
        { bankGet s.buttons i with
          rawLevel := inputLevel b i
          lastChangeTime := if inputLevel b i ≠ (bankGet s.buttons i).rawLevel then s.now
            else (bankGet s.buttons i).lastChangeTime }) }

/-- R160: a gate action is NOTE_ON_ACT or NOTE_OFF_ACT on the gate's own channel, whatever the selector, and
touches neither the selector nor a manual flag; a POLL with one accepted gate transition is that. -/
def Obligations.GateTransitionPlaysItsOwnChannel : Prop :=
  (∀ (i : Channel) (t : Time) (s : State),
    gateAction i true t s =
      { s with engines := bankSet s.engines i ((s.engine i).noteOn t), displayDirty := true } ∧
    gateAction i false t s =
      { s with engines := bankSet s.engines i ((s.engine i).noteOff t), displayDirty := true }) ∧
  ∀ (g b : BitVec 4) (s : State) (i : Channel), OnlyGateAccepted g b s i →
    (inputLevel g i = true → exec (.poll g b) s = exec (.noteOn i) (sampled g b s)) ∧
    (inputLevel g i = false → exec (.poll g b) s = exec (.noteOff i) (sampled g b s)) ∧
    ∃ t, exec (.poll g b) s = .next t ∧ t.chanSel = s.chanSel ∧
      t.manualTriggerActive = s.manualTriggerActive ∧ t.displayDirty = true ∧ t.trace = s.trace ∧
      OtherBanksKept i s t

/-- R161, R162, R163, R164, R165: a button action in its six cases, k counting the buttons in the `Pressed`
state; and a POLL with one accepted button transition is that. -/
def Obligations.ButtonTransitionTable : Prop :=
  (∀ (i : Channel) (t : Time) (s : State),
    let k := (Finset.univ.filter (fun j : Channel => (bankGet s.buttons j).stableLevel = true)).card
    (s.chanSel = i → buttonAction i true t s = { s with
      engines := bankSet s.engines i ((s.engine i).noteOn t)
      manualTriggerActive := bankSet s.manualTriggerActive i true
      displayDirty := true }) ∧
    (s.chanSel = i → bankGet s.manualTriggerActive i = true → buttonAction i false t s = { s with
      engines := bankSet s.engines i ((s.engine i).noteOff t)
      manualTriggerActive := bankSet s.manualTriggerActive i false
      displayDirty := true }) ∧
    (s.chanSel = i → bankGet s.manualTriggerActive i = false → buttonAction i false t s = s) ∧
    (s.chanSel ≠ i → k = 2 → buttonAction i true t s =
      { s with trace := s.trace ++ [.modeToggle], displayDirty := true }) ∧
    (s.chanSel ≠ i → k ≠ 2 → buttonAction i true t s =
      { s with chanSel := i, trace := s.trace ++ [.resync i], displayDirty := true }) ∧
    (s.chanSel ≠ i → buttonAction i false t s = s)) ∧
  ∀ (g b : BitVec 4) (s : State) (i : Channel), OnlyButtonAccepted g b s i →
    let s1 := sampled g b s
    (s.chanSel = i → inputLevel b i = true →
      exec (.poll g b) s = .next { s1 with
        engines := bankSet s.engines i ((s.engine i).noteOn s.now)
        manualTriggerActive := bankSet s.manualTriggerActive i true
        displayDirty := true }) ∧
    (s.chanSel = i → inputLevel b i = false → bankGet s.manualTriggerActive i = true →
      exec (.poll g b) s = .next { s1 with
        engines := bankSet s.engines i ((s.engine i).noteOff s.now)
        manualTriggerActive := bankSet s.manualTriggerActive i false
        displayDirty := true }) ∧
    (s.chanSel = i → inputLevel b i = false → bankGet s.manualTriggerActive i = false →
      exec (.poll g b) s = .next s1) ∧
    (s.chanSel ≠ i → inputLevel b i = true → pressedAfter g b s = 2 →
      exec (.poll g b) s = .next { s1 with trace := s.trace ++ [.modeToggle], displayDirty := true }) ∧
    (s.chanSel ≠ i → inputLevel b i = true → pressedAfter g b s ≠ 2 →
      exec (.poll g b) s = .next { s1 with
        chanSel := i, trace := s.trace ++ [.resync i], displayDirty := true }) ∧
    (s.chanSel ≠ i → inputLevel b i = false → exec (.poll g b) s = .next s1)

/-- R169 (b): two buttons of channels that are not selected, accepted as pressed in the same POLL with no other
button held, toggle the mode twice and switch nothing. -/
def Obligations.ChordAcceptedAtOnceTogglesTwice : Prop :=
  ∀ (g b : BitVec 4) (s : State) (i j : Channel), i ≠ j → s.chanSel ≠ i → s.chanSel ≠ j →
    (∀ k, accepts s.cfg (bankGet s.gates k) (inputLevel g k) s.now = false) →
    (∀ k, accepts s.cfg (bankGet s.buttons k) (inputLevel b k) s.now = true ↔ k = i ∨ k = j) →
    inputLevel b i = true → inputLevel b j = true →
    (∀ k, k ≠ i → k ≠ j → (bankGet s.buttons k).stableLevel = false) →
    exec (.poll g b) s = .next { sampled g b s with
      trace := s.trace ++ [.modeToggle, .modeToggle], displayDirty := true }

/-- R158: the order of the actions of one POLL, each on the state the one before it left, all at the same
time. -/
def Obligations.PollActionsInTheirOrder : Prop :=
  ∀ (g b : BitVec 4) (s : State),
    let gate := fun (i : Channel) (st : State) =>
      if accepts s.cfg (bankGet s.gates i) (inputLevel g i) s.now
      then gateAction i (inputLevel g i) s.now st else st
    let button := fun (i : Channel) (st : State) =>
      if accepts s.cfg (bankGet s.buttons i) (inputLevel b i) s.now
      then buttonAction i (inputLevel b i) s.now st else st
    exec (.poll g b) s = .next (button 3 (button 2 (button 1 (button 0
      (gate 3 (gate 2 (gate 1 (gate 0 (sampled g b s)))))))))

/-! ## System operations (45_system.md) -/

/-- R200: NOP changes nothing; the all-zero word is NOP, and a NOP with Z ≠ 0 is a reserved word and sets
`cmd_err`, which is all a step that takes it does. -/
def Obligations.NopChangesNothing : Prop :=
  (∀ s : State, exec .nop s = .next s) ∧ Encodes .nop 0x0#4 .host ∧ decode 0#40 = .ok .nop ∧
  ∀ (src : Source) (w : OpWord), zField w ≠ 0#2 → verdict src w = .reserved ∧
    ∀ (s : State) (rest : List Input), s.inputs = .word src w :: rest →
      step s = .next { s with inputs := rest, cmdErr := true }

/-- R202: READ emits the value of the register map, zero-extended, or 0 with `cmd_err` in the two error cases,
and changes nothing else. -/
def Obligations.ReadAnswersTheRegisterMap : Prop :=
  (∀ (c : Channel) (reg : Reg) (index : BitVec 16) (s : State),
    let bad := 0x16 ≤ reg.number.toNat ∨
      ((reg.number.toNat = 0x14 ∨ reg.number.toNat = 0x15) ∧ s.cfg.n ≤ index.toNat)
    (bad → exec (.read c reg index) s =
      .next { s with cmdErr := true, trace := s.trace ++ [.rsp 0#64] }) ∧
    (¬ bad → exec (.read c reg index) s =
      .next { s with trace := s.trace ++ [.rsp (regValue s c reg index)] })) ∧
  (∀ (c : Channel) (index : BitVec 16) (s : State), s.LevelInv →
    (regValue s c .attackUs index).toNat = (s.engine c).attackUs.toNat ∧
    (regValue s c .decayUs index).toNat = (s.engine c).decayUs.toNat ∧
    (regValue s c .sustainLevel index).toNat = (s.engine c).sustainLevel.toNat ∧
    (regValue s c .releaseUs index).toNat = (s.engine c).releaseUs.toNat ∧
    (regValue s c .policy index).toNat = (s.engine c).resetAttackOnTrigger.toNat ∧
    (regValue s c .notesHeld index).toNat = (s.engine c).notesHeld.toNat ∧
    regValue s c .tNoteOn index = (s.engine c).tNoteOn ∧
    regValue s c .tNoteOff index = (s.engine c).tNoteOff ∧
    (regValue s c .attackStartLevel index).toNat = (s.engine c).attackStartLevel.toNat ∧
    (regValue s c .releaseStartLevel index).toNat = (s.engine c).releaseStartLevel.toNat ∧
    (regValue s c .lastOutputLevel index).toNat = (s.engine c).lastOutputLevel.toNat ∧
    (regValue s c .gateDb index).toNat =
      (bankGet s.gates c).rawLevel.toNat + 2 * (bankGet s.gates c).stableLevel.toNat ∧
    regValue s c .gateDbTime index = (bankGet s.gates c).lastChangeTime ∧
    (regValue s c .buttonDb index).toNat =
      (bankGet s.buttons c).rawLevel.toNat + 2 * (bankGet s.buttons c).stableLevel.toNat ∧
    regValue s c .buttonDbTime index = (bankGet s.buttons c).lastChangeTime ∧
    (regValue s c .manualTriggerActive index).toNat = (bankGet s.manualTriggerActive c).toNat ∧
    regValue s c .now index = s.now ∧
    (regValue s c .chanSel index).toNat = s.chanSel.val ∧
    (regValue s c .status index).toNat =
      s.displayDirty.toNat + 2 * s.outRefresh.toNat + 4 * s.cmdErr.toNat ∧
    (regValue s c .config index).toNat =
      (s.cfg.r - 1) + 65536 * (s.cfg.n - 1) + 4294967296 * s.cfg.tDbUs.toNat ∧
    (index.toNat < s.cfg.n →
      (regValue s c .lutAtt index).toNat = tableEntry s.cfg .att index.toNat ∧
      (regValue s c .lutDr index).toNat = tableEntry s.cfg .dr index.toNat)) ∧
  (∀ row ∈ [(0x00#5, Reg.attackUs), (0x01#5, .decayUs), (0x02#5, .sustainLevel), (0x03#5, .releaseUs),
      (0x04#5, .policy), (0x05#5, .notesHeld), (0x06#5, .tNoteOn), (0x07#5, .tNoteOff),
      (0x08#5, .attackStartLevel), (0x09#5, .releaseStartLevel), (0x0A#5, .lastOutputLevel),
      (0x0B#5, .gateDb), (0x0C#5, .gateDbTime), (0x0D#5, .buttonDb), (0x0E#5, .buttonDbTime),
      (0x0F#5, .manualTriggerActive), (0x10#5, .now), (0x11#5, .chanSel), (0x12#5, .status),
      (0x13#5, .config), (0x14#5, .lutAtt), (0x15#5, .lutDr)],
    regOf row.1 = row.2 ∧ row.2.number = row.1) ∧
  (∀ n : BitVec 5, 0x16 ≤ n.toNat → ∃ k, regOf n = .reserved k ∧ (Reg.reserved k).number = n) ∧
  (∀ (c : Channel) (reg : Reg) (index : BitVec 16),
    Instr.wellFormed (.read c reg index) = true → Encodes (.read c reg index) 0x8#4 .host) ∧
  encode (.read 2 .sustainLevel 0#16) = 0x8800000002#40 ∧
  encode (.read 0 .lutAtt 128#16) = 0x8000008014#40 ∧
  exec (.read 2 .sustainLevel 0#16) State.reset = .next { State.reset with trace := [.rsp 2500#64] } ∧
  exec (.read 0 .lutAtt 128#16) State.reset = .next { State.reset with trace := [.rsp 3615#64] } ∧
  exec (.read 0 (regOf 0x1F#5) 0#16) State.reset =
    .next { State.reset with cmdErr := true, trace := [.rsp 0#64] }

/-- R203: CLR_FLAGS clears the flags its mask names, sets none and changes nothing else. -/
def Obligations.ClrFlagsClearsByMask : Prop :=
  (∀ (mask : BitVec 3) (s : State), exec (.clrFlags mask) s = .next { s with
    displayDirty := if mask[0] = true then false else s.displayDirty
    outRefresh := if mask[1] = true then false else s.outRefresh
    cmdErr := if mask[2] = true then false else s.cmdErr }) ∧
  (∀ mask : BitVec 3, Encodes (.clrFlags mask) 0x9#4 .host) ∧ encode (.clrFlags 0b101#3) = 0x9000000005#40 ∧
  ∃ t, exec (.clrFlags 0b101#3) State.reset = .next t ∧ t.displayDirty = false ∧
    t.outRefresh = State.reset.outRefresh ∧ t.cmdErr = false

/-- R204: TICK adds to `now` modulo 2^64 and changes nothing else; TICK n is n times TICK 1; no other operation
changes `now`. -/
def Obligations.TickAdvancesTime : Prop :=
  (∀ (n : Micros) (s : State), ∃ t : Time, t.toNat = (s.now.toNat + n.toNat) % 2 ^ 64 ∧
    exec (.tick n) s = .next { s with now := t }) ∧
  (∀ (n : Micros) (s : State),
    execAll (List.replicate n.toNat (.tick 1#32)) s = exec (.tick n) s) ∧
  (∀ (i : Instr) (s t : State), (∀ n, i ≠ .tick n) → exec i s = .next t → t.now = s.now) ∧
  (∀ n : Micros, Encodes (.tick n) 0xC#4 .timebase) ∧
  (∃ t, exec (.tick 5000#32) State.reset = .next t ∧ t.now = 5000#64) ∧
  encode (.tick 5000#32) = 0xC000001388#40

/-- R205: OUT_ACK clears `out_refresh` and changes nothing else; after a pass it leaves the flag 0. -/
def Obligations.OutAckClearsTheRefreshFlag : Prop :=
  (∀ s : State, exec .outAck s = .next { s with outRefresh := false }) ∧ Encodes .outAck 0xD#4 .dac ∧
  ∀ s : State, ∃ t, execAll (passOps ++ [.outAck]) s = .next t ∧ t.outRefresh = false

/-! ## Rules over the whole machine -/

/-- R48, R5, R22, R26 to R28: every step keeps the four level registers of every channel W_L bits wide and in
[0, R-1] (and the configuration legal). -/
def Obligations.StepKeepsLevelsInRange : Prop :=
  ∀ s t : State, s.LevelInv → step s = .next t → t.LevelInv

/-- R48, R49: after reset the levels are in range, for every legal configuration, and every stored timestamp is
at or below `now`. -/
def Obligations.ResetSatisfiesBothInvariants : Prop :=
  (∀ cfg : Config, cfg.Legal → (State.resetOf cfg).LevelInv) ∧
  (∀ cfg : Config, (State.resetOf cfg).StampInv) ∧ State.reset.LevelInv

/-- R48: as long as `now` does not wrap, every step keeps every stored timestamp at or below `now`. -/
def Obligations.StepKeepsStampsInThePast : Prop :=
  ∀ s t : State, s.StampInv → s.NoWrap → step s = .next t → t.StampInv

/-- R226, R29: which operation may write which state; everything else is as it was. -/
def Obligations.SingleWriterPerField : Prop :=
  ∀ (i : Instr) (s : State), ∃ t, exec i s = .next t ∧ OutsideKept s t ∧
    (∀ c, ¬ IsSetterOf c i → (s.engine c).ParamsKept (t.engine c)) ∧
    (∀ c, i ≠ .noteOn c → i ≠ .noteOff c → (∀ g b, i ≠ .poll g b) →
      (s.engine c).NotePartKept (t.engine c)) ∧
    (∀ c, i ≠ .eval c → (t.engine c).lastOutputLevel = (s.engine c).lastOutputLevel) ∧
    ((∀ n, i ≠ .tick n) → t.now = s.now) ∧
    ((∀ g b, i ≠ .poll g b) → SamplerPartKept s t)

/-- R223: who sets and who clears each flag. -/
def Obligations.FlagsChangeOnlyAsTabulated : Prop :=
  ∀ (i : Instr) (s : State), ∃ t, exec i s = .next t ∧
    ((∃ c, IsSetterOf c i ∨ i = .noteOn c ∨ i = .noteOff c) → t.displayDirty = true) ∧
    ((∀ c, ¬ IsSetterOf c i ∧ i ≠ .noteOn c ∧ i ≠ .noteOff c) → (∀ g b, i ≠ .poll g b) →
      s.displayDirty = false → t.displayDirty = false) ∧
    ((∀ mask, i ≠ .clrFlags mask) → s.displayDirty = true → t.displayDirty = true) ∧
    (i = .eval 3 → t.outRefresh = true) ∧
    (i ≠ .eval 3 → s.outRefresh = false → t.outRefresh = false) ∧
    (i ≠ .outAck → (∀ mask, i ≠ .clrFlags mask) → s.outRefresh = true → t.outRefresh = true) ∧
    ((∀ c reg index, i ≠ .read c reg index) → s.cmdErr = false → t.cmdErr = false) ∧
    ((∀ mask, i ≠ .clrFlags mask) → s.cmdErr = true → t.cmdErr = true)

/-- R230: an operation on channel c writes no other channel's bank, and what it makes of its own bank depends
on that bank, `now` and the configuration alone. -/
def Obligations.ChannelsAreIsolated : Prop :=
  ∀ (c : Channel) (i : Instr) (s s' : State), OnChannel c i →
    s.engine c = s'.engine c → s.now = s'.now → s.cfg = s'.cfg →
    ∃ t t', exec i s = .next t ∧ exec i s' = .next t' ∧ t.engine c = t'.engine c ∧
      OtherBanksKept c s t ∧ OtherBanksKept c s' t'

/-- R31, R5: under the invariant of R48 the pin `level_out[c]`, W_L bits wide, shows the whole register, which has
the same W_L bits; and W_L is the least width that holds R levels. -/
def Obligations.LevelOutShowsTheRegister : Prop :=
  ∀ (s : State) (c : Channel), s.LevelInv →
    (levelOut s c).toNat = (s.engine c).lastOutputLevel.toNat ∧
    (s.engine c).lastOutputLevel.width = s.cfg.levelWidth ∧
    s.cfg.r ≤ 2 ^ s.cfg.levelWidth ∧ 2 ^ (s.cfg.levelWidth - 1) < s.cfg.r ∧ s.cfg.levelWidth ≤ 16

/-- R224: in one clock cycle a host CLR_FLAGS precedes an EVAL 3 and `out_refresh` ends 1, and an OUT_ACK follows
it and `out_refresh` ends 0 (the order of one edge as a list of inputs is the model's, log 14). -/
def Obligations.SameCycleSetAndClear : Prop :=
  ∀ (s : State) (p : CyclePins), s.seqNext = some 3 → p.rst = false → p.usTick = false →
    p.pollStrobe = false → p.sampleStrobe = false → p.seqTurn = true → s.inputs = p.inputs →
    (p.cmdWord = some (encode (.clrFlags 0b111#3)) → p.outAck = false →
      ∃ t, Host.Core.run Sys2Proof.core 2 s = .next t ∧ t.outRefresh = true ∧ t.inputs = []) ∧
    (p.cmdWord = none → p.outAck = true →
      ∃ t, Host.Core.run Sys2Proof.core 2 s = .next t ∧ t.outRefresh = false ∧ t.inputs = [])

/-- R91: `AT t` brings the time counter to t when t ≥ now and no other TICK could; `HOLD` is k repetitions of
`TICK dt ; POLL g, b`; `PASS` and `SET_ADSR` are their four operations. -/
def Obligations.PseudoOperations : Prop :=
  (∀ (s : State) (t : Time), s.now.toNat ≤ t.toNat → t.toNat - s.now.toNat < 2 ^ 32 →
    ∃ ops, atOps s.now t = some ops ∧ execAll ops s = .next { s with now := t }) ∧
  (∀ now t : Time, t.toNat < now.toNat → atOps now t = none) ∧
  (∀ (g b : BitVec 4) (dt : Micros) (k : Nat),
    holdOps g b 0 dt = [] ∧ holdOps g b (k + 1) dt = [.tick dt, .poll g b] ++ holdOps g b k dt) ∧
  passOps = [.eval 0, .eval 1, .eval 2, .eval 3] ∧
  (∀ (c : Channel) (a d s r : Micros),
    setAdsrOps c a d s r = [.setAttack c a, .setDecay c d, .setSustain c s, .setRelease c r]) ∧
  ∀ (now : Time) (n : Micros), (AsmStmt.wait n).ops now = some [.tick n]
end

