-- ==== Sys2Proof/Laws/Decode.lean ====
section
/-! SUPPORT. The fields of a packed word, and the two small maps (opcodes, register numbers) both ways. -/

namespace Sys2Proof

/-- Bit `i` of a packed word, field by field (R80). -/
theorem getLsbD_packWord (code : BitVec 4) (ch : BitVec 2) (operand : Micros) (i : Nat) :
    (packWord code ch operand).getLsbD i =
      if i < 32 then operand.getLsbD i
      else if i < 34 then false
      else if i < 36 then ch.getLsbD (i - 34) else code.getLsbD (i - 36) := by
  have h : (packWord code ch operand).getLsbD i =
      ((code ++ ch ++ 0#2 ++ operand : BitVec (4 + 2 + 2 + 32))).getLsbD i := rfl
  rw [h, BitVec.getLsbD_append, BitVec.getLsbD_append, BitVec.getLsbD_append]
  by_cases h32 : i < 32
  · simp [h32]
  by_cases h34 : i < 34
  · have : i - 32 < 2 := by omega
    simp [h32, h34, this]
  have h2 : ¬ i - 32 < 2 := by omega
  by_cases h36 : i < 36
  · have : i - 34 < 2 := by omega
    simp [h32, h34, h36, h2, this, Nat.sub_sub]
  · have : ¬ i - 34 < 2 := by omega
    simp [h32, h34, h36, h2, this, Nat.sub_sub]

@[simp] theorem opcField_packWord (code : BitVec 4) (ch : BitVec 2) (operand : Micros) :
    opcField (packWord code ch operand) = code := by
  apply BitVec.eq_of_getLsbD_eq
  intro i hi
  rw [opcField, BitVec.getLsbD_extractLsb', getLsbD_packWord, if_neg (by omega), if_neg (by omega),
    if_neg (by omega), show 36 + i - 36 = i by omega]
  simp [hi]

@[simp] theorem chField_packWord (code : BitVec 4) (ch : BitVec 2) (operand : Micros) :
    chField (packWord code ch operand) = ch := by
  apply BitVec.eq_of_getLsbD_eq
  intro i hi
  rw [chField, BitVec.getLsbD_extractLsb', getLsbD_packWord, if_neg (by omega), if_neg (by omega),
    if_pos (by omega), show 34 + i - 34 = i by omega]
  simp [hi]

@[simp] theorem zField_packWord (code : BitVec 4) (ch : BitVec 2) (operand : Micros) :
    zField (packWord code ch operand) = 0#2 := by
  apply BitVec.eq_of_getLsbD_eq
  intro i hi
  rw [zField, BitVec.getLsbD_extractLsb', getLsbD_packWord, if_neg (by omega), if_pos (by omega)]
  simp

@[simp] theorem operandField_packWord (code : BitVec 4) (ch : BitVec 2) (operand : Micros) :
    operandField (packWord code ch operand) = operand := by
  apply BitVec.eq_of_getLsbD_eq
  intro i hi
  rw [operandField, BitVec.getLsbD_extractLsb', getLsbD_packWord, if_pos (by omega)]
  simp [hi]

@[simp] theorem opcodeOf_code (op : Opcode) : opcodeOf op.code = some op := by
  cases op <;> rfl

theorem code_of_opcodeOf {code : BitVec 4} {op : Opcode} (h : opcodeOf code = some op) :
    op.code = code := by
  revert h; revert code; cases op <;> decide

/-- Exactly the codes 0xE and 0xF name no row (R84, R87). -/
theorem opcodeOf_eq_none (code : BitVec 4) : opcodeOf code = none ↔ code = 0xE#4 ∨ code = 0xF#4 := by
  revert code; decide

@[simp] theorem regOf_number (r : Reg) : regOf r.number = r := by
  cases r with
  | reserved k => revert k; decide
  | _ => rfl

@[simp] theorem number_regOf (num : BitVec 5) : (regOf num).number = num := by
  revert num; decide

/-- A packed word decodes to what its row makes of its fields. -/
theorem decode_packWord (op : Opcode) (ch : BitVec 2) (operand : Micros) :
    decode (packWord op.code ch operand) = .ok (op.assemble ch.toFin operand) := by
  simp [decode, channelField]

@[simp] theorem opcode_assemble (op : Opcode) (c : Channel) (operand : Micros) :
    (op.assemble c operand).opcode = op := by
  cases op <;> rfl

/-- Everything a successful decoding can be (R84, R85). -/
theorem decode_ok {w : OpWord} {i : Instr} (h : decode w = .ok i) :
    zField w = 0#2 ∧ ∃ op, opcodeOf (opcField w) = some op ∧
      i = op.assemble (channelField w) (operandField w) := by
  unfold decode at h
  split at h
  · next hz =>
    split at h
    · next op ho => exact ⟨hz, op, ho, by simpa using h.symm⟩
    · simp at h
  · simp at h

end Sys2Proof
end

