-- ==== Sys2Proof/Laws/State.lean ====
section
/-! SUPPORT. The small lemmas of the state: banks, and each field after each update, so that no proof unfolds
a record update. -/

namespace Sys2Proof

@[simp] theorem bankGet_bankOf {α : Type} (f : Channel → α) (c : Channel) : bankGet (bankOf f) c = f c := by
  simp [bankGet, bankOf]

@[simp] theorem bankGet_bankSet_self {α : Type} (v : PerChannel α) (c : Channel) (x : α) :
    bankGet (bankSet v c x) c = x := by
  simp [bankGet, bankSet]

theorem bankGet_bankSet_ne {α : Type} (v : PerChannel α) {c d : Channel} (x : α) (h : d ≠ c) :
    bankGet (bankSet v c x) d = bankGet v d := by
  have : c.val ≠ d.val := fun e => h (Fin.ext e.symm)
  simp [bankGet, bankSet, Vector.getElem_set_ne, this]

theorem bankGet_bankSet {α : Type} (v : PerChannel α) (c d : Channel) (x : α) :
    bankGet (bankSet v c x) d = if d = c then x else bankGet v d := by
  split
  · next h => subst h; exact bankGet_bankSet_self v d x
  · next h => exact bankGet_bankSet_ne v x h

/-- Two banks with the same four registers are the same bank. -/
theorem bank_ext {α : Type} {v w : PerChannel α} (h : ∀ c, bankGet v c = bankGet w c) : v = w := by
  apply Vector.ext
  intro i hi
  exact h ⟨i, hi⟩

/-! ## Level registers -/

@[simp] theorem levelOf_width (cfg : Config) (n : Nat) : (cfg.levelOf n).width = cfg.levelWidth := rfl

@[simp] theorem cleared_width (l : Level) : l.cleared.width = l.width := rfl

@[simp] theorem cleared_toNat (l : Level) : l.cleared.toNat = 0 := by
  simp [Level.cleared, Level.ofNat, Level.toNat]

/-- R-1 fits W_L bits. -/
theorem top_lt_levelWidth (cfg : Config) : cfg.top < 2 ^ cfg.levelWidth := Nat.lt_log2_self

/-- A W_L-bit register holds every level. -/
theorem levelOf_toNat {cfg : Config} {n : Nat} (h : n ≤ cfg.top) : (cfg.levelOf n).toNat = n :=
  Nat.mod_eq_of_lt (h.trans_lt (top_lt_levelWidth cfg))

/-- Two level registers of one width and one value are the same. -/
theorem level_ext {l m : Level} (hw : l.width = m.width) (hv : l.toNat = m.toNat) : l = m := by
  obtain ⟨w, x⟩ := l
  obtain ⟨v, y⟩ := m
  subst hw
  exact congrArg _ (BitVec.eq_of_toNat_eq hv)

namespace Machine

/-! ## The engine banks -/

@[simp] theorem engine_updEngine_self (s : State) (c : Channel) (f : Engine → Engine) :
    (s.updEngine c f).engine c = f (s.engine c) := bankGet_bankSet_self _ _ _

theorem engine_updEngine_ne (s : State) {c d : Channel} (f : Engine → Engine) (h : d ≠ c) :
    (s.updEngine c f).engine d = s.engine d := bankGet_bankSet_ne _ _ h

theorem engine_updEngine (s : State) (c d : Channel) (f : Engine → Engine) :
    (s.updEngine c f).engine d = if d = c then f (s.engine c) else s.engine d :=
  bankGet_bankSet _ _ _ _

section updEngine
variable (c : Channel) (f : Engine → Engine) (s : State)
@[simp] theorem updEngine_cfg : (s.updEngine c f).cfg = s.cfg := rfl
@[simp] theorem updEngine_now : (s.updEngine c f).now = s.now := rfl
@[simp] theorem updEngine_gates : (s.updEngine c f).gates = s.gates := rfl
@[simp] theorem updEngine_buttons : (s.updEngine c f).buttons = s.buttons := rfl
@[simp] theorem updEngine_chanSel : (s.updEngine c f).chanSel = s.chanSel := rfl
@[simp] theorem updEngine_manual :
    (s.updEngine c f).manualTriggerActive = s.manualTriggerActive := rfl
@[simp] theorem updEngine_display : (s.updEngine c f).displayDirty = s.displayDirty := rfl
@[simp] theorem updEngine_refresh : (s.updEngine c f).outRefresh = s.outRefresh := rfl
@[simp] theorem updEngine_cmdErr : (s.updEngine c f).cmdErr = s.cmdErr := rfl
@[simp] theorem updEngine_seqNext : (s.updEngine c f).seqNext = s.seqNext := rfl
@[simp] theorem updEngine_inputs : (s.updEngine c f).inputs = s.inputs := rfl
@[simp] theorem updEngine_trace : (s.updEngine c f).trace = s.trace := rfl
end updEngine

/-! ## The trace -/

section emit
variable (ev : Event) (s : State) (c : Channel)
@[simp] theorem emit_trace : (s.emit ev).trace = s.trace ++ [ev] := rfl
@[simp] theorem emit_engines : (s.emit ev).engines = s.engines := rfl
@[simp] theorem emit_engine : (s.emit ev).engine c = s.engine c := rfl
@[simp] theorem emit_cfg : (s.emit ev).cfg = s.cfg := rfl
@[simp] theorem emit_now : (s.emit ev).now = s.now := rfl
@[simp] theorem emit_gates : (s.emit ev).gates = s.gates := rfl
@[simp] theorem emit_buttons : (s.emit ev).buttons = s.buttons := rfl
@[simp] theorem emit_chanSel : (s.emit ev).chanSel = s.chanSel := rfl
@[simp] theorem emit_manual : (s.emit ev).manualTriggerActive = s.manualTriggerActive := rfl
@[simp] theorem emit_display : (s.emit ev).displayDirty = s.displayDirty := rfl
@[simp] theorem emit_refresh : (s.emit ev).outRefresh = s.outRefresh := rfl
@[simp] theorem emit_cmdErr : (s.emit ev).cmdErr = s.cmdErr := rfl
@[simp] theorem emit_seqNext : (s.emit ev).seqNext = s.seqNext := rfl
@[simp] theorem emit_inputs : (s.emit ev).inputs = s.inputs := rfl
end emit

/-! ## The flags -/

section flags
variable (s : State) (c d : Channel) (b : Bool)
@[simp] theorem markDisplay_display : s.markDisplay.displayDirty = true := rfl
@[simp] theorem markDisplay_engines : s.markDisplay.engines = s.engines := rfl
@[simp] theorem markDisplay_engine : s.markDisplay.engine c = s.engine c := rfl
@[simp] theorem markDisplay_cfg : s.markDisplay.cfg = s.cfg := rfl
@[simp] theorem markDisplay_now : s.markDisplay.now = s.now := rfl
@[simp] theorem markDisplay_gates : s.markDisplay.gates = s.gates := rfl
@[simp] theorem markDisplay_buttons : s.markDisplay.buttons = s.buttons := rfl
@[simp] theorem markDisplay_chanSel : s.markDisplay.chanSel = s.chanSel := rfl
@[simp] theorem markDisplay_manual :
    s.markDisplay.manualTriggerActive = s.manualTriggerActive := rfl
@[simp] theorem markDisplay_refresh : s.markDisplay.outRefresh = s.outRefresh := rfl
@[simp] theorem markDisplay_cmdErr : s.markDisplay.cmdErr = s.cmdErr := rfl
@[simp] theorem markDisplay_seqNext : s.markDisplay.seqNext = s.seqNext := rfl
@[simp] theorem markDisplay_inputs : s.markDisplay.inputs = s.inputs := rfl
@[simp] theorem markDisplay_trace : s.markDisplay.trace = s.trace := rfl

@[simp] theorem markPassEnd_refresh :
    (s.markPassEnd c).outRefresh = (s.outRefresh || c == 3) := rfl
@[simp] theorem markPassEnd_engines : (s.markPassEnd c).engines = s.engines := rfl
@[simp] theorem markPassEnd_engine : (s.markPassEnd c).engine d = s.engine d := rfl
@[simp] theorem markPassEnd_cfg : (s.markPassEnd c).cfg = s.cfg := rfl
@[simp] theorem markPassEnd_now : (s.markPassEnd c).now = s.now := rfl
@[simp] theorem markPassEnd_gates : (s.markPassEnd c).gates = s.gates := rfl
@[simp] theorem markPassEnd_buttons : (s.markPassEnd c).buttons = s.buttons := rfl
@[simp] theorem markPassEnd_chanSel : (s.markPassEnd c).chanSel = s.chanSel := rfl
@[simp] theorem markPassEnd_manual :
    (s.markPassEnd c).manualTriggerActive = s.manualTriggerActive := rfl
@[simp] theorem markPassEnd_display : (s.markPassEnd c).displayDirty = s.displayDirty := rfl
@[simp] theorem markPassEnd_cmdErr : (s.markPassEnd c).cmdErr = s.cmdErr := rfl
@[simp] theorem markPassEnd_seqNext : (s.markPassEnd c).seqNext = s.seqNext := rfl
@[simp] theorem markPassEnd_inputs : (s.markPassEnd c).inputs = s.inputs := rfl
@[simp] theorem markPassEnd_trace : (s.markPassEnd c).trace = s.trace := rfl

@[simp] theorem markError_cmdErr : (s.markError b).cmdErr = (s.cmdErr || b) := rfl
@[simp] theorem markError_engines : (s.markError b).engines = s.engines := rfl
@[simp] theorem markError_engine : (s.markError b).engine c = s.engine c := rfl
@[simp] theorem markError_cfg : (s.markError b).cfg = s.cfg := rfl
@[simp] theorem markError_now : (s.markError b).now = s.now := rfl
@[simp] theorem markError_gates : (s.markError b).gates = s.gates := rfl
@[simp] theorem markError_buttons : (s.markError b).buttons = s.buttons := rfl
@[simp] theorem markError_chanSel : (s.markError b).chanSel = s.chanSel := rfl
@[simp] theorem markError_manual :
    (s.markError b).manualTriggerActive = s.manualTriggerActive := rfl
@[simp] theorem markError_display : (s.markError b).displayDirty = s.displayDirty := rfl
@[simp] theorem markError_refresh : (s.markError b).outRefresh = s.outRefresh := rfl
@[simp] theorem markError_seqNext : (s.markError b).seqNext = s.seqNext := rfl
@[simp] theorem markError_inputs : (s.markError b).inputs = s.inputs := rfl
@[simp] theorem markError_trace : (s.markError b).trace = s.trace := rfl
end flags

/-! ## `manual_trigger_active` -/

section manual
variable (i j : Channel) (v : Bool) (s : State)
theorem setManual_manual :
    bankGet (s.setManual i v).manualTriggerActive j = if j = i then v else bankGet s.manualTriggerActive j :=
  bankGet_bankSet _ _ _ _
@[simp] theorem setManual_engines : (s.setManual i v).engines = s.engines := rfl
@[simp] theorem setManual_engine : (s.setManual i v).engine j = s.engine j := rfl
@[simp] theorem setManual_cfg : (s.setManual i v).cfg = s.cfg := rfl
@[simp] theorem setManual_now : (s.setManual i v).now = s.now := rfl
@[simp] theorem setManual_gates : (s.setManual i v).gates = s.gates := rfl
@[simp] theorem setManual_buttons : (s.setManual i v).buttons = s.buttons := rfl
@[simp] theorem setManual_chanSel : (s.setManual i v).chanSel = s.chanSel := rfl
@[simp] theorem setManual_display : (s.setManual i v).displayDirty = s.displayDirty := rfl
@[simp] theorem setManual_refresh : (s.setManual i v).outRefresh = s.outRefresh := rfl
@[simp] theorem setManual_cmdErr : (s.setManual i v).cmdErr = s.cmdErr := rfl
@[simp] theorem setManual_seqNext : (s.setManual i v).seqNext = s.seqNext := rfl
@[simp] theorem setManual_inputs : (s.setManual i v).inputs = s.inputs := rfl
@[simp] theorem setManual_trace : (s.setManual i v).trace = s.trace := rfl
end manual

/-! ## One engine's fields -/

section engineFields
variable (t : Time) (e : Engine) (l : Level)
@[simp] theorem noteOn_tNoteOn : (e.noteOn t).tNoteOn = t := rfl
@[simp] theorem noteOn_tNoteOff : (e.noteOn t).tNoteOff = e.tNoteOff := rfl
@[simp] theorem noteOn_attackUs : (e.noteOn t).attackUs = e.attackUs := rfl
@[simp] theorem noteOn_decayUs : (e.noteOn t).decayUs = e.decayUs := rfl
@[simp] theorem noteOn_releaseUs : (e.noteOn t).releaseUs = e.releaseUs := rfl
@[simp] theorem noteOn_sustainLevel : (e.noteOn t).sustainLevel = e.sustainLevel := rfl
@[simp] theorem noteOn_policy : (e.noteOn t).resetAttackOnTrigger = e.resetAttackOnTrigger := rfl
@[simp] theorem noteOn_releaseStart : (e.noteOn t).releaseStartLevel = e.releaseStartLevel := rfl
@[simp] theorem noteOn_lastOutput : (e.noteOn t).lastOutputLevel = e.lastOutputLevel := rfl
theorem noteOn_attackStart :
    (e.noteOn t).attackStartLevel = if e.resetAttackOnTrigger then e.attackStartLevel.cleared else e.lastOutputLevel := rfl
theorem noteOn_notesHeld :
    (e.noteOn t).notesHeld = BitVec.ofNat 8 (min (e.notesHeld.toNat + 1) 255) := rfl

theorem noteOff_release (h : e.notesHeld.toNat ≤ 1) :
    e.noteOff t = { e with notesHeld := 0#8, tNoteOff := t, releaseStartLevel := e.lastOutputLevel } := by
  simp [Engine.noteOff, h]

theorem noteOff_stacked (h : ¬ e.notesHeld.toNat ≤ 1) :
    e.noteOff t = { e with notesHeld := BitVec.ofNat 8 (e.notesHeld.toNat - 1) } := by
  simp only [Engine.noteOff, if_neg h]

@[simp] theorem noteOff_tNoteOn : (e.noteOff t).tNoteOn = e.tNoteOn := by
  unfold Engine.noteOff; split <;> rfl
@[simp] theorem noteOff_attackUs : (e.noteOff t).attackUs = e.attackUs := by
  unfold Engine.noteOff; split <;> rfl
@[simp] theorem noteOff_decayUs : (e.noteOff t).decayUs = e.decayUs := by
  unfold Engine.noteOff; split <;> rfl
@[simp] theorem noteOff_releaseUs : (e.noteOff t).releaseUs = e.releaseUs := by
  unfold Engine.noteOff; split <;> rfl
@[simp] theorem noteOff_sustainLevel : (e.noteOff t).sustainLevel = e.sustainLevel := by
  unfold Engine.noteOff; split <;> rfl
@[simp] theorem noteOff_policy : (e.noteOff t).resetAttackOnTrigger = e.resetAttackOnTrigger := by
  unfold Engine.noteOff; split <;> rfl
@[simp] theorem noteOff_attackStart : (e.noteOff t).attackStartLevel = e.attackStartLevel := by
  unfold Engine.noteOff; split <;> rfl
@[simp] theorem noteOff_lastOutput : (e.noteOff t).lastOutputLevel = e.lastOutputLevel := by
  unfold Engine.noteOff; split <;> rfl

@[simp] theorem storeOutput_lastOutput : (e.storeOutput l).lastOutputLevel = l := rfl
@[simp] theorem storeOutput_attackUs : (e.storeOutput l).attackUs = e.attackUs := rfl
@[simp] theorem storeOutput_decayUs : (e.storeOutput l).decayUs = e.decayUs := rfl
@[simp] theorem storeOutput_releaseUs : (e.storeOutput l).releaseUs = e.releaseUs := rfl
@[simp] theorem storeOutput_sustainLevel : (e.storeOutput l).sustainLevel = e.sustainLevel := rfl
@[simp] theorem storeOutput_policy :
    (e.storeOutput l).resetAttackOnTrigger = e.resetAttackOnTrigger := rfl
@[simp] theorem storeOutput_notesHeld : (e.storeOutput l).notesHeld = e.notesHeld := rfl
@[simp] theorem storeOutput_tNoteOn : (e.storeOutput l).tNoteOn = e.tNoteOn := rfl
@[simp] theorem storeOutput_tNoteOff : (e.storeOutput l).tNoteOff = e.tNoteOff := rfl
@[simp] theorem storeOutput_attackStart :
    (e.storeOutput l).attackStartLevel = e.attackStartLevel := rfl
@[simp] theorem storeOutput_releaseStart :
    (e.storeOutput l).releaseStartLevel = e.releaseStartLevel := rfl
end engineFields

end Machine
end Sys2Proof
end

