-- ==== Sys2Proof/Machine/HostAgent.lean ====
section
/-! DEFINITION. The ParameterController, the part of the HOST agent that produces the SET operations
(44_param_host.md R180 to R195). It stands outside the block (00_scope.md R2, R4): no field of State and no
step is here, and the block accepts every host word, not only these (R180). Its open parameters (R182) are
arguments, as the spec asks: a field of `HostParams` each, beside proofs of what the source does fix of it. The
arithmetic is exact over the rationals: DESIGN CHOICE, log 16. -/

namespace Sys2Proof.Machine

/-- The four parameter types (R181). -/
inductive ParamKind where
  | attack | decay | sustain | release
  deriving DecidableEq, Repr

/-- A time parameter, as against the sustain level (R181, R188). -/
def ParamKind.isTime : ParamKind → Bool
  | .attack => true
  | .decay => true
  | .release => true
  | .sustain => false

/-- A rounding to an integer that the source leaves open: it moves a value by less than one, and nothing else
is said of it (R189, R190; log 16). -/
structure Rounding where
  toInt : ℚ → Int
  near : ∀ x : ℚ, |(toInt x : ℚ) - x| < 1

/-- The upper end of a parameter's range, from `UPPER` and `SUSTAIN_UPPER` (R181, R182). -/
def ParamKind.upperEnd (upper sustainUpper : Nat) (k : ParamKind) : Nat :=
  if k.isTime then upper else sustainUpper

/-- The open parameters of the controller (R182; 93_implementation_defined.md section 5): the source names them
and gives them no value, and none is given one here. A field whose name ends in `_near`, `_le`, `_lt`,
`_pos` or `_beyond` says what the source does fix of the fields before it. -/
structure HostParams where
  /-- `UPPER`, the upper end of the time parameters. -/
  upper : Nat
  upper_pos : 0 < upper
  /-- `SUSTAIN_UPPER`. -/
  sustainUpper : Nat
  sustainUpper_pos : 0 < sustainUpper
  /-- `R_max`, the level that `SUSTAIN_UPPER` maps to, an operand of SET_SUSTAIN (R182, R190). -/
  rMax : Nat
  rMax_lt : rMax < 2 ^ 32
  /-- `low`, the low-speed threshold of the gain map. -/
  low : ℚ
  /-- `high`, the high threshold. -/
  high : ℚ
  /-- `gain_max`. -/
  gainMax : ℚ
  /-- A gain keeps the sign of a delta (R187). -/
  gainMax_pos : 0 < gainMax
  /-- The rolling average before 25 samples exist, newest sample first (R185; 91_not_in_source.md N9). -/
  averageBefore : List Nat → ℚ
  /-- The rounding of the average of 25 samples (R185, N9). -/
  roundAverage : ℚ → ℚ
  roundAverage_near : ∀ x : ℚ, |roundAverage x - x| < 1
  /-- What the hysteresis adds to the one named threshold: `allow_gain` before, the average (R185, N9). -/
  admits : Bool → ℚ → Bool
  /-- The minimum step at a position of a time parameter (R188; N10). -/
  minStep : ParamKind → ℚ → ℚ
  /-- The "large sentinel threshold" of the wrap guard, beyond both ranges (R189). -/
  wrapThreshold : Int
  wrapThreshold_beyond : (upper : Int) ≤ wrapThreshold ∧ (sustainUpper : Int) ≤ wrapThreshold
  /-- From the fractional accumulator to an encoder-domain integer (R189). -/
  quantize : Rounding
  /-- `min`, for each time parameter, in microseconds (R190). -/
  minUs : ParamKind → Micros
  minUs_pos : ∀ k, 0 < (minUs k).toNat
  /-- `max`, for each time parameter, in microseconds (R190). -/
  maxUs : ParamKind → Micros
  minUs_le : ∀ k, (minUs k).toNat ≤ (maxUs k).toNat
  /-- `min · (max/min)^(target_value/upper)` as an operand (R190). Only its rounding is open. -/
  timeUs : ParamKind → Nat → Micros
  timeUs_near : ∀ (k : ParamKind) (target : Nat), target ≤ upper →
    |((timeUs k target).toNat : ℝ) -
      ((minUs k).toNat : ℝ) * (((maxUs k).toNat : ℝ) / ((minUs k).toNat : ℝ)) ^
        ((target : ℝ) / (upper : ℝ))| < 1
  /-- The rounding of the sustain map to an operand (R190). -/
  roundLevel : Rounding
  /-- The initial `target_value` of each record (R181; N8). -/
  initialTarget : ParamKind → Channel → Nat
  initialTarget_le : ∀ k c, initialTarget k c ≤ k.upperEnd upper sustainUpper
  /-- The initial `unquantized_reference` of each record, which the first read replaces (R181, R184). -/
  initialReference : ParamKind → Channel → ℚ
  /-- The initial `allow_gain` of an encoder (R181). -/
  initialAllowGain : Bool

/-- `R_max` read as R-1 (R182; 90_conflicts.md C5). -/
abbrev HostParams.ReadsRMaxAsTop (p : HostParams) (cfg : Config) : Prop := p.rMax = cfg.top

/-- One record of ParameterState (R181). -/
structure ParamRecord where
  /-- `target_value`. -/
  targetValue : Int
  /-- `baseline_raw_value`; none is the "uninitialized" sentinel. That a raw value is an unbounded integer is a
  DESIGN CHOICE: the spec gives it no numeric type (log 16). -/
  baselineRaw : Option Int
  /-- `unquantized_reference`. -/
  unquantized : ℚ
  deriving DecidableEq, Repr

/-- What is kept per encoder (R181). -/
structure EncoderFilter where
  /-- The last 25 values of `|rawSpeed|`, newest first; naturals, since a raw speed is an integer (log 16). -/
  window : List Nat
  /-- `allow_gain`. -/
  allowGain : Bool
  deriving DecidableEq, Repr

/-- ParameterState, the sixteen records (R181). -/
structure ParameterState where
  attack : PerChannel ParamRecord
  decay : PerChannel ParamRecord
  sustain : PerChannel ParamRecord
  release : PerChannel ParamRecord
  deriving DecidableEq, Repr

/-- The record of a (parameter, channel) pair. -/
def ParameterState.record (m : ParameterState) (k : ParamKind) (c : Channel) : ParamRecord :=
  match k with
  | .attack => bankGet m.attack c
  | .decay => bankGet m.decay c
  | .sustain => bankGet m.sustain c
  | .release => bankGet m.release c

/-- One record replaced. -/
def ParameterState.setRecord (m : ParameterState) (k : ParamKind) (c : Channel) (x : ParamRecord) :
    ParameterState :=
  match k with
  | .attack => { m with attack := bankSet m.attack c x }
  | .decay => { m with decay := bankSet m.decay c x }
  | .sustain => { m with sustain := bankSet m.sustain c x }
  | .release => { m with release := bankSet m.release c x }

/-- The sentinel written into one record, nothing else of it changed (R183). -/
def ParamRecord.forget (x : ParamRecord) : ParamRecord := { x with baselineRaw := none }

/-- The reaction to the event `Resync(c)`: the baselines of channel `c` and nothing else (R183, R194). -/
def ParameterState.onResync (m : ParameterState) (c : Channel) : ParameterState where
  attack := bankSet m.attack c (bankGet m.attack c).forget
  decay := bankSet m.decay c (bankGet m.decay c).forget
  sustain := bankSet m.sustain c (bankGet m.sustain c).forget
  release := bankSet m.release c (bankGet m.release c).forget

/-- The upper end of a record's range; the lower end is 0 (R181, R182). -/
def HostParams.upperOf (p : HostParams) (k : ParamKind) : Nat := k.upperEnd p.upper p.sustainUpper

/-- A record before its first read: the sentinel, and the open initial values (R181). -/
def ParamRecord.initial (p : HostParams) (k : ParamKind) (c : Channel) : ParamRecord where
  targetValue := (p.initialTarget k c : Int)
  baselineRaw := none
  unquantized := p.initialReference k c

/-- The sixteen records before any read (R181). -/
def ParameterState.initial (p : HostParams) : ParameterState where
  attack := bankOf (ParamRecord.initial p .attack)
  decay := bankOf (ParamRecord.initial p .decay)
  sustain := bankOf (ParamRecord.initial p .sustain)
  release := bankOf (ParamRecord.initial p .release)

/-- An encoder's filter before any read: no sample (R181). -/
def EncoderFilter.initial (p : HostParams) : EncoderFilter := ⟨[], p.initialAllowGain⟩

/-- The rolling average of a window: the mean of 25 samples up to its rounding; before 25 exist it is open
(R185). -/
def HostParams.average (p : HostParams) (window : List Nat) : ℚ :=
  if window.length < 25 then p.averageBefore window else p.roundAverage ((window.sum : ℚ) / 25)

/-- Step 2: the window, and `allow_gain`, true only while the average is at least `low` (R185). That a raw speed
is an integer is a DESIGN CHOICE: the spec gives it no numeric type (log 16). -/
def EncoderFilter.push (p : HostParams) (f : EncoderFilter) (rawSpeed : Int) : EncoderFilter :=
  let window := (rawSpeed.natAbs :: f.window).take 25
  { window := window
    allowGain := decide (p.low ≤ p.average window) && p.admits f.allowGain (p.average window) }

/-- Step 3: the gain of the smoothed speed `s` (R186). -/
def HostParams.gain (p : HostParams) (allowGain : Bool) (s : ℚ) : ℚ :=
  if allowGain = false ∨ s < p.low then 1
  else if s < p.high then
    1 + (p.gainMax - 1) * max 0 (min 1 (((s - p.low) / (p.high - p.low)) ^ 2))
  else p.gainMax

/-- Step 4: the motion since the baseline times a gain; a gain is positive, so the sign is preserved (R187). -/
def deltaOf (rawPosition baseline : Int) (gain : ℚ) : ℚ := ((rawPosition - baseline : Int) : ℚ) * gain

/-- Step 5: the minimum step of a time parameter for a delta that is not 0, then the clamp of the step to the
full range; the sign is kept, and a zero delta is a zero step (R187, R188, R194). -/
def HostParams.stepOf (p : HostParams) (k : ParamKind) (position delta : ℚ) : ℚ :=
  if delta = 0 then 0
  else if k.isTime then
    (if delta < 0 then -1 else 1) * min (max |delta| (p.minStep k position)) (p.upper : ℚ)
  else delta

/-- Clamp to `[0, upper]` (R189, R195). -/
def clampRange {α : Type} [Min α] [Max α] [OfNat α 0] (upper x : α) : α := max 0 (min x upper)

/-- Step 6 and the end of step 8: the wrap guard, before the clamp (N11), then the new `unquantized_reference`
and `target_value` (R189, R191). -/
def ParamRecord.accumulate (p : HostParams) (k : ParamKind) (step : ℚ) (x : ParamRecord) : ParamRecord :=
  let acc := if p.wrapThreshold < p.quantize.toInt (x.unquantized + step) then 0 else x.unquantized + step
  { x with
    targetValue := clampRange (p.upperOf k : Int) (p.quantize.toInt acc)
    unquantized := clampRange (p.upperOf k : ℚ) acc }

/-- `target_value · R_max / upper` (R190). -/
def HostParams.physicalLevel (p : HostParams) (target : Int) : ℚ :=
  (target : ℚ) * (p.rMax : ℚ) / (p.sustainUpper : ℚ)

/-- Step 7: the setter word's operation (R190). -/
def HostParams.setter (p : HostParams) (k : ParamKind) (c : Channel) (target : Int) : Instr :=
  match k with
  | .attack => .setAttack c (p.timeUs k target.toNat)
  | .decay => .setDecay c (p.timeUs k target.toNat)
  | .release => .setRelease c (p.timeUs k target.toNat)
  | .sustain => .setSustain c (BitVec.ofNat 32 (p.roundLevel.toInt (p.physicalLevel target)).toNat)

/-- What one `read` leaves and sends. -/
structure ReadResult where
  record : ParamRecord
  filter : EncoderFilter
  /-- The operation sent on the command port, if any. -/
  sent : Option Instr
  deriving DecidableEq, Repr

/-- `read(rawPosition, rawSpeed)` of one record; its result is `record.targetValue` (R184 to R192). The
"current logarithmic position" of R188 is taken as `unquantized_reference` before the step: the spec does not
say whether it is that or `target_value` (DESIGN CHOICE, log 16). -/
def ParamRecord.read (p : HostParams) (k : ParamKind) (c : Channel) (rawPosition rawSpeed : Int)
    (x : ParamRecord) (f : EncoderFilter) : ReadResult :=
  match x.baselineRaw with
  | none =>
    ⟨{ x with baselineRaw := some rawPosition, unquantized := (x.targetValue : ℚ) }, f, none⟩
  | some baseline =>
    let f' := f.push p rawSpeed
    let delta := deltaOf rawPosition baseline (p.gain f'.allowGain (p.average f'.window))
    let x' := x.accumulate p k (p.stepOf k x.unquantized delta)
    ⟨{ x' with baselineRaw := some rawPosition }, f', some (p.setter k c x'.targetValue)⟩

/-- Reads of one record one after another at the same position, at these speeds (R194). -/
def ParamRecord.readsAt (p : HostParams) (k : ParamKind) (c : Channel) (rawPosition : Int)
    (speeds : List Int) (x : ParamRecord) (f : EncoderFilter) : ParamRecord × EncoderFilter :=
  speeds.foldl (fun xf speed =>
    let r := xf.1.read p k c rawPosition speed xf.2
    (r.record, r.filter)) (x, f)

/-- A record before and after every read: `target_value` lies in its range, and once a baseline is taken it is the
clamped quantized accumulator, itself in the range (R181, R189, R191, R194). -/
def ParamRecord.Settled (p : HostParams) (k : ParamKind) (x : ParamRecord) : Prop :=
  0 ≤ x.targetValue ∧ x.targetValue ≤ p.upperOf k ∧
  (x.baselineRaw ≠ none → 0 ≤ x.unquantized ∧ x.unquantized ≤ p.upperOf k ∧
    clampRange (p.upperOf k : Int) (p.quantize.toInt x.unquantized) = x.targetValue)

/-- A read of a parameter type: the record is that of the selected channel, `chan_sel` (R193). -/
def ParameterState.read (m : ParameterState) (p : HostParams) (k : ParamKind) (chanSel : Channel)
    (rawPosition rawSpeed : Int) (f : EncoderFilter) : ParameterState × EncoderFilter × Option Instr :=
  let r := (m.record k chanSel).read p k chanSel rawPosition rawSpeed f
  (m.setRecord k chanSel r.record, r.filter, r.sent)

/-- What the controller reacts to: the event `Resync(c)` (R183), or a read of a parameter type while `chan_sel`
has this value, by the encoder with this filter (R184, R193; which encoder that is lies outside, R193). -/
inductive ControllerInput where
  | resync (c : Channel)
  | read (k : ParamKind) (chanSel : Channel) (rawPosition rawSpeed : Int) (f : EncoderFilter)
  deriving DecidableEq, Repr

/-- The records after one input, and the setter word's operation it sends, if any (R183, R184 to R193). -/
def ParameterState.handle (m : ParameterState) (p : HostParams) :
    ControllerInput → ParameterState × Option Instr
  | .resync c => (m.onResync c, none)
  | .read k chanSel rawPosition rawSpeed f =>
    let r := m.read p k chanSel rawPosition rawSpeed f
    (r.1, r.2.2)

/-- The records after inputs one after another, and the operations sent, in their order. -/
def ParameterState.handleAll (m : ParameterState) (p : HostParams) :
    List ControllerInput → ParameterState × List Instr
  | [] => (m, [])
  | x :: rest =>
    let r := (m.handle p x).1.handleAll p rest
    (r.1, (m.handle p x).2.toList ++ r.2)

/-- No read of a record of channel `c` (R193). -/
def ControllerInput.sparesChannel (c : Channel) : ControllerInput → Bool
  | .resync _ => true
  | .read _ chanSel _ _ _ => decide (chanSel ≠ c)

/-- The first testable property of R194: whatever the controller has handled since its start, once a record is
read at a position, further reads at that position, at any speeds, leave its `target_value` as it is. -/
def HostParams.ConstantPositionKeepsTarget (p : HostParams) : Prop :=
  ∀ (before : List ControllerInput) (k : ParamKind) (c : Channel) (rawPosition rawSpeed : Int)
    (f : EncoderFilter) (speeds : List Int),
    let first := (((ParameterState.initial p).handleAll p before).1.record k c).read p k c
      rawPosition rawSpeed f
    (first.record.readsAt p k c rawPosition speeds first.filter).1.targetValue = first.record.targetValue

/-- The second testable property of R194: from `Resync(c)` to the next read of a record of channel `c` no
`target_value` of the channel changes and no word for it is sent, and that read returns and stores the
unchanged `target_value` and sends no word. -/
def HostParams.SwitchKeepsTargets (p : HostParams) : Prop :=
  ∀ (m : ParameterState) (c : Channel) (between : List ControllerInput),
    (∀ x ∈ between, x.sparesChannel c = true) →
    let after := (m.onResync c).handleAll p between
    (∀ k, (after.1.record k c).targetValue = (m.record k c).targetValue) ∧
    (∀ i ∈ after.2, i.chBits.toFin ≠ c) ∧
    ∀ (k : ParamKind) (rawPosition rawSpeed : Int) (f : EncoderFilter),
      ((after.1.read p k c rawPosition rawSpeed f).1.record k c).targetValue =
        (m.record k c).targetValue ∧
      (after.1.read p k c rawPosition rawSpeed f).2.2 = none

end Sys2Proof.Machine
end

