-- ==== Sys2Proof/Laws/HostAgent.lean ====
section
/-! SUPPORT. The ParameterController: what its roundings leave fixed, that the operands it sends lie in their
ranges (R190), and the two testable properties that 44_param_host.md R194 transcribes, over every value of
the open parameters. -/

namespace Sys2Proof.Machine

/-! ## Roundings and clamps -/

/-- A rounding fixes the integers. -/
theorem Rounding.toInt_intCast (q : Rounding) (n : Int) : q.toInt (n : ℚ) = n := by
  have h : |((q.toInt (n : ℚ) - n : Int) : ℚ)| < 1 := by simpa using q.near (n : ℚ)
  have : |q.toInt (n : ℚ) - n| < 1 := by exact_mod_cast h
  have := Int.abs_lt_one_iff.1 this
  omega

/-- A rounding does not pass an integer upwards. -/
theorem Rounding.toInt_le (q : Rounding) {x : ℚ} {n : Int} (h : x ≤ n) : q.toInt x ≤ n := by
  have := (abs_lt.1 (q.near x)).2
  have : (q.toInt x : ℚ) < ((n + 1 : Int) : ℚ) := by push_cast; linarith
  have : q.toInt x < n + 1 := by exact_mod_cast this
  omega

/-- A rounding does not pass an integer downwards. -/
theorem Rounding.le_toInt (q : Rounding) {x : ℚ} {n : Int} (h : (n : ℚ) ≤ x) : n ≤ q.toInt x := by
  have := (abs_lt.1 (q.near x)).1
  have : ((n - 1 : Int) : ℚ) < (q.toInt x : ℚ) := by push_cast; linarith
  have : n - 1 < q.toInt x := by exact_mod_cast this
  omega

theorem clampRange_int (n : Nat) (x : Int) :
    0 ≤ clampRange (n : Int) x ∧ clampRange (n : Int) x ≤ n := by
  simp only [clampRange]
  omega

theorem clampRange_rat (n : Nat) (x : ℚ) :
    0 ≤ clampRange (n : ℚ) x ∧ clampRange (n : ℚ) x ≤ n :=
  ⟨le_max_left _ _, max_le (Nat.cast_nonneg n) (min_le_right _ _)⟩

theorem clampRange_of_mem {n : Nat} {x : ℚ} (h0 : 0 ≤ x) (h1 : x ≤ n) : clampRange (n : ℚ) x = x := by
  simp [clampRange, h0, h1]

/-- Clamping the accumulator before the quantization changes no target: "re-clamped identically" (R189, R191). -/
theorem clampRange_quantize (q : Rounding) (n : Nat) (x : ℚ) :
    clampRange (n : Int) (q.toInt (clampRange (n : ℚ) x)) = clampRange (n : Int) (q.toInt x) := by
  rcases lt_or_ge x 0 with h | h
  · have e : clampRange (n : ℚ) x = ((0 : Int) : ℚ) := by
      simp [clampRange, (min_le_left x (n : ℚ)).trans h.le]
    have := q.toInt_le (n := 0) (by exact_mod_cast h.le)
    rw [e, q.toInt_intCast]
    simp only [clampRange]
    omega
  · rcases le_or_gt x n with h1 | h1
    · rw [clampRange_of_mem h h1]
    · have e : clampRange (n : ℚ) x = ((n : Int) : ℚ) := by
        simp [clampRange, min_eq_right h1.le]
      have := q.le_toInt (n := (n : Int)) (by exact_mod_cast h1.le)
      rw [e, q.toInt_intCast]
      simp only [clampRange]
      omega

theorem upperOf_le_wrapThreshold (p : HostParams) (k : ParamKind) : (p.upperOf k : Int) ≤ p.wrapThreshold := by
  obtain ⟨h, h'⟩ := p.wrapThreshold_beyond
  unfold HostParams.upperOf ParamKind.upperEnd
  split <;> assumption

/-! ## The sign of a delta (R187) -/

/-- Every gain is positive. -/
theorem gain_pos (p : HostParams) (allowGain : Bool) (s : ℚ) : 0 < p.gain allowGain s := by
  have hg := p.gainMax_pos
  unfold HostParams.gain
  split
  · norm_num
  · split
    · generalize ((s - p.low) / (p.high - p.low)) ^ 2 = v
      have h0 : 0 ≤ max 0 (min 1 v) := le_max_left _ _
      have h1 : max 0 (min 1 v) ≤ 1 := max_le zero_le_one (min_le_left _ _)
      rcases h1.eq_or_lt with h | h
      · rw [h]
        linarith
      · have := mul_nonneg hg.le h0
        linarith
    · exact hg

/-- A delta is positive, negative or zero as the motion is. -/
theorem deltaOf_sign (p : HostParams) (allowGain : Bool) (s : ℚ) (rawPosition baseline : Int) :
    (0 < deltaOf rawPosition baseline (p.gain allowGain s) ↔ baseline < rawPosition) ∧
    (deltaOf rawPosition baseline (p.gain allowGain s) < 0 ↔ rawPosition < baseline) ∧
    (deltaOf rawPosition baseline (p.gain allowGain s) = 0 ↔ rawPosition = baseline) := by
  have h := gain_pos p allowGain s
  unfold deltaOf
  refine ⟨?_, ?_, ?_⟩
  · rw [mul_pos_iff_of_pos_right h, Int.cast_pos, sub_pos]
  · rw [← neg_pos, ← neg_mul, mul_pos_iff_of_pos_right h, neg_pos, Int.cast_lt_zero, sub_neg]
  · rw [mul_eq_zero, or_iff_left h.ne', Int.cast_eq_zero, sub_eq_zero]

/-- A step has the sign of its delta (R187, R188). -/
theorem stepOf_sign (p : HostParams) (k : ParamKind) (position delta : ℚ) :
    (0 < p.stepOf k position delta ↔ 0 < delta) ∧ (p.stepOf k position delta < 0 ↔ delta < 0) := by
  unfold HostParams.stepOf
  split
  · next h => simp [h]
  · next h =>
    split
    · have hu : (0 : ℚ) < p.upper := by exact_mod_cast p.upper_pos
      have hm : 0 < min (max |delta| (p.minStep k position)) (p.upper : ℚ) :=
        lt_min (lt_max_of_lt_left (abs_pos.2 h)) hu
      split
      · next hd =>
        rw [neg_one_mul, neg_pos, neg_lt_zero]
        exact ⟨⟨fun h => absurd h hm.not_gt, fun h => absurd h hd.not_gt⟩, ⟨fun _ => hd, fun _ => hm⟩⟩
      · next hd =>
        have hp : 0 < delta := lt_of_le_of_ne (not_lt.1 hd) (Ne.symm h)
        rw [one_mul]
        exact ⟨⟨fun _ => hp, fun _ => hm⟩, ⟨fun h => absurd h hm.not_gt, fun h => absurd h hd⟩⟩
    · exact ⟨Iff.rfl, Iff.rfl⟩

/-! ## The operands sent (R190) -/

/-- A time operand lies in [min, max]. -/
theorem timeUs_mem (p : HostParams) (k : ParamKind) {target : Nat} (h : target ≤ p.upper) :
    (p.minUs k).toNat ≤ (p.timeUs k target).toNat ∧ (p.timeUs k target).toNat ≤ (p.maxUs k).toNat := by
  have hn := abs_lt.1 (p.timeUs_near k target h)
  have hlo : (1 : ℝ) ≤ ((p.minUs k).toNat : ℝ) := by exact_mod_cast p.minUs_pos k
  have hle : ((p.minUs k).toNat : ℝ) ≤ ((p.maxUs k).toNat : ℝ) := by exact_mod_cast p.minUs_le k
  have hup : (0 : ℝ) < (p.upper : ℝ) := by exact_mod_cast p.upper_pos
  have he0 : (0 : ℝ) ≤ (target : ℝ) / (p.upper : ℝ) := by positivity
  have he1 : (target : ℝ) / (p.upper : ℝ) ≤ 1 := (div_le_one hup).2 (by exact_mod_cast h)
  have hq : (1 : ℝ) ≤ ((p.maxUs k).toNat : ℝ) / ((p.minUs k).toNat : ℝ) := (one_le_div (by linarith)).2 hle
  have hx1 := Real.one_le_rpow hq he0
  have hx2 := Real.rpow_le_rpow_of_exponent_le hq he1
  rw [Real.rpow_one] at hx2
  have hm : ((p.minUs k).toNat : ℝ) * (((p.maxUs k).toNat : ℝ) / ((p.minUs k).toNat : ℝ)) =
      ((p.maxUs k).toNat : ℝ) := mul_div_cancel₀ _ (by linarith)
  have hb1 := mul_le_mul_of_nonneg_left hx1 (by linarith : (0 : ℝ) ≤ ((p.minUs k).toNat : ℝ))
  have hb2 := mul_le_mul_of_nonneg_left hx2 (by linarith : (0 : ℝ) ≤ ((p.minUs k).toNat : ℝ))
  rw [hm] at hb2
  constructor
  · have : ((p.minUs k).toNat : ℝ) < ((p.timeUs k target).toNat : ℝ) + 1 := by linarith
    have : (p.minUs k).toNat < (p.timeUs k target).toNat + 1 := by exact_mod_cast this
    omega
  · have : ((p.timeUs k target).toNat : ℝ) < ((p.maxUs k).toNat : ℝ) + 1 := by linarith
    have : (p.timeUs k target).toNat < (p.maxUs k).toNat + 1 := by exact_mod_cast this
    omega

/-- The level operand lies in [0, R_max] and is the rounded linear map. -/
theorem roundLevel_mem (p : HostParams) {target : Int} (h0 : 0 ≤ target) (h1 : target ≤ p.sustainUpper) :
    0 ≤ p.roundLevel.toInt (p.physicalLevel target) ∧
    p.roundLevel.toInt (p.physicalLevel target) ≤ p.rMax := by
  have hu : (0 : ℚ) < (p.sustainUpper : ℚ) := by exact_mod_cast p.sustainUpper_pos
  have ht : (0 : ℚ) ≤ (target : ℚ) := by exact_mod_cast h0
  have ht1 : (target : ℚ) ≤ (p.sustainUpper : ℚ) := by exact_mod_cast h1
  have hr : (0 : ℚ) ≤ (p.rMax : ℚ) := Nat.cast_nonneg _
  constructor
  · apply Rounding.le_toInt
    simp only [HostParams.physicalLevel, Int.cast_zero]
    positivity
  · apply Rounding.toInt_le
    rw [HostParams.physicalLevel, div_le_iff₀ hu, mul_comm]
    exact mul_le_mul_of_nonneg_left ht1 hr

/-- With `R_max` read as R-1 (C5) the level sent is in [0, R-1]. -/
theorem sustain_setter_in_range (p : HostParams) (cfg : Config) (hp : p.ReadsRMaxAsTop cfg) (c : Channel)
    {target : Int} (h0 : 0 ≤ target) (h1 : target ≤ p.sustainUpper) :
    ∃ us : Micros, p.setter .sustain c target = .setSustain c us ∧ us.toNat ≤ cfg.top ∧
      (us.toNat : Int) = p.roundLevel.toInt (p.physicalLevel target) := by
  obtain ⟨a, b⟩ := roundLevel_mem p h0 h1
  have hlt := p.rMax_lt
  refine ⟨_, rfl, ?_⟩
  rw [BitVec.toNat_ofNat, Nat.mod_eq_of_lt (by omega), ← hp]
  omega

/-- A time map as `HostParams` asks for exists for every range and every `upper`: the floor is one. -/
theorem exists_timeMap (lo hi : Micros) (upper : Nat) (h0 : 0 < lo.toNat) (h1 : lo.toNat ≤ hi.toNat)
    (hu : 0 < upper) :
    ∃ f : Nat → Micros, ∀ target, target ≤ upper →
      |((f target).toNat : ℝ) -
        (lo.toNat : ℝ) * ((hi.toNat : ℝ) / (lo.toNat : ℝ)) ^ ((target : ℝ) / (upper : ℝ))| < 1 := by
  have hlo : (1 : ℝ) ≤ (lo.toNat : ℝ) := by exact_mod_cast h0
  have hle : (lo.toNat : ℝ) ≤ (hi.toNat : ℝ) := by exact_mod_cast h1
  have hq : (1 : ℝ) ≤ (hi.toNat : ℝ) / (lo.toNat : ℝ) := (one_le_div (by linarith)).2 hle
  refine ⟨fun target => BitVec.ofNat 32
    ⌊(lo.toNat : ℝ) * ((hi.toNat : ℝ) / (lo.toNat : ℝ)) ^ ((target : ℝ) / (upper : ℝ))⌋₊, ?_⟩
  intro target ht
  beta_reduce
  have he1 : (target : ℝ) / (upper : ℝ) ≤ 1 :=
    (div_le_one (by exact_mod_cast hu)).2 (by exact_mod_cast ht)
  have hx2 := Real.rpow_le_rpow_of_exponent_le hq he1
  rw [Real.rpow_one] at hx2
  have hb2 := mul_le_mul_of_nonneg_left hx2 (by linarith : (0 : ℝ) ≤ (lo.toNat : ℝ))
  rw [mul_div_cancel₀ _ (by linarith : (lo.toNat : ℝ) ≠ 0)] at hb2
  generalize hv : (lo.toNat : ℝ) * ((hi.toNat : ℝ) / (lo.toNat : ℝ)) ^ ((target : ℝ) / (upper : ℝ)) = v at hb2
  have hv0 : 0 ≤ v := by rw [← hv]; positivity
  have hf : ⌊v⌋₊ ≤ hi.toNat := Nat.floor_le_of_le hb2
  have h32 := hi.isLt
  have h1 := Nat.floor_le hv0
  have h2 := Nat.lt_floor_add_one v
  rw [BitVec.toNat_ofNat, Nat.mod_eq_of_lt (by omega), abs_lt]
  constructor <;> linarith

/-- The floor is a rounding. -/
theorem floor_near (x : ℚ) : |((⌊x⌋ : Int) : ℚ) - x| < 1 := by
  have := Int.floor_le x
  have := Int.lt_floor_add_one x
  rw [abs_lt]
  constructor <;> linarith

/-- The conditions on the open parameters can be met together, here with ranges from 10 microseconds to 20
seconds. -/
theorem exists_hostParams : Nonempty HostParams := by
  obtain ⟨f, hf⟩ := exists_timeMap 10#32 20000000#32 1000 (by decide) (by decide) (by decide)
  exact ⟨{
    upper := 1000, upper_pos := by decide, sustainUpper := 100, sustainUpper_pos := by decide
    rMax := 4095, rMax_lt := by decide
    low := 1, high := 10, gainMax := 8, gainMax_pos := by decide
    averageBefore := fun _ => 0
    roundAverage := id
    roundAverage_near := by simp
    admits := fun _ _ => true
    minStep := fun _ _ => 1
    wrapThreshold := 1000000, wrapThreshold_beyond := by decide
    quantize := ⟨Int.floor, floor_near⟩
    minUs := fun _ => 10#32, minUs_pos := fun _ => by decide
    maxUs := fun _ => 20000000#32, minUs_le := fun _ => by decide
    timeUs := fun _ => f
    timeUs_near := fun _ target h => hf target h
    roundLevel := ⟨Int.floor, floor_near⟩
    initialTarget := fun _ _ => 0, initialTarget_le := fun _ _ => Nat.zero_le _
    initialReference := fun _ _ => 0
    initialAllowGain := false }⟩

/-! ## Every record is settled between two reads -/

/-- The initial records (R181). -/
theorem initial_settled (p : HostParams) (k : ParamKind) (c : Channel) :
    (ParamRecord.initial p k c).Settled p k :=
  ⟨Int.natCast_nonneg _, Int.ofNat_le.2 (p.initialTarget_le k c), fun h => absurd rfl h⟩

@[simp] theorem initial_record (p : HostParams) (k : ParamKind) (c : Channel) :
    (ParameterState.initial p).record k c = ParamRecord.initial p k c := by
  cases k <;> exact bankGet_bankOf _ _

/-- A resync keeps it (R183). -/
theorem forget_settled {p : HostParams} {k : ParamKind} {x : ParamRecord} (h : x.Settled p k) :
    x.forget.Settled p k := ⟨h.1, h.2.1, fun h => absurd rfl h⟩

/-- What step 6 leaves is settled, whatever the step and the record before it (R189, R191). -/
theorem accumulate_settled (p : HostParams) (k : ParamKind) (step : ℚ) (x : ParamRecord) :
    (x.accumulate p k step).Settled p k := by
  obtain ⟨a, b⟩ := clampRange_int (p.upperOf k)
    (p.quantize.toInt
      (if p.wrapThreshold < p.quantize.toInt (x.unquantized + step) then 0 else x.unquantized + step))
  obtain ⟨d, e⟩ := clampRange_rat (p.upperOf k)
    (if p.wrapThreshold < p.quantize.toInt (x.unquantized + step) then 0 else x.unquantized + step)
  exact ⟨a, b, fun _ => ⟨d, e, clampRange_quantize _ _ _⟩⟩

/-- A read leaves a settled record (R184 to R191). -/
theorem read_settled {p : HostParams} {k : ParamKind} {x : ParamRecord} (h : x.Settled p k) (c : Channel)
    (pos speed : Int) (f : EncoderFilter) : (x.read p k c pos speed f).record.Settled p k := by
  obtain ⟨h0, h1, _⟩ := h
  cases hb : x.baselineRaw with
  | none =>
    simp only [ParamRecord.read, hb]
    refine ⟨h0, h1, fun _ => ⟨Int.cast_nonneg h0, (Int.cast_le.2 h1).trans_eq (Int.cast_natCast _), ?_⟩⟩
    rw [Rounding.toInt_intCast]
    simp only [clampRange]
    omega
  | some b =>
    simp only [ParamRecord.read, hb]
    obtain ⟨a, b, d⟩ := accumulate_settled p k (p.stepOf k x.unquantized
      (deltaOf pos b (p.gain (f.push p speed).allowGain (p.average (f.push p speed).window)))) x
    exact ⟨a, b, fun _ => d (by simp [ParamRecord.accumulate, hb])⟩

/-- A read takes the position as the baseline (R184, R191). -/
theorem read_baseline (p : HostParams) (k : ParamKind) (c : Channel) (pos speed : Int) (x : ParamRecord)
    (f : EncoderFilter) : (x.read p k c pos speed f).record.baselineRaw = some pos := by
  unfold ParamRecord.read
  split <;> rfl

/-! ## The testable properties (R194) -/

/-- A read at the baseline moves no target: zero delta, zero step, even with the minimum-step floor. -/
theorem read_zero_delta {p : HostParams} {k : ParamKind} {x : ParamRecord} {pos : Int} (h : x.Settled p k)
    (hb : x.baselineRaw = some pos) (c : Channel) (speed : Int) (f : EncoderFilter) :
    (x.read p k c pos speed f).record.targetValue = x.targetValue := by
  obtain ⟨_, _, h2⟩ := h
  obtain ⟨hr0, hr1, hc⟩ := h2 (by simp [hb])
  have hw : ¬ p.wrapThreshold < p.quantize.toInt x.unquantized := by
    have := p.quantize.toInt_le (n := (p.upperOf k : Int)) (by exact_mod_cast hr1)
    have := upperOf_le_wrapThreshold p k
    omega
  simp [ParamRecord.read, hb, deltaOf, HostParams.stepOf, ParamRecord.accumulate, hw, hc]

/-- The first property of R194: the position constant across calls after the first, the target never changes,
whatever the speeds. -/
theorem constant_position_keeps_target {p : HostParams} {k : ParamKind} {x : ParamRecord} (h : x.Settled p k)
    (c : Channel) (pos speed : Int) (f : EncoderFilter) (speeds : List Int) :
    ((x.read p k c pos speed f).record.readsAt p k c pos speeds (x.read p k c pos speed f).filter).1.targetValue
      = (x.read p k c pos speed f).record.targetValue := by
  have fold : ∀ (speeds : List Int) (y : ParamRecord) (g : EncoderFilter), y.Settled p k →
      y.baselineRaw = some pos → (y.readsAt p k c pos speeds g).1.targetValue = y.targetValue := by
    intro speeds
    induction speeds with
    | nil => exact fun _ _ _ _ => rfl
    | cons v rest ih =>
      intro y g hy hb
      exact (ih _ _ (read_settled hy c pos v g) (read_baseline p k c pos v y g)).trans
        (read_zero_delta hy hb c v g)
  exact fold speeds _ _ (read_settled h c pos speed f) (read_baseline p k c pos speed x f)

/-- The first read after a resync keeps the target and sends nothing (R184, R194). -/
theorem read_after_resync (p : HostParams) (k : ParamKind) (c : Channel) (pos speed : Int) (x : ParamRecord)
    (f : EncoderFilter) :
    (x.forget.read p k c pos speed f).record.targetValue = x.targetValue ∧
    (x.forget.read p k c pos speed f).sent = none := ⟨rfl, rfl⟩

/-- A resync of one channel changes no target, and no record of another channel (R181, R183, R194). -/
theorem onResync_record (m : ParameterState) (k : ParamKind) (c d : Channel) :
    (m.onResync c).record k d = if d = c then (m.record k c).forget else m.record k d := by
  cases k <;> exact bankGet_bankSet _ _ _ _

theorem setRecord_record (m : ParameterState) (k l : ParamKind) (c d : Channel) (x : ParamRecord) :
    (m.setRecord k c x).record l d = if l = k ∧ d = c then x else m.record l d := by
  cases k <;> cases l <;>
    first
    | (simp only [true_and]; exact bankGet_bankSet _ _ _ _)
    | simp [ParameterState.setRecord, ParameterState.record]

/-- Which records one input changes (R183, R193). -/
theorem handle_record (m : ParameterState) (p : HostParams) (x : ControllerInput) (k : ParamKind)
    (c : Channel) :
    ((m.handle p x).1.record k c = m.record k c) ∨
    (x = .resync c ∧ (m.handle p x).1.record k c = (m.record k c).forget) ∨
    (∃ pos speed f, x = .read k c pos speed f ∧
      (m.handle p x).1.record k c = ((m.record k c).read p k c pos speed f).record) := by
  cases x with
  | resync d =>
    by_cases h : c = d
    · subst h
      exact .inr (.inl ⟨rfl, by simp only [ParameterState.handle, onResync_record, if_true]⟩)
    · exact .inl (by simp only [ParameterState.handle, onResync_record, if_neg h])
  | read l d pos speed f =>
    by_cases h : k = l ∧ c = d
    · obtain ⟨rfl, rfl⟩ := h
      exact .inr (.inr ⟨pos, speed, f, rfl, by
        simp only [ParameterState.handle, ParameterState.read, setRecord_record, true_and, if_true]⟩)
    · exact .inl (by
        simp only [ParameterState.handle, ParameterState.read, setRecord_record, if_neg h])

/-- Every record is settled, whatever the controller has handled since its start. -/
theorem handleAll_settled (p : HostParams) (xs : List ControllerInput) (k : ParamKind) (c : Channel) :
    (((ParameterState.initial p).handleAll p xs).1.record k c).Settled p k := by
  have run : ∀ (xs : List ControllerInput) (m : ParameterState), (m.record k c).Settled p k →
      ((m.handleAll p xs).1.record k c).Settled p k := by
    intro xs
    induction xs with
    | nil => exact fun _ h => h
    | cons x rest ih =>
      intro m h
      apply ih
      rcases handle_record m p x k c with e | ⟨_, e⟩ | ⟨pos, speed, f, _, e⟩ <;> rw [e]
      · exact h
      · exact forget_settled h
      · exact read_settled h c pos speed f
  exact run xs _ (by rw [initial_record]; exact initial_settled p k c)

/-- R194, first property, for every value of the open parameters. -/
theorem constantPositionKeepsTarget (p : HostParams) : p.ConstantPositionKeepsTarget :=
  fun before k c pos speed f speeds =>
    constant_position_keeps_target (handleAll_settled p before k c) c pos speed f speeds

@[simp] theorem setter_channel (p : HostParams) (k : ParamKind) (c : Channel) (target : Int) :
    (p.setter k c target).chBits.toFin = c := by
  cases k <;> rfl

/-- A word sent goes to the selected channel (R190, R193). -/
theorem handle_sent {m : ParameterState} {p : HostParams} {x : ControllerInput} {c : Channel}
    (h : x.sparesChannel c = true) {i : Instr} (hi : (m.handle p x).2 = some i) : i.chBits.toFin ≠ c := by
  cases x with
  | resync d => cases hi
  | read k d pos speed f =>
    have hd : d ≠ c := by simpa [ControllerInput.sparesChannel] using h
    simp only [ParameterState.handle, ParameterState.read, ParamRecord.read] at hi
    split at hi
    · cases hi
    · cases hi
      rwa [setter_channel]

/-- A forgotten record stays as it is until its channel is read (R181, R183). -/
theorem handle_forgotten {m : ParameterState} {p : HostParams} {x : ControllerInput} {c : Channel}
    (h : x.sparesChannel c = true) {k : ParamKind} {y : ParamRecord} (hm : m.record k c = y.forget) :
    (m.handle p x).1.record k c = y.forget := by
  rcases handle_record m p x k c with e | ⟨_, e⟩ | ⟨pos, speed, f, rfl, _⟩
  · rw [e, hm]
  · rw [e, hm]
    rfl
  · simp [ControllerInput.sparesChannel] at h

/-- R194, second property, for every value of the open parameters. -/
theorem switchKeepsTargets (p : HostParams) : p.SwitchKeepsTargets := by
  intro m c between hb
  have run : ∀ (xs : List ControllerInput) (n : ParameterState), (∀ x ∈ xs, x.sparesChannel c = true) →
      (∀ k, n.record k c = (m.record k c).forget) →
      (∀ k, (n.handleAll p xs).1.record k c = (m.record k c).forget) ∧
      ∀ i ∈ (n.handleAll p xs).2, i.chBits.toFin ≠ c := by
    intro xs
    induction xs with
    | nil => exact fun n _ hn => ⟨hn, fun i hi => absurd hi List.not_mem_nil⟩
    | cons x rest ih =>
      intro n hx hn
      have hx0 := hx x List.mem_cons_self
      obtain ⟨h1, h2⟩ := ih (n.handle p x).1 (fun y hy => hx y (List.mem_cons_of_mem _ hy))
        (fun k => handle_forgotten hx0 (hn k))
      refine ⟨h1, fun i hi => ?_⟩
      rcases List.mem_append.1 hi with hi | hi
      · exact handle_sent hx0 (Option.mem_toList.1 hi)
      · exact h2 i hi
  obtain ⟨h1, h2⟩ := run between (m.onResync c) hb (fun k => by rw [onResync_record, if_pos rfl])
  refine ⟨fun k => by rw [h1]; rfl, h2, fun k pos speed f => ?_⟩
  simp only [ParameterState.read, setRecord_record, true_and, if_true, h1]
  exact ⟨rfl, rfl⟩

end Sys2Proof.Machine
end

