-- ==== Sys2Proof/Laws/Level.lean ====
section
/-! SUPPORT. The parts of LEVEL: the interpolation, the rescales and the choice of the sub-phase. -/

namespace Sys2Proof.Machine

theorem top_pos {cfg : Config} (h : cfg.Legal) : 0 < cfg.top := by
  have := h.1
  simp only [Config.top]
  omega

theorem last_pos {cfg : Config} (h : cfg.Legal) : 0 < cfg.last := by
  have := h.2.2.1
  simp only [Config.last]
  omega

/-! ## The blend and the interpolation (R121) -/

theorem le_blend {a b d r m : Nat} (hr : r < d) (ha : m ≤ a) (hb : m ≤ b) :
    m ≤ (a * (d - r) + b * r) / d := by
  rw [Nat.le_div_iff_mul_le (by omega)]
  calc m * d = m * (d - r) + m * r := by rw [← Nat.mul_add]; congr 1; omega
    _ ≤ _ := Nat.add_le_add (Nat.mul_le_mul_right _ ha) (Nat.mul_le_mul_right _ hb)

theorem blend_le {a b d r m : Nat} (hr : r < d) (ha : a ≤ m) (hb : b ≤ m) :
    (a * (d - r) + b * r) / d ≤ m := by
  apply Nat.div_le_of_le_mul
  calc a * (d - r) + b * r ≤ m * (d - r) + m * r :=
        Nat.add_le_add (Nat.mul_le_mul_right _ ha) (Nat.mul_le_mul_right _ hb)
    _ = d * m := by rw [← Nat.mul_add, Nat.mul_comm]; congr 1; omega

theorem interp_of_lt {cfg : Config} {table : Table} {p d : Nat} (h : p < cfg.last * d) :
    interp cfg table p d =
      (tableEntry cfg table (p / d) * (d - p % d) + tableEntry cfg table (p / d + 1) * (p % d)) / d := by
  rw [interp, if_neg (by omega)]

theorem interp_of_ge {cfg : Config} {table : Table} {p d : Nat} (h : cfg.last * d ≤ p) :
    interp cfg table p d = tableEntry cfg table cfg.last := by
  rw [interp, if_pos h]

theorem index_lt {p d l : Nat} (h : p < l * d) : p / d < l :=
  Nat.div_lt_of_lt_mul (by rwa [Nat.mul_comm] at h)

/-! ## The rescales (R122, R123, R125) -/

@[simp] theorem rescaleAbove_zero (cfg : Config) (start : Level) :
    rescaleAbove cfg start 0 = start.toNat := by
  simp [rescaleAbove]

theorem rescaleAbove_top {cfg : Config} (h : cfg.Legal) {start : Level}
    (hs : start.toNat ≤ cfg.top) : rescaleAbove cfg start cfg.top = cfg.top := by
  rw [rescaleAbove, Nat.mul_div_cancel_left _ (top_pos h)]
  omega

theorem rescaleAbove_le {cfg : Config} {start : Level} (hs : start.toNat ≤ cfg.top) {v : Nat}
    (hv : v ≤ cfg.top) : rescaleAbove cfg start v ≤ cfg.top := by
  have : v * (cfg.top - start.toNat) / cfg.top ≤ cfg.top - start.toNat :=
    Nat.div_le_of_le_mul (Nat.mul_le_mul_right _ hv)
  simp only [rescaleAbove]
  omega

theorem rescaleAbove_mono {cfg : Config} {start : Level} {v w : Nat} (h : v ≤ w) :
    rescaleAbove cfg start v ≤ rescaleAbove cfg start w :=
  Nat.add_le_add_left (Nat.div_le_div_right (Nat.mul_le_mul_right _ h)) _

@[simp] theorem rescaleBelow_zero (cfg : Config) (start : Level) : rescaleBelow cfg start 0 = 0 := by
  simp [rescaleBelow]

theorem rescaleBelow_top {cfg : Config} (h : cfg.Legal) (start : Level) :
    rescaleBelow cfg start cfg.top = start.toNat := by
  rw [rescaleBelow, Nat.mul_div_cancel_left _ (top_pos h)]

theorem rescaleBelow_le {cfg : Config} {start : Level} {v : Nat} (hv : v ≤ cfg.top) :
    rescaleBelow cfg start v ≤ start.toNat :=
  Nat.div_le_of_le_mul (Nat.mul_le_mul_right _ hv)

theorem rescaleBelow_mono {cfg : Config} {start : Level} {v w : Nat} (h : v ≤ w) :
    rescaleBelow cfg start v ≤ rescaleBelow cfg start w :=
  Nat.div_le_div_right (Nat.mul_le_mul_right _ h)

/-! ## The sub-phase (R116 to R118) -/

theorem elapsed_pressed {e : Engine} (h : e.pressed = true) (t : Time) :
    elapsed e t = t.toNat - e.tNoteOn.toNat := by
  simp [elapsed, h, satSub]

theorem elapsed_released {e : Engine} (h : e.pressed = false) (t : Time) :
    elapsed e t = t.toNat - e.tNoteOff.toNat := by
  simp [elapsed, h, satSub]

theorem elapsed_mono (e : Engine) {t u : Time} (h : t.toNat ≤ u.toNat) : elapsed e t ≤ elapsed e u := by
  unfold elapsed satSub
  split <;> omega

theorem subPhase_pressed {e : Engine} (h : e.pressed = true) (t : Time) :
    subPhase e t =
      if elapsed e t < e.attackUs.toNat ∨ e.attackUs = 0#32 then .attack
      else if elapsed e t < e.attackUs.toNat + e.decayUs.toNat then .decay else .sustain := by
  simp [subPhase, h]

theorem subPhase_released {e : Engine} (h : e.pressed = false) (t : Time) :
    subPhase e t = if elapsed e t < e.releaseUs.toNat ∨ e.releaseUs = 0#32 then .release else .off := by
  simp [subPhase, h]

/-- A W_L-bit register that holds the natural number LEVEL. -/
theorem level_eq_of_toNat {cfg : Config} {e : Engine} {t : Time} {l : Level}
    (hw : l.width = cfg.levelWidth) (hl : l.toNat ≤ cfg.top) (h : levelNat cfg e t = l.toNat) :
    level cfg e t = l :=
  level_ext hw.symm (by rw [level, levelOf_toNat (by omega), h])

end Sys2Proof.Machine
end

