-- ==== Sys2Proof/Laws/Ops.lean ====
section
/-! SUPPORT. What each shared operation of Machine/Ops.lean, Flags.lean and Fetch.lean can do, said once;
later proofs cite these and unfold none of them. -/

namespace Sys2Proof.Machine

/-! ## The saturating count (R24) -/

theorem noteOn_notesHeld_cases (t : Time) (e : Engine) :
    (e.noteOn t).notesHeld = if e.notesHeld = 255#8 then 255#8 else e.notesHeld + 1#8 := by
  have h : ∀ x : BitVec 8,
      BitVec.ofNat 8 (min (x.toNat + 1) 255) = if x = 255#8 then 255#8 else x + 1#8 := by decide
  exact h _

theorem noteOff_notesHeld_toNat (t : Time) (e : Engine) :
    (e.noteOff t).notesHeld.toNat = e.notesHeld.toNat - 1 := by
  have := e.notesHeld.isLt
  unfold Engine.noteOff
  split <;> simp <;> omega

/-- `note_off()` on the register and on the source's counter (R112, R221). -/
theorem noteOff_sourceCount (t : Time) (e : Engine) :
    ((e.noteOff t).notesHeld.toNat : Int) = sourceCount e.notesHeld.toNat false := by
  rw [noteOff_notesHeld_toNat]
  simp only [sourceCount, Bool.false_eq_true, if_false]
  split <;> omega

/-- `note_on()` on the register and on the source's counter, below the saturation (R110, R221). -/
theorem noteOn_sourceCount (t : Time) (e : Engine) (h : e.notesHeld.toNat < 255) :
    ((e.noteOn t).notesHeld.toNat : Int) = sourceCount e.notesHeld.toNat true := by
  simp only [noteOn_notesHeld, sourceCount, BitVec.toNat_ofNat, if_true]
  omega

/-- One engine's part of NOTE_OFF in its two branches (R112). -/
theorem noteOff_cases (t : Time) (e : Engine) :
    (e.notesHeld.toNat ≤ 1 ∧
      e.noteOff t = { e with notesHeld := 0#8, tNoteOff := t, releaseStartLevel := e.lastOutputLevel }) ∨
    (1 < e.notesHeld.toNat ∧ e.noteOff t = { e with notesHeld := e.notesHeld - 1#8 }) := by
  have h : ∀ x : BitVec 8, 1 < x.toNat → BitVec.ofNat 8 (x.toNat - 1) = x - 1#8 := by decide
  by_cases h1 : e.notesHeld.toNat ≤ 1
  · exact .inl ⟨h1, noteOff_release t e h1⟩
  · exact .inr ⟨by omega, by rw [noteOff_stacked t e h1, h _ (by omega)]⟩

/-! ## The note actions and the setters, as record updates -/

theorem noteOnAct_eq (c : Channel) (t : Time) (s : State) :
    s.noteOnAct c t =
      { s with engines := bankSet s.engines c ((s.engine c).noteOn t), displayDirty := true } := rfl

theorem noteOffAct_eq (c : Channel) (t : Time) (s : State) :
    s.noteOffAct c t =
      { s with engines := bankSet s.engines c ((s.engine c).noteOff t), displayDirty := true } := rfl

theorem setParam_eq (c : Channel) (f : Engine → Engine) (s : State) :
    s.setParam c f =
      { s with engines := bankSet s.engines c (f (s.engine c)), displayDirty := true } := rfl

theorem discard_eq (s : State) : s.discard = { s with cmdErr := true } := by
  simp [State.discard, State.markError]

theorem noteOnAct_engine (c d : Channel) (t : Time) (s : State) :
    (s.noteOnAct c t).engine d = if d = c then (s.engine c).noteOn t else s.engine d :=
  engine_updEngine s c d _

theorem noteOffAct_engine (c d : Channel) (t : Time) (s : State) :
    (s.noteOffAct c t).engine d = if d = c then (s.engine c).noteOff t else s.engine d :=
  engine_updEngine s c d _

theorem setParam_engine (c d : Channel) (f : Engine → Engine) (s : State) :
    (s.setParam c f).engine d = if d = c then f (s.engine c) else s.engine d :=
  engine_updEngine s c d _

/-! ## Taking an input (R66, R83, R85, R88) -/

theorem accept_cases (src : Source) (w : OpWord) (s : State) :
    (∃ i, verdict src w = .execute i ∧ accept src w s = .run i s) ∨
    ((verdict src w = .reserved ∨ verdict src w = .illegalSource) ∧
      accept src w s = .done { s with cmdErr := true }) := by
  unfold accept
  cases h : verdict src w with
  | execute i => exact .inl ⟨i, rfl, rfl⟩
  | reserved => exact .inr ⟨.inl rfl, by rw [discard_eq]⟩
  | illegalSource => exact .inr ⟨.inr rfl, by rw [discard_eq]⟩

/-- What a fetch answers, for every list of inputs. -/
theorem fetch_cases (s : State) :
    (s.inputs = [] ∧ fetch s = .done s) ∨
    (∃ rest, s.inputs = .rst :: rest ∧
      fetch s = .done { State.resetOf s.cfg with inputs := rest, trace := s.trace }) ∨
    (∃ x rest, s.inputs = x :: rest ∧ presented s.seqNext x = none ∧ x ≠ .rst ∧
      fetch s = .done { s with inputs := rest, seqNext := seqMove s.seqNext x }) ∨
    (∃ x rest src w, s.inputs = x :: rest ∧ presented s.seqNext x = some (src, w) ∧
      fetch s = accept src w { s with inputs := rest, seqNext := seqMove s.seqNext x }) := by
  unfold fetch takeInput
  cases h : s.inputs with
  | nil => exact .inl ⟨rfl, rfl⟩
  | cons x rest =>
    by_cases hx : x = .rst
    · subst hx
      exact .inr (.inl ⟨rest, rfl, rfl⟩)
    · cases hp : presented s.seqNext x with
      | none => exact .inr (.inr (.inl ⟨x, rest, rfl, hp, hx, by simp [hp, hx]⟩))
      | some p => exact .inr (.inr (.inr ⟨x, rest, p.1, p.2, rfl, hp, by simp [hp]⟩))

end Sys2Proof.Machine
end

