-- ==== Sys2Proof/Laws/PerInstr.lean ====
section
/-! SUPPORT. The per-instruction family `EncodedFields`: the word of an operation has its row's code in OPC,
zero in Z, its channel bits in CH and its operand bits in OPERAND (30_encoding.md R80, R84). -/

namespace Sys2Proof.Laws.EncodedFields

/-- The four fields of the word of `i` (R80). -/
def Statement (i : Instr) : Prop :=
  opcodeOf (opcField (encode i)) = some i.opcode ∧ zField (encode i) = 0#2 ∧
  chField (encode i) = i.chBits ∧ operandField (encode i) = i.operandBits

theorem of_pack (i : Instr) : Statement i := by
  simp [Statement, encode]

theorem nop : Statement .nop := of_pack _
theorem setAttack (c : Channel) (us : Micros) : Statement (.setAttack c us) := of_pack _
theorem setDecay (c : Channel) (us : Micros) : Statement (.setDecay c us) := of_pack _
theorem setSustain (c : Channel) (level : Micros) : Statement (.setSustain c level) := of_pack _
theorem setRelease (c : Channel) (us : Micros) : Statement (.setRelease c us) := of_pack _
theorem setPolicy (c : Channel) (p : Bool) : Statement (.setPolicy c p) := of_pack _
theorem noteOn (c : Channel) : Statement (.noteOn c) := of_pack _
theorem noteOff (c : Channel) : Statement (.noteOff c) := of_pack _
theorem read (c : Channel) (reg : Reg) (index : BitVec 16) : Statement (.read c reg index) := of_pack _
theorem clrFlags (mask : BitVec 3) : Statement (.clrFlags mask) := of_pack _
theorem eval (c : Channel) : Statement (.eval c) := of_pack _
theorem poll (gates buttons : BitVec 4) : Statement (.poll gates buttons) := of_pack _
theorem tick (n : Micros) : Statement (.tick n) := of_pack _
theorem outAck : Statement .outAck := of_pack _

end Sys2Proof.Laws.EncodedFields
end

