-- ==== Sys2Proof/Laws/Trigger.lean ====
section
/-! SUPPORT. What the parts of POLL can do: the debounce cells, the actions and their dispatch. -/

namespace Sys2Proof.Machine

/-! ## Debounce (R152, R153) -/

@[simp] theorem debounce_raw (cfg : Config) (cell : DebounceCell) (x : Bool) (t : Time) :
    (debounce cfg cell x t).rawLevel = x := rfl

/-- After an accepted transition a cell is stable at the new level. -/
theorem debounce_stable_of_accepts {cfg : Config} {cell : DebounceCell} {x : Bool} {t : Time}
    (h : accepts cfg cell x t = true) : (debounce cfg cell x t).stableLevel = x := by
  simp [debounce, h]

theorem debounce_stable_of_not_accepts {cfg : Config} {cell : DebounceCell} {x : Bool} {t : Time}
    (h : accepts cfg cell x t = false) :
    (debounce cfg cell x t).stableLevel = cell.stableLevel := by
  simp [debounce, h]

theorem changeTime_le {cell : DebounceCell} {x : Bool} {t : Time}
    (h : cell.lastChangeTime.toNat ≤ t.toNat) : (changeTime cell x t).toNat ≤ t.toNat := by
  unfold changeTime
  split <;> omega

@[simp] theorem pollSample_gates (g b : BitVec 4) (s : State) (i : Channel) :
    bankGet (pollSample g b s).gates i = debounce s.cfg (bankGet s.gates i) (inputLevel g i) s.now := by
  simp [pollSample, debounceAll]

@[simp] theorem pollSample_buttons (g b : BitVec 4) (s : State) (i : Channel) :
    bankGet (pollSample g b s).buttons i =
      debounce s.cfg (bankGet s.buttons i) (inputLevel b i) s.now := by
  simp [pollSample, debounceAll]

/-! ## The actions (R160 to R166) -/

/-- A gate action is one note action. -/
theorem gateAction_cases (i : Channel) (p : Bool) (t : Time) (s : State) :
    (p = true ∧ gateAction i p t s = s.noteOnAct i t) ∨
    (p = false ∧ gateAction i p t s = s.noteOffAct i t) := by
  cases p
  · exact .inr ⟨rfl, rfl⟩
  · exact .inl ⟨rfl, rfl⟩

/-- The six cases of a button action (R166). -/
theorem buttonAction_cases (i : Channel) (p : Bool) (t : Time) (s : State) :
    (s.chanSel = i ∧ p = true ∧ buttonAction i p t s = (s.noteOnAct i t).setManual i true) ∨
    (s.chanSel = i ∧ p = false ∧ bankGet s.manualTriggerActive i = true ∧
      buttonAction i p t s = (s.noteOffAct i t).setManual i false) ∨
    (s.chanSel = i ∧ p = false ∧ bankGet s.manualTriggerActive i = false ∧ buttonAction i p t s = s) ∨
    (s.chanSel ≠ i ∧ p = true ∧ pressedButtons s = 2 ∧
      buttonAction i p t s = { s with trace := s.trace ++ [.modeToggle], displayDirty := true }) ∨
    (s.chanSel ≠ i ∧ p = true ∧ pressedButtons s ≠ 2 ∧
      buttonAction i p t s =
        { s with chanSel := i, trace := s.trace ++ [.resync i], displayDirty := true }) ∨
    (s.chanSel ≠ i ∧ p = false ∧ buttonAction i p t s = s) := by
  by_cases hc : s.chanSel = i <;> cases p <;> simp only [buttonAction, hc, if_true, if_false]
  · cases hm : bankGet s.manualTriggerActive i <;> simp [buttonReleaseSelected, hm]
  · simp [buttonPressSelected]
  · simp [hc]
  · by_cases hk : pressedButtons s = 2 <;>
      simp [hc, hk, chordToggle, switchChannel, State.emit, State.markDisplay]

/-! ## The dispatch (R152, R158) -/

theorem dispatch_eq (acc : Channel → Bool) (act : Channel → State → State) (s : State) :
    dispatch acc act s =
      [0, 1, 2, 3].foldl (fun st i => if acc i = true then act i st else st) s := rfl

/-- What every single action keeps, the dispatch keeps. -/
theorem dispatch_keeps {acc : Channel → Bool} {act : Channel → State → State} (P : State → Prop)
    (h : ∀ i st, acc i = true → P st → P (act i st)) {s : State} (hs : P s) :
    P (dispatch acc act s) := by
  have fold : ∀ (l : List Channel) (st : State), P st →
      P (l.foldl (fun st i => if acc i = true then act i st else st) st) := by
    intro l
    induction l with
    | nil => exact fun _ h => h
    | cons i l ih =>
      intro st hst
      apply ih
      by_cases ha : acc i = true
      · simpa [ha] using h i st ha hst
      · simpa [ha] using hst
  exact fold _ s hs

/-- With nothing accepted the dispatch does nothing. -/
theorem dispatch_none {acc : Channel → Bool} {act : Channel → State → State} {s : State}
    (h : ∀ i, acc i = false) : dispatch acc act s = s :=
  dispatch_keeps (P := fun st => st = s) (fun i _ ha _ => by simp [h i] at ha) rfl

/-- With exactly one input accepted the dispatch is that one action. -/
theorem dispatch_one {acc : Channel → Bool} {act : Channel → State → State} {s : State} {i : Channel}
    (h : ∀ j, acc j = true ↔ j = i) : dispatch acc act s = act i s := by
  have h0 : ∀ j, acc j = decide (j = i) := fun j => by
    rw [Bool.eq_iff_iff, h j]; simp
  rw [dispatch_eq]
  simp only [List.foldl, h0]
  fin_cases i <;> simp

end Sys2Proof.Machine
end

