-- ==== Sys2Proof/Tests/Slice0.lean ====
section
/-! SUPPORT. Tests with results taken from spec/ (the worked encodings R94, the vectors of
95_test_vectors.md, the examples of the instruction rules), and a witness for the hypotheses of every
obligation that has some. -/

namespace Sys2Proof.Tests

-- one theorem after another: many at once need more memory than the check allows
set_option Elab.async false

open Sys2Proof Sys2Proof.Machine

/-! ## Helpers -/

/-- The next state of an operation, if it has one. -/
def after (i : Instr) (s : State) : Option State :=
  match exec i s with
  | .next t => some t
  | .fault _ => none
  | .refused _ => none

/-- The next state of a step, if it has one. -/
def stepped (s : State) : Option State :=
  match step s with
  | .next t => some t
  | .fault _ => none
  | .refused _ => none

/-- `now` set directly. -/
def atNow (n : Time) (s : State) : State := { s with now := n }

/-- One engine's fields set directly. -/
def withEngine (c : Channel) (e : Engine) (s : State) : State := s.updEngine c (fun _ => e)

/-- The inputs set directly. -/
def presenting (xs : List Input) (s : State) : State := { s with inputs := xs }

/-- The engine of the LEVEL vectors, pressed at 1000 (95_test_vectors.md section 4). -/
def e1000 : Engine := { Engine.resetOf Config.default with tNoteOn := 1000#64 }

/-- The engine of vector L4, released at 201000. -/
def eReleased : Engine := { e1000 with tNoteOff := 201000#64, releaseStartLevel := ⟨12, 2500#12⟩ }

/-- The default configuration with no debounce interval (vector P1). -/
def noDebounce : Config := { Config.default with tDbUs := 0#32 }

/-- Reset with no debounce interval, at time 5. -/
def poll0 : State := atNow 5#64 (State.resetOf noDebounce)

/-- A cell that holds the pressed level, as at the end of the first half of vector P1. -/
def pressedCell : DebounceCell := ⟨true, true, 5#64⟩

/-- `poll0` with one gate or one button held. -/
def gateHeld (i : Channel) : State := { poll0 with gates := bankSet poll0.gates i pressedCell }
def buttonHeld (i : Channel) : State := { poll0 with buttons := bankSet poll0.buttons i pressedCell }

/-! ## Well-formed and ill-formed operations (R81, R82, R86) -/

theorem test_wf_refuses_channel_of_global_register : Instr.wellFormed (.read 1 .now 0#16) = false := by
  decide
theorem test_wf_refuses_index_of_plain_register :
    Instr.wellFormed (.read 1 .notesHeld 1#16) = false := by decide
theorem test_wf_refuses_channel_of_table_window :
    Instr.wellFormed (.read 3 .lutAtt 7#16) = false := by decide
theorem test_wf_accepts_table_window : Instr.wellFormed (.read 0 .lutDr 255#16) = true := by decide

/-! ## Decoding, each word written out from its fields OPC, CH, Z, OPERAND (R80, R82, R84, R94) -/

theorem test_decode_nop : decode (0b0000#4 ++ 0b00#2 ++ 0b00#2 ++ 0#32) = .ok .nop := by decide
theorem test_decode_setAttack :
    decode (0b0001#4 ++ 0b10#2 ++ 0b00#2 ++ 100000#32) = .ok (.setAttack 2 100000#32) := by decide
theorem test_decode_setDecay :
    decode (0b0010#4 ++ 0b00#2 ++ 0b00#2 ++ 100000#32) = .ok (.setDecay 0 100000#32) := by decide
theorem test_decode_setSustain :
    decode (0b0011#4 ++ 0b11#2 ++ 0b00#2 ++ 2500#32) = .ok (.setSustain 3 2500#32) := by decide
theorem test_decode_setRelease :
    decode (0b0100#4 ++ 0b01#2 ++ 0b00#2 ++ 1000000#32) = .ok (.setRelease 1 1000000#32) := by decide
theorem test_decode_setPolicy :
    decode (0b0101#4 ++ 0b01#2 ++ 0b00#2 ++ 1#32) = .ok (.setPolicy 1 true) := by decide
theorem test_decode_noteOn : decode (0b0110#4 ++ 0b00#2 ++ 0b00#2 ++ 0#32) = .ok (.noteOn 0) := by
  decide
theorem test_decode_noteOff : decode (0b0111#4 ++ 0b11#2 ++ 0b00#2 ++ 0#32) = .ok (.noteOff 3) := by
  decide
theorem test_decode_read :
    decode (0b1000#4 ++ 0b10#2 ++ 0b00#2 ++ (0#8 ++ 0#16 ++ 0#3 ++ 0x0A#5 : BitVec 32)) =
      .ok (.read 2 .lastOutputLevel 0#16) := by decide
theorem test_decode_read_table :
    decode (0b1000#4 ++ 0b00#2 ++ 0b00#2 ++ (0#8 ++ 128#16 ++ 0#3 ++ 0x14#5 : BitVec 32)) =
      .ok (.read 0 .lutAtt 128#16) := by decide
theorem test_decode_clrFlags :
    decode (0b1001#4 ++ 0b00#2 ++ 0b00#2 ++ 0b101#32) = .ok (.clrFlags 0b101#3) := by decide
theorem test_decode_eval : decode (0b1010#4 ++ 0b01#2 ++ 0b00#2 ++ 0#32) = .ok (.eval 1) := by decide
theorem test_decode_poll :
    decode (0b1011#4 ++ 0b00#2 ++ 0b00#2 ++ (0#24 ++ 0b0100#4 ++ 0b0001#4 : BitVec 32)) =
      .ok (.poll 0b0001#4 0b0100#4) := by decide
theorem test_decode_tick : decode (0b1100#4 ++ 0b00#2 ++ 0b00#2 ++ 5000#32) = .ok (.tick 5000#32) := by
  decide
theorem test_decode_outAck : decode (0b1101#4 ++ 0b00#2 ++ 0b00#2 ++ 0#32) = .ok .outAck := by decide

/-- X9: a NOP with CH = 3 and a non-zero operand is NOP. -/
theorem test_decode_ignored_bits : decode 0x0C00ABCDEF#40 = .ok .nop := by decide
/-- X5: READ 3, 0x16. -/
theorem test_decode_reserved_register : decode 0x8C00000016#40 = .ok (.read 0 (.reserved 0) 0#16) := by
  decide
/-- X10. -/
theorem test_decode_reserved_z : decode 0x3FFFFFFFFF#40 = .error (.reservedZ 3#2) := by decide
/-- X12. -/
theorem test_decode_reserved_opcode : decode 0xF000000000#40 = .error (.reservedOpcode 0xF#4) := by
  decide

/-! ## One step of each operation -/

/-- R200: NOP. -/
theorem test_nop : after .nop State.reset = some State.reset := by decide +kernel
/-- X13: TICK 5 on the host port is discarded. -/
theorem test_wrong_source :
    (stepped (presenting [.word .host 0xC000000005#40] State.reset)).map
      (fun t => (t.now, t.cmdErr, t.inputs)) = some (0#64, true, []) := by decide +kernel
/-- X11: Z = 2 on an EVAL from SEQ is discarded, no event. -/
theorem test_reserved_word :
    (stepped (presenting [.word .seq 0xA200000000#40] State.reset)).map
      (fun t => (t.trace, t.cmdErr)) = some ([], true) := by decide +kernel
/-- T6. -/
theorem test_setAttack :
    (after (.setAttack 2 0xFFFFFFFF#32) State.reset).map
      (fun t => ((t.engine 2).attackUs, (t.engine 1).attackUs)) = some (4294967295#32, 100000#32) := by
  decide +kernel
/-- T7. -/
theorem test_setDecay :
    (after (.setDecay 2 0#32) State.reset).map (fun t => (t.engine 2).decayUs) = some 0#32 := by
  decide +kernel
/-- T3. -/
theorem test_setSustain_clamps :
    (after (.setSustain 0 4096#32) State.reset).map (fun t => (t.engine 0).sustainLevel) =
      some ⟨12, 4095#12⟩ := by decide +kernel
/-- T10, small configuration. -/
theorem test_setSustain_small :
    (after (.setSustain 0 16#32) (State.resetOf Config.small)).map
      (fun t => (t.engine 0).sustainLevel) = some ⟨4, 15#4⟩ := by decide +kernel
/-- T8. -/
theorem test_setRelease :
    (after (.setRelease 1 1#32) State.reset).map
      (fun t => ((t.engine 1).releaseUs, t.displayDirty)) = some (1#32, true) := by decide +kernel
/-- T9: bit 0 of the operand alone. -/
theorem test_setPolicy :
    (stepped (presenting [.word .host 0x58FFFFFFFE#40] State.reset)).map
      (fun t => ((t.engine 2).resetAttackOnTrigger, t.cmdErr)) = some (false, false) := by
  decide +kernel
/-- N1, the second NOTE_ON. -/
theorem test_noteOn_stacks :
    (after (.noteOn 1)
      (atNow 15#64 (withEngine 1 { e1000 with tNoteOn := 10#64, notesHeld := 1#8 } State.reset))).map
      (fun t => ((t.engine 1).notesHeld, (t.engine 1).tNoteOn, (t.engine 1).tNoteOff)) =
      some (2#8, 15#64, 0#64) := by decide +kernel
/-- N4 against N5: legato start from the last output. -/
theorem test_noteOn_legato :
    (after (.noteOn 0) (withEngine 0 { e1000 with lastOutputLevel := ⟨12, 3610#12⟩ } State.reset)).map
      (fun t => (t.engine 0).attackStartLevel) = some ⟨12, 3610#12⟩ := by decide +kernel
/-- N2: a stray release. -/
theorem test_noteOff_stray :
    (after (.noteOff 2) (atNow 77#64 State.reset)).map
      (fun t => ((t.engine 2).notesHeld, (t.engine 2).tNoteOff, (t.engine 2).releaseStartLevel)) =
      some (0#8, 77#64, ⟨12, 0#12⟩) := by decide +kernel
/-- R112's example: two notes held, one NOTE_OFF. -/
theorem test_noteOff_stacked :
    (after (.noteOff 0) (withEngine 0 { e1000 with notesHeld := 2#8 } State.reset)).map
      (fun t => ((t.engine 0).notesHeld, (t.engine 0).tNoteOff)) = some (1#8, 0#64) := by
  decide +kernel
/-- Y2: CONFIG. -/
theorem test_read_config :
    (after (.read 0 .config 0#16) State.reset).map (fun t => (t.trace, t.cmdErr)) =
      some ([.rsp 0x138800FF0FFF#64], false) := by decide +kernel
/-- X4: a table index that is not below N. -/
theorem test_read_out_of_range :
    (after (.read 0 .lutDr 256#16) State.reset).map (fun t => (t.trace, t.cmdErr)) =
      some ([.rsp 0#64], true) := by decide +kernel
/-- Y7. -/
theorem test_clrFlags :
    (after (.clrFlags 0b101#3) { State.reset with cmdErr := true, outRefresh := true }).map
      (fun t => (t.displayDirty, t.outRefresh, t.cmdErr)) = some (false, true, false) := by
  decide +kernel
/-- L1, x = 50000: EVAL stores and emits 3610. -/
theorem test_eval_attack :
    (after (.eval 0) (atNow 51000#64 (withEngine 0 e1000 State.reset))).map
      (fun t => ((t.engine 0).lastOutputLevel, t.trace, t.outRefresh)) =
      some (⟨12, 3610#12⟩, [.out 0 ⟨12, 3610#12⟩], false) := by decide +kernel
/-- L4, x = 500000, on channel 3: the end of a pass. -/
theorem test_eval_release :
    (after (.eval 3) (atNow 701000#64 (withEngine 3 eReleased State.reset))).map
      (fun t => ((t.engine 3).lastOutputLevel, t.outRefresh)) = some (⟨12, 295#12⟩, true) := by
  decide +kernel
/-- P1: a gate accepted at first sight. -/
theorem test_poll_gate :
    (after (.poll 0b0010#4 0#4) poll0).map
      (fun t => (bankGet t.gates 1, (t.engine 1).notesHeld, (t.engine 1).tNoteOn)) =
      some (pressedCell, 1#8, 5#64) := by decide +kernel
/-- P10 at its accepting POLL, with no debounce interval. -/
theorem test_poll_buttons_in_order :
    (after (.poll 0#4 0b1111#4) poll0).map
      (fun t => (t.trace, t.chanSel, bankGet t.manualTriggerActive 0, (t.engine 0).tNoteOn)) =
      some ([.resync 1, .resync 2, .resync 3], 3, true, 5#64) := by decide +kernel
/-- Y12: the wrap. -/
theorem test_tick_wraps :
    (after (.tick 0xFFFFFFFF#32) (atNow 0xFFFFFFFFFFFFFFFF#64 State.reset)).map State.now =
      some 4294967294#64 := by decide +kernel
/-- Y9. -/
theorem test_outAck :
    (after .outAck { State.reset with outRefresh := true }).map State.outRefresh = some false := by
  decide +kernel

/-! ## LEVEL at the ends of its cases (95_test_vectors.md section 4) -/

/-- L1 with attack_start_level = 1000, x = 50000. -/
theorem test_level_rescaled :
    level Config.default { e1000 with attackStartLevel := ⟨12, 1000#12⟩ } 51000#64 = ⟨12, 3728#12⟩ := by
  decide +kernel
/-- L12: the sum of two 32-bit durations needs 33 bits. -/
theorem test_level_wide_sum :
    (level Config.default { e1000 with attackUs := 0xFFFFFFFF#32, decayUs := 0xFFFFFFFF#32 }
      8589935589#64 = ⟨12, 2500#12⟩) ∧
    subPhase { e1000 with attackUs := 0xFFFFFFFF#32, decayUs := 0xFFFFFFFF#32 } 8589935589#64 = .decay := by
  decide +kernel
/-- L13: the small configuration, x = 1. -/
theorem test_level_small :
    level Config.small
      { Engine.resetOf Config.small with
        attackUs := 6#32, decayUs := 6#32, sustainLevel := ⟨4, 5#4⟩, tNoteOn := 10#64,
        attackStartLevel := ⟨4, 3#4⟩ } 11#64 = ⟨4, 6#4⟩ := by
  decide +kernel
/-- R106: the small tables. -/
theorem test_small_tables :
    (List.range 4).map (tableEntry Config.small .att) = [0, 9, 13, 15] ∧
    (List.range 4).map (tableEntry Config.small .dr) = [15, 6, 2, 0] := by decide +kernel

/-! ## Pins and assembler text (R91, R92, R240) -/

/-- R240 and R241. -/
theorem test_rst :
    stepped (presenting [.rst] { poll0 with seqNext := some 2, cmdErr := true }) =
      some (State.resetOf noDebounce) := by decide +kernel
/-- R90's HOST! and R91's WAIT. -/
theorem test_assemble :
    assembleText 0#64 "WAIT 5 ; HOST! TICK 5 # a wrong source" =
      some [.word .timebase 0xC000000005#40, .word .host 0xC000000005#40] := by decide +kernel
/-- R90, R82: an index that the register does not use assembles as 0. -/
theorem test_assemble_read :
    assembleText 0#64 "READ 2, SUSTAIN_LEVEL, 7 ; READ 0, LUT_ATT, 128" =
      some [.word .host 0x8800000002#40, .word .host 0x8000008014#40] := by decide +kernel
/-- The first step after reset runs the word the host places. -/
theorem test_withFetchWord :
    (stepped (State.reset.withFetchWord 40 0xC000001388)).map State.now = some 5000#64 ∧
    decodeTableWord 40 0xC000001388 = some (.tick 5000#32) := by decide +kernel

/-! ## Witnesses: the hypotheses of each obligation met at concrete values, a boundary of each clause where
its range has one. An obligation without hypotheses has none here. -/

/-- Configurations at both ends of the legal ranges (R5). -/
theorem witness_legal_configurations :
    Config.default.Legal ∧ Config.small.Legal ∧
    ({ Config.default with r := 2, n := 2, alpha := ⟨1, 65536⟩, beta := ⟨65535, 65536⟩ } : Config).Legal ∧
    ({ Config.default with r := 65536, n := 65536 } : Config).Legal := by decide

theorem witness_DecodeInvertsEncode :
    Instr.wellFormed (.setAttack 2 0xFFFFFFFF#32) = true ∧
    Instr.wellFormed (.read 3 .manualTriggerActive 0#16) = true ∧
    Instr.wellFormed (.read 0 .lutDr 0xFFFF#16) = true ∧
    Instr.wellFormed (.read 0 (.reserved 9) 0#16) = true := by decide

theorem witness_DecodedOperationsAreCanonical : decode 0x8CFFFFFF10#40 = .ok (.read 0 .now 0#16) := by
  decide

theorem witness_IgnoredBitsHaveNoEffect_nop :
    0x0C00ABCDEF#40 &&& usedBits 0#40 = 0#40 &&& usedBits 0#40 := by decide
theorem witness_IgnoredBitsHaveNoEffect_read :
    0x8CFFFFFFF0#40 &&& usedBits 0x8000000010#40 = 0x8000000010#40 &&& usedBits 0x8000000010#40 := by
  decide

theorem witness_ReservedEncodingsExactly :
    (zField 0x8000000016#40 = 0#2 ∧ opcField 0x8000000016#40 = 0x8#4 ∧
      0x16 ≤ ((0x8000000016#40).extractLsb' 0 5).toNat) ∧
    (zField 0x800000001F#40 = 0#2 ∧ opcField 0x800000001F#40 = 0x8#4 ∧
      0x16 ≤ ((0x800000001F#40).extractLsb' 0 5).toNat) := by decide

theorem witness_VerdictOfEveryWord :
    ((0x0100000000#40).extractLsb' 32 2 ≠ 0#2) ∧
    ((0xE000000000#40).extractLsb' 32 2 = 0#2 ∧ 0xD < ((0xE000000000#40).extractLsb' 36 4).toNat) ∧
    ((0xD000000000#40).extractLsb' 32 2 = 0#2 ∧
      opcodeOf ((0xD000000000#40).extractLsb' 36 4) = some .outAck ∧
      ((0xD000000000#40).extractLsb' 36 4).toNat ≤ 0xD) := by decide

theorem witness_StepExecutesTheDecodedOperation :
    (presenting [.word .host 0x6000000000#40] State.reset).inputs = .word .host 0x6000000000#40 :: [] ∧
    decode 0x6000000000#40 = .ok (.noteOn 0) ∧ (Instr.noteOn 0).legalSource = .host := by decide

theorem witness_DiscardedWordOnlySetsCmdErr :
    (presenting [.word .dac 0xE000000000#40] State.reset).inputs = .word .dac 0xE000000000#40 :: [] ∧
    verdict .dac 0xE000000000#40 = .reserved ∧ verdict .host 0xA800000000#40 = .illegalSource := by decide

theorem witness_OtherAgentsOpcodesAreDiscardedFromHost :
    ((presenting [.word .host 0xA800000000#40] State.reset).inputs = .word .host 0xA800000000#40 :: [] ∧
      opcField 0xA800000000#40 = 0xA#4) ∧
    opcField 0xD300000000#40 = 0xD#4 ∧
    presented (some 3) .seqTurn = some (.seq, 0xAC00000000#40) ∧
    presented none .usTick = some (.timebase, 0xC000000001#40) := by decide

theorem witness_EveryStepHasItsOutcome :
    (presenting [.word .seq 0xA200000000#40] State.reset).inputs = .word .seq 0xA200000000#40 :: [] := rfl

theorem witness_PinsDriveTheirAgents :
    (presenting [.usTick] poll0).inputs = .usTick :: [] ∧
    (presenting [.pollStrobe 0xF#4 0xF#4] poll0).inputs = .pollStrobe 0xF#4 0xF#4 :: [] ∧
    (presenting [.outAck] poll0).inputs = .outAck :: [] ∧
    ((presenting [.sampleStrobe] poll0).inputs = .sampleStrobe :: [] ∧ poll0.seqNext = none) ∧
    ((presenting [.sampleStrobe] { poll0 with seqNext := some 3 }).inputs = .sampleStrobe :: [] ∧
      (presenting [.sampleStrobe] { poll0 with seqNext := some 3 }).seqNext = some 3) ∧
    ((presenting [.seqTurn] { poll0 with seqNext := some 3 }).inputs = .seqTurn :: [] ∧
      (presenting [.seqTurn] { poll0 with seqNext := some 3 }).seqNext = some 3) ∧
    ((presenting [.seqTurn] poll0).inputs = .seqTurn :: [] ∧
      (presenting [.seqTurn] poll0).seqNext = none) := by decide

/-- The inputs of one pass with three TICK between its turns. -/
def passInputs (n1 n2 n3 : Micros) : List Input :=
  [.sampleStrobe, .seqTurn, .word .timebase (encode (.tick n1)), .seqTurn,
    .word .timebase (encode (.tick n2)), .seqTurn, .word .timebase (encode (.tick n3)), .seqTurn]

theorem witness_PassEvaluatesAllFourChannels :
    (presenting (passInputs 0#32 10#32 0xFFFFFFFF#32 ++ [.outAck]) State.reset).seqNext = none ∧
    (presenting (passInputs 0#32 10#32 0xFFFFFFFF#32 ++ [.outAck]) State.reset).inputs =
      passInputs 0#32 10#32 0xFFFFFFFF#32 ++ [.outAck] := ⟨rfl, rfl⟩

theorem witness_ResetPinRestoresTheResetState :
    (presenting [.rst, .usTick] { poll0 with cmdErr := true }).inputs = .rst :: [.usTick] := rfl

theorem witness_NothingPresentedNothingChanges : poll0.inputs = [] := rfl

theorem witness_CurveClosedForms :
    Config.default.Legal ∧ coeffRat Config.default.alpha = coeffRat Config.default.beta :=
  ⟨by decide, rfl⟩

theorem witness_RomHoldsTheQuantisedCurve : Config.default.Legal ∧ 255 < Config.default.n := by decide

/-- The last step, the last entry, and two indices in order. -/
theorem witness_TableInvariants :
    Config.default.Legal ∧ 254 + 1 < Config.default.n ∧ 255 < Config.default.n ∧ 0 < 255 := by decide

/-- Both sides of the clamp, and a point on a table entry. -/
theorem witness_InterpolationByR121 :
    Config.default.Legal ∧ 1 ≤ 100000 ∧ (Config.default.n - 1) * 100000 ≤ 25500000 ∧
    25499999 < (Config.default.n - 1) * 100000 ∧
    (100000 < (Config.default.n - 1) * 100000 ∧ 100000 % 100000 = 0) := by decide

theorem witness_LevelInOnePiece :
    Config.default.Legal ∧ eReleased.sustainLevel.toNat ≤ Config.default.r - 1 ∧
    eReleased.attackStartLevel.toNat ≤ Config.default.r - 1 ∧
    eReleased.releaseStartLevel.toNat ≤ Config.default.r - 1 := by decide

theorem witness_LevelStaysInRange :
    Config.default.Legal ∧ (Level.mk 12 4095#12).toNat ≤ Config.default.r - 1 ∧
    ({ e1000 with attackStartLevel := ⟨12, 4095#12⟩ } : Engine).attackStartLevel.toNat ≤ Config.default.r - 1 ∧
    e1000.sustainLevel.toNat ≤ Config.default.r - 1 ∧
    e1000.releaseStartLevel.toNat ≤ Config.default.r - 1 := by decide

theorem witness_PhasesStartAtTheCapturedLevel :
    (e1000.pressed = true ∧ e1000.attackStartLevel.toNat ≤ Config.default.r - 1) ∧
    (eReleased.pressed = false ∧ eReleased.releaseStartLevel.toNat ≤ Config.default.r - 1) := by decide

/-- At x = attack_us, at the first instant of SUSTAIN, and at the end of the release, 0 < Δ. -/
theorem witness_PhaseEndValues :
    e1000.sustainLevel.toNat ≤ Config.default.r - 1 ∧
    (e1000.pressed = true ∧ e1000.attackUs ≠ 0#32 ∧ e1000.decayUs ≠ 0#32 ∧
      (101000#64).toNat = e1000.tNoteOn.toNat + e1000.attackUs.toNat) ∧
    (({ e1000 with decayUs := 0#32 } : Engine).pressed = true ∧
      ({ e1000 with decayUs := 0#32 } : Engine).decayUs = 0#32) ∧
    (e1000.tNoteOn.toNat + e1000.attackUs.toNat + e1000.decayUs.toNat ≤ (201000#64).toNat) ∧
    (eReleased.pressed = false ∧
      eReleased.tNoteOff.toNat + eReleased.releaseUs.toNat ≤ (1201000#64).toNat ∧
      0 < (1201000#64).toNat - eReleased.tNoteOff.toNat) ∧
    (({ eReleased with releaseUs := 0#32 } : Engine).tNoteOff.toNat + 0 ≤ (201001#64).toNat ∧
      0 < (201001#64).toNat - eReleased.tNoteOff.toNat) := by decide

theorem witness_LevelIsMonotoneInEachPhase :
    (Config.default.Legal ∧ e1000.sustainLevel.toNat ≤ Config.default.r - 1 ∧
      e1000.attackStartLevel.toNat ≤ Config.default.r - 1 ∧
      eReleased.releaseStartLevel.toNat ≤ Config.default.r - 1) ∧
    ((1000#64).toNat ≤ (100999#64).toNat ∧ subPhase e1000 1000#64 = .attack ∧
      subPhase e1000 100999#64 = .attack) ∧
    ((101000#64).toNat ≤ (200999#64).toNat ∧ subPhase e1000 101000#64 = .decay ∧
      subPhase e1000 200999#64 = .decay) ∧
    ((201000#64).toNat ≤ (1200999#64).toNat ∧ subPhase eReleased 201000#64 = .release ∧
      subPhase eReleased 1200999#64 = .release) := by decide

theorem witness_ZeroDurationsSnapToTheEndValue :
    (e1000.attackStartLevel.toNat ≤ Config.default.r - 1 ∧
      e1000.releaseStartLevel.toNat ≤ Config.default.r - 1) ∧
    (({ e1000 with attackUs := 0#32 } : Engine).pressed = true ∧
      (1000#64).toNat ≤ e1000.tNoteOn.toNat ∧ e1000.tNoteOn.toNat < (1001#64).toNat) ∧
    (({ e1000 with decayUs := 0#32 } : Engine).pressed = true ∧ e1000.attackUs ≠ 0#32 ∧
      e1000.tNoteOn.toNat + e1000.attackUs.toNat ≤ (101000#64).toNat) ∧
    (({ eReleased with releaseUs := 0#32 } : Engine).pressed = false ∧
      (201000#64).toNat ≤ eReleased.tNoteOff.toNat ∧ eReleased.tNoteOff.toNat < (201001#64).toNat) := by
  decide

/-- Pressed with another release start level and count, released with another attack start level. -/
theorem witness_LevelReadsOnlyItsFields :
    (({ e1000 with
          notesHeld := 9#8, releaseStartLevel := ⟨12, 7#12⟩, lastOutputLevel := ⟨12, 8#12⟩ } :
        Engine).attackStartLevel = e1000.attackStartLevel ∧
      e1000.pressed = true) ∧
    (({ eReleased with notesHeld := 9#8, attackStartLevel := ⟨12, 7#12⟩ } : Engine).releaseStartLevel =
        eReleased.releaseStartLevel ∧ eReleased.pressed = false) := by decide

theorem witness_EvalStoresAndEmitsTheLevel :
    (atNow 51000#64 (withEngine 0 e1000 State.reset)).cfg = Config.default ∧
    (atNow 51000#64 (withEngine 0 e1000 State.reset)).now = 51000#64 ∧
    (atNow 51000#64 (withEngine 0 e1000 State.reset)).engine 0 =
      { Engine.resetOf Config.default with tNoteOn := 1000#64 } := by decide

theorem witness_NoteOnRecordsTheTrigger :
    State.reset.now = (State.reset.engine 0).tNoteOff ∧ State.reset.chanSel = 0 := by decide

theorem witness_NoteOffReleasesTheLastTrigger :
    ((State.reset.engine 1).notesHeld.toNat ≤ 1 ∧
      (State.reset.engine 1).tNoteOn.toNat ≤ State.reset.now.toNat) ∧
    (1 < ((withEngine 0 { e1000 with notesHeld := 2#8, lastOutputLevel := ⟨12, 2500#12⟩, tNoteOn := 400#64 }
        (atNow 500#64 State.reset)).engine 0).notesHeld.toNat) ∧
    ((withEngine 0 { e1000 with notesHeld := 2#8, lastOutputLevel := ⟨12, 2500#12⟩, tNoteOn := 400#64 }
        (atNow 500#64 State.reset)).engine 0).pressed = true ∧
    (withEngine 0 { e1000 with notesHeld := 2#8, lastOutputLevel := ⟨12, 2500#12⟩, tNoteOn := 400#64 }
        (atNow 500#64 State.reset)).now = 500#64 ∧
    ((State.reset.setManual 0 true).chanSel = 0 ∧
      bankGet (State.reset.setManual 0 true).manualTriggerActive 0 = true) := by decide

theorem witness_TriggerStacking :
    (State.reset.engine 1).notesHeld = 0#8 ∧
    State.reset.now.toNat + (10#32).toNat + (5#32).toNat + (5#32).toNat + (5#32).toNat < 2 ^ 64 ∧
    (State.reset.engine 1).tNoteOff.toNat < State.reset.now.toNat + (10#32).toNat + (5#32).toNat := by
  decide

theorem witness_NotesHeldSaturates : (State.reset.engine 0).notesHeld = 0#8 := by decide
/-- A stray NOTE_OFF, a POLL that presses gate 0, and a NOTE_OFF: the counter of the source stays in range. -/
theorem witness_NotesHeldSaturates_source :
    noteActionsOf 0 [.noteOff 0, .poll 0b0001#4 0#4, .noteOff 0] poll0 = [false, true, false] ∧
    ∀ k, ([false, true, false].take k).foldl sourceCount ((poll0.engine 0).notesHeld.toNat : Int) ≤ 255 := by
  refine ⟨by decide +kernel, ?_⟩
  intro k
  match k with
  | 0 | 1 | 2 => decide
  | k + 3 =>
    rw [List.take_of_length_le (Nat.le_add_left 3 k)]
    decide

theorem witness_TriggerInTheMicrosecondOfTheRelease :
    ((withEngine 3 { e1000 with notesHeld := 1#8 } (atNow 201000#64 State.reset)).engine 3).notesHeld.toNat
      ≤ 1 := by decide

theorem witness_CapturedLevelIsTheLastEvaluation :
    Instr.eval 0 ∉ [Instr.eval 1, .noteOn 0] ∧
    (∃ t, execAll [.noteOn 0] State.reset = .next t) ∧
    ((State.reset.noteOnAct 0 0#64).engine 0).notesHeld.toNat ≤ 1 ∧
    ((State.reset.noteOnAct 0 0#64).engine 0).resetAttackOnTrigger = false :=
  ⟨by decide, ⟨_, rfl⟩, by decide, by decide⟩

theorem witness_SetSustainClamps : State.reset.cfg.Legal ∧ State.reset.cfg = Config.default := by decide

theorem witness_SetPolicyDecidesTheNextStart :
    ∀ q, Instr.setPolicy 0 q ∉ [Instr.setPolicy 1 true, .noteOn 0, .eval 0, .tick 5#32] := by decide

theorem witness_DebounceCellRule :
    accepts Config.default ⟨true, false, 100#64⟩ true 5100#64 = true ∧
    accepts Config.default ⟨true, false, 100#64⟩ true 5099#64 = false := by decide

/-- The last sample inside the interval, and the first one at its end; an interval of 0. -/
theorem witness_TransitionAcceptedAfterTheInterval :
    DebounceCell.reset.rawLevel ≠ true ∧ DebounceCell.reset.stableLevel ≠ true ∧
    noDebounce.tDbUs = 0#32 ∧ Config.default.tDbUs ≠ 0#32 ∧
    (∀ u ∈ [1100#64, 5099#64], u.toNat - (100#64).toNat < Config.default.tDbUs.toNat) ∧
    (5099#64).toNat - (100#64).toNat < Config.default.tDbUs.toNat ∧
    Config.default.tDbUs.toNat ≤ (5100#64).toNat - (100#64).toNat := by
  refine ⟨by decide, by decide, rfl, by decide, ?_, by decide, by decide⟩
  intro u hu
  rcases List.mem_cons.1 hu with rfl | hu
  · decide
  · rw [List.mem_singleton.1 hu]
    decide

theorem witness_QuietPollOnlyMovesRawLevelsAndTimers :
    (∀ i, accepts State.reset.cfg (bankGet State.reset.gates i) (inputLevel 0b0101#4 i)
      State.reset.now = false) ∧
    (∀ i, accepts State.reset.cfg (bankGet State.reset.buttons i) (inputLevel 0b1010#4 i)
      State.reset.now = false) := by decide

theorem witness_GateTransitionPlaysItsOwnChannel :
    (OnlyGateAccepted 0b1000#4 0#4 poll0 3 ∧ inputLevel 0b1000#4 3 = true) ∧
    (OnlyGateAccepted 0#4 0#4 (gateHeld 3) 3 ∧ inputLevel 0#4 3 = false) := by
  unfold OnlyGateAccepted
  decide

/-- The six cases: selected pressed, selected released with and without the manual flag, another channel's
button pressed as the second and as the only one, another channel's button released. -/
theorem witness_ButtonTransitionTable :
    (OnlyButtonAccepted 0#4 0b0001#4 poll0 0 ∧ poll0.chanSel = 0 ∧ inputLevel 0b0001#4 0 = true) ∧
    (OnlyButtonAccepted 0#4 0#4 (buttonHeld 0) 0 ∧ inputLevel 0#4 0 = false ∧
      bankGet (buttonHeld 0).manualTriggerActive 0 = false ∧
      bankGet ((buttonHeld 0).setManual 0 true).manualTriggerActive 0 = true) ∧
    OnlyButtonAccepted 0#4 0#4 ((buttonHeld 0).setManual 0 true) 0 ∧
    (OnlyButtonAccepted 0#4 0b0011#4 (buttonHeld 0) 1 ∧ (buttonHeld 0).chanSel ≠ 1 ∧
      inputLevel 0b0011#4 1 = true ∧ pressedAfter 0#4 0b0011#4 (buttonHeld 0) = 2) ∧
    (OnlyButtonAccepted 0#4 0b0010#4 poll0 1 ∧ inputLevel 0b0010#4 1 = true ∧
      pressedAfter 0#4 0b0010#4 poll0 ≠ 2) ∧
    (OnlyButtonAccepted 0#4 0#4 (buttonHeld 1) 1 ∧ (buttonHeld 1).chanSel ≠ 1 ∧
      inputLevel 0#4 1 = false) := by
  unfold OnlyButtonAccepted
  decide

theorem witness_ChordAcceptedAtOnceTogglesTwice :
    (1 : Channel) ≠ 2 ∧ poll0.chanSel ≠ 1 ∧ poll0.chanSel ≠ 2 ∧
    (∀ k, accepts poll0.cfg (bankGet poll0.gates k) (inputLevel 0#4 k) poll0.now = false) ∧
    (∀ k, accepts poll0.cfg (bankGet poll0.buttons k) (inputLevel 0b0110#4 k) poll0.now = true ↔
      k = 1 ∨ k = 2) ∧
    inputLevel 0b0110#4 1 = true ∧ inputLevel 0b0110#4 2 = true ∧
    (∀ k, k ≠ 1 → k ≠ 2 → (bankGet poll0.buttons k).stableLevel = false) := by decide

theorem witness_NopChangesNothing :
    zField 0x0100000000#40 ≠ 0#2 ∧
    (presenting [.word .host 0x0100000000#40] State.reset).inputs = .word .host 0x0100000000#40 :: [] := by
  decide

/-- Both sides of each error case of READ. -/
theorem witness_ReadAnswersTheRegisterMap :
    State.reset.LevelInv ∧ 0x16 ≤ (Reg.reserved 0).number.toNat ∧
    (Reg.lutDr.number.toNat = 0x15 ∧ State.reset.cfg.n ≤ (256#16).toNat) ∧
    ¬ (0x16 ≤ Reg.lutDr.number.toNat ∨
      ((Reg.lutDr.number.toNat = 0x14 ∨ Reg.lutDr.number.toNat = 0x15) ∧
        State.reset.cfg.n ≤ (255#16).toNat)) ∧
    (255#16).toNat < State.reset.cfg.n ∧
    Instr.wellFormed (.read 3 .lastOutputLevel 0#16) = true := by
  unfold State.LevelInv Engine.LevelsInRange
  decide

theorem witness_StepKeepsLevelsInRange :
    (presenting [.word .seq 0xAC00000000#40] State.reset).LevelInv ∧
    ∃ t, step (presenting [.word .seq 0xAC00000000#40] State.reset) = .next t := by
  refine ⟨?_, _, rfl⟩
  unfold State.LevelInv Engine.LevelsInRange
  decide

theorem witness_ResetSatisfiesBothInvariants : Config.small.Legal := by decide

theorem witness_StepKeepsStampsInThePast :
    (presenting [.usTick] poll0).StampInv ∧ (presenting [.usTick] poll0).NoWrap ∧
    ∃ t, step (presenting [.usTick] poll0) = .next t := by
  refine ⟨?_, ?_, _, rfl⟩
  · unfold State.StampInv
    decide
  · intro n t h
    have hf : fetch (presenting [.usTick] poll0) = .run (.tick 1#32) poll0 := by decide +kernel
    rw [hf] at h
    cases h
    decide

theorem witness_TickAdvancesTime :
    (∀ n, Instr.eval 3 ≠ .tick n) ∧ ∃ t, exec (.eval 3) State.reset = .next t := ⟨by simp, _, rfl⟩

/-- Operations outside each row of the two tables of writers. -/
theorem witness_SingleWriterPerField :
    (∀ c, ¬ IsSetterOf c (.noteOn 0)) ∧ (∀ g b, Instr.setAttack 0 5#32 ≠ .poll g b) ∧
    (∀ n, Instr.poll 0#4 0#4 ≠ .tick n) ∧ IsSetterOf 0 (.setPolicy 0 true) := by
  refine ⟨?_, by simp, by simp, .inr ⟨true, rfl⟩⟩
  intro c h
  rcases h with ⟨us, h⟩ | ⟨p, h⟩ <;> simp at h

theorem witness_FlagsChangeOnlyAsTabulated :
    (∃ c, IsSetterOf c (.setPolicy 0 true) ∨ Instr.setPolicy 0 true = .noteOn c ∨
      Instr.setPolicy 0 true = .noteOff c) ∧
    (∀ mask, Instr.outAck ≠ .clrFlags mask) ∧ State.reset.displayDirty = true ∧
    State.reset.outRefresh = false ∧ State.reset.cmdErr = false := by
  refine ⟨⟨0, .inl (.inr ⟨true, rfl⟩)⟩, by simp, rfl, rfl, rfl⟩

theorem witness_ChannelsAreIsolated :
    OnChannel 1 (.eval 1) ∧ poll0.engine 1 = (withEngine 0 eReleased poll0).engine 1 ∧
    poll0.now = (withEngine 0 eReleased poll0).now ∧ poll0.cfg = (withEngine 0 eReleased poll0).cfg :=
  ⟨.inr (.inr (.inr (.inr rfl))), by decide⟩

theorem witness_LevelOutShowsTheRegister : poll0.LevelInv := by
  unfold State.LevelInv Engine.LevelsInRange
  decide

/-- The pins of the two cycles of R224. -/
def clearAndEval : CyclePins :=
  ⟨false, false, false, 0#4, 0#4, some (encode (.clrFlags 0b111#3)), false, true, false⟩
def evalAndAck : CyclePins := ⟨false, false, false, 0#4, 0#4, none, false, true, true⟩

theorem witness_SameCycleSetAndClear :
    (presenting clearAndEval.inputs { poll0 with seqNext := some 3 }).seqNext = some 3 ∧
    (clearAndEval.cmdWord = some (encode (.clrFlags 0b111#3)) ∧ clearAndEval.outAck = false) ∧
    (evalAndAck.cmdWord = none ∧ evalAndAck.outAck = true) ∧
    clearAndEval.inputs = [.word .host 0x9000000007#40, .seqTurn] ∧
    evalAndAck.inputs = [.seqTurn, .outAck] := by decide

/-- `AT` at its own time, at the largest distance, and in the past. -/
theorem witness_PseudoOperations :
    (poll0.now.toNat ≤ (5#64).toNat ∧ (5#64).toNat - poll0.now.toNat < 2 ^ 32) ∧
    (poll0.now.toNat ≤ (4294967300#64).toNat ∧ (4294967300#64).toNat - poll0.now.toNat < 2 ^ 32) ∧
    (4#64).toNat < poll0.now.toNat := by decide

end Sys2Proof.Tests
end

section
/-! The outcome of every operation, of every presented word and of every step (00_scope.md R11). -/

namespace Sys2Proof.Machine

/-! ## A step by what its fetch answers (R66, R68) -/

theorem step_of_fetch_done {s t : State} (h : fetch s = .done t) : step s = .next t := by
  simp only [step, h]

theorem step_of_fetch_run {s t : State} {i : Instr} (h : fetch s = .run i t) : step s = exec i t := by
  simp only [step, h]

/-- A presented word goes to the verdict on the state that no longer lists it; the sequencer does not move. -/
theorem fetch_word {s : State} {src : Source} {w : OpWord} {rest : List Input}
    (h : s.inputs = .word src w :: rest) : fetch s = accept src w { s with inputs := rest } := by
  simp only [fetch, h, takeInput, presented, seqMove]

/-! ## A presented word (R85, R88) -/

section word
variable {s : State} {src : Source} {w : OpWord} {rest : List Input}

/-- The two outcomes of a step that takes a presented word: its operation executes, or it is discarded. -/
theorem step_word_cases (h : s.inputs = .word src w :: rest) :
    (∃ i, verdict src w = .execute i ∧ step s = exec i { s with inputs := rest }) ∨
    ((verdict src w = .reserved ∨ verdict src w = .illegalSource) ∧
      step s = .next { s with inputs := rest, cmdErr := true }) := by
  have hf := fetch_word h
  obtain ⟨i, hv, ha⟩ | ⟨hv, ha⟩ := accept_cases src w { s with inputs := rest }
  · exact .inl ⟨i, hv, step_of_fetch_run (hf.trans ha)⟩
  · exact .inr ⟨hv, step_of_fetch_done (hf.trans ha)⟩

/-- A refused word is not also executed. -/
theorem verdict_ne_execute (h : verdict src w = .reserved ∨ verdict src w = .illegalSource) (i : Instr) :
    verdict src w ≠ .execute i := by
  obtain h | h := h <;> simp [h]

end word

/-! ## No operation and no step stops (R11, R220) -/

/-- Each of the fourteen meanings answers a next state, whatever the state it starts from. -/
theorem exec_next (i : Instr) (s : State) : ∃ t, exec i s = .next t := by
  cases i <;> exact ⟨_, rfl⟩

theorem step_next (s : State) : ∃ t, step s = .next t := by
  cases h : fetch s with
  | done t => exact ⟨t, step_of_fetch_done h⟩
  | run i t =>
    obtain ⟨u, hu⟩ := exec_next i t
    exact ⟨u, (step_of_fetch_run h).trans hu⟩

/-- Settles O11: a presented word has one of the two outcomes of `step_word_cases`, and `exec_next` makes
every operation, so every step, answer a next state. -/
theorem everyStepHasItsOutcome : Obligations.EveryStepHasItsOutcome := by
  refine ⟨fun s src w rest h => ?_, step_next, exec_next⟩
  obtain hrun | ⟨hv, hstep⟩ := step_word_cases h
  · exact .inl hrun
  · exact .inr ⟨verdict_ne_execute hv, hstep⟩

end Sys2Proof.Machine
end

section
/-! What a configuration makes of its levels: the tables, LEVEL and the width W_L stay in [0, R-1] (10_state.md
R48, 41_engine.md R127 (a)). -/

namespace Sys2Proof.Machine

/-! ## The tables (R102 to R104) -/

theorem roundHalfUpDiv_le {x y m : Nat} (h : x ≤ m * y) : roundHalfUpDiv x y ≤ m := by
  rw [roundHalfUpDiv]
  obtain rfl | hy := Nat.eq_zero_or_pos y
  · simp
  · rw [← Nat.lt_succ_iff, Nat.div_lt_iff_lt_mul (by omega)]
    calc 2 * x + y < 2 * (m * y) + 2 * y := by omega
      _ = (m + 1) * (2 * y) := by ring

/-- The terms of both closed forms of R103 are in order: `p^m ≤ p^i q^(m-i) ≤ q^m` for a coefficient `p/q ≤ 1`. -/
theorem pow_mul_pow_sub_bounds {p q i m : Nat} (hpq : p ≤ q) (hi : i ≤ m) :
    p ^ m ≤ p ^ i * q ^ (m - i) ∧ p ^ i * q ^ (m - i) ≤ q ^ m := by
  constructor
  · calc p ^ m = p ^ i * p ^ (m - i) := (pow_mul_pow_sub p hi).symm
      _ ≤ _ := Nat.mul_le_mul_left _ (Nat.pow_le_pow_left hpq _)
  · calc p ^ i * q ^ (m - i) ≤ q ^ i * q ^ (m - i) := Nat.mul_le_mul_right _ (Nat.pow_le_pow_left hpq _)
      _ = q ^ m := pow_mul_pow_sub q hi

theorem attEntry_le {cfg : Config} (h : cfg.alpha.Legal) {i : Nat} (hi : i ≤ cfg.last) :
    attEntry cfg i ≤ cfg.top := by
  apply roundHalfUpDiv_le
  rw [Nat.sub_mul, pow_mul_pow_sub _ hi]
  exact Nat.mul_le_mul_left _ (Nat.sub_le_sub_left (pow_mul_pow_sub_bounds h.2.le hi).1 _)

theorem drEntry_le {cfg : Config} (h : cfg.beta.Legal) {i : Nat} (hi : i ≤ cfg.last) :
    drEntry cfg i ≤ cfg.top :=
  roundHalfUpDiv_le
    (Nat.mul_le_mul_left _ (Nat.sub_le_sub_right (pow_mul_pow_sub_bounds h.2.le hi).2 _))

theorem tableEntry_le {cfg : Config} (h : cfg.Legal) (table : Table) {i : Nat} (hi : i ≤ cfg.last) :
    tableEntry cfg table i ≤ cfg.top := by
  obtain ⟨-, -, -, -, halpha, hbeta⟩ := h
  cases table
  · exact attEntry_le halpha hi
  · exact drEntry_le hbeta hi

/-! ## LEVEL (R121 to R125, R131) -/

theorem interp_le {cfg : Config} (h : cfg.Legal) (table : Table) (p d : Nat) :
    interp cfg table p d ≤ cfg.top := by
  by_cases hp : p < cfg.last * d
  · have hd : 0 < d := Nat.pos_of_mul_pos_left (Nat.zero_lt_of_lt hp)
    have hi := index_lt hp
    rw [interp_of_lt hp]
    exact blend_le (Nat.mod_lt p hd) (tableEntry_le h table hi.le) (tableEntry_le h table hi)
  · rw [interp_of_ge (by omega)]
    exact tableEntry_le h table le_rfl

theorem curveValue_le {cfg : Config} (h : cfg.Legal) (table : Table) (x : Nat) (us : Micros) :
    curveValue cfg table x us ≤ cfg.top := interp_le h table _ _

/-- LEVEL is in [0, R-1] when the three levels it reads are (R127 (a)). -/
theorem levelNat_le {cfg : Config} {e : Engine} (h : cfg.Legal) (hs : e.sustainLevel.toNat ≤ cfg.top)
    (ha : e.attackStartLevel.toNat ≤ cfg.top) (hr : e.releaseStartLevel.toNat ≤ cfg.top) (t : Time) :
    levelNat cfg e t ≤ cfg.top := by
  unfold levelNat
  cases subPhase e t with
  | attack => exact rescaleAbove_le ha (curveValue_le h _ _ _)
  | decay => exact rescaleAbove_le hs (curveValue_le h _ _ _)
  | sustain => exact hs
  | release => exact (rescaleBelow_le (curveValue_le h _ _ _)).trans hr
  | off => exact Nat.zero_le _

/-! ## A level register of the configuration (R5, R22, R48) -/

theorem levelOf_fits {cfg : Config} {n : Nat} (h : n ≤ cfg.top) : Level.Fits cfg (cfg.levelOf n) :=
  ⟨rfl, (levelOf_toNat h).trans_le h⟩

theorem cleared_fits {cfg : Config} {l : Level} (h : Level.Fits cfg l) : Level.Fits cfg l.cleared :=
  ⟨h.1, by simp⟩

/-- The width W_L = ceil(log2 R): it holds R levels, one bit less does not, and 16 bits are enough (R5). -/
theorem levelWidth_bounds {cfg : Config} (h : cfg.Legal) :
    cfg.r ≤ 2 ^ cfg.levelWidth ∧ 2 ^ (cfg.levelWidth - 1) < cfg.r ∧ cfg.levelWidth ≤ 16 := by
  have htop := top_pos h
  have hwide := top_lt_levelWidth cfg
  obtain ⟨-, hmax, -⟩ := h
  have hr : cfg.top + 1 = cfg.r := by simp only [Config.top] at htop ⊢; omega
  refine ⟨by omega, ?_, ?_⟩
  · have : 2 ^ (cfg.levelWidth - 1) ≤ cfg.top := Nat.log2_self_le htop.ne'
    omega
  · exact Nat.succ_le_of_lt ((Nat.log2_lt htop.ne').2 (by omega))

/-- Settles O58: a register W_L bits wide loses nothing on the W_L pins, and W_L is bounded as a logarithm. -/
theorem levelOutShowsTheRegister : Obligations.LevelOutShowsTheRegister := by
  intro s c ⟨hlegal, hlevels⟩
  obtain ⟨-, -, -, hwidth, -⟩ := hlevels c
  exact ⟨BitVec.toNat_setWidth_of_le hwidth.le, hwidth, levelWidth_bounds hlegal⟩

end Sys2Proof.Machine
end

section
/-! What one operation and one step can do to the registers of 10_state.md, said once for every invariant: to the
engine banks, to the debounce cells, to `now` and to the configuration. -/

namespace Sys2Proof.Machine

/-! ## The note actions of POLL, channel by channel (43_trigger.md R158 to R166) -/

/-- One engine's part of a note action at time `t`: NOTE_ON for true, NOTE_OFF for false (R159). -/
def Engine.play (t : Time) (e : Engine) (isOn : Bool) : Engine := if isOn then e.noteOn t else e.noteOff t

@[simp] theorem play_true (t : Time) (e : Engine) : e.play t true = e.noteOn t := rfl
@[simp] theorem play_false (t : Time) (e : Engine) : e.play t false = e.noteOff t := rfl

/-- What the actions of a POLL leave alone: the configuration, the time and the eight cells. -/
def CellsAndTimeKept (s t : State) : Prop :=
  t.cfg = s.cfg ∧ t.now = s.now ∧ t.gates = s.gates ∧ t.buttons = s.buttons

theorem CellsAndTimeKept.refl (s : State) : CellsAndTimeKept s s := ⟨rfl, rfl, rfl, rfl⟩

theorem CellsAndTimeKept.trans {s t u : State} (h : CellsAndTimeKept s t) (h' : CellsAndTimeKept t u) :
    CellsAndTimeKept s u := by
  obtain ⟨hcfg, hnow, hgates, hbuttons⟩ := h
  obtain ⟨hcfg', hnow', hgates', hbuttons'⟩ := h'
  exact ⟨hcfg'.trans hcfg, hnow'.trans hnow, hgates'.trans hgates, hbuttons'.trans hbuttons⟩

theorem gateAction_kept (i : Channel) (p : Bool) (t : Time) (s : State) :
    CellsAndTimeKept s (gateAction i p t s) := by
  obtain ⟨-, h⟩ | ⟨-, h⟩ := gateAction_cases i p t s <;> rw [h] <;> exact ⟨rfl, rfl, rfl, rfl⟩

theorem buttonAction_kept (i : Channel) (p : Bool) (t : Time) (s : State) :
    CellsAndTimeKept s (buttonAction i p t s) := by
  obtain ⟨-, -, h⟩ | ⟨-, -, -, h⟩ | ⟨-, -, -, h⟩ | ⟨-, -, -, h⟩ | ⟨-, -, -, h⟩ | ⟨-, -, h⟩ :=
    buttonAction_cases i p t s <;> rw [h] <;> exact ⟨rfl, rfl, rfl, rfl⟩

theorem gateAction_engine (i c : Channel) (p : Bool) (t : Time) (s : State) :
    (gateAction i p t s).engine c = if c = i then (s.engine i).play t p else s.engine c := by
  cases p
  · exact noteOffAct_engine i c t s
  · exact noteOnAct_engine i c t s

theorem buttonAction_engine_ne {i c : Channel} (hc : c ≠ i) (p : Bool) (t : Time) (s : State) :
    (buttonAction i p t s).engine c = s.engine c := by
  obtain ⟨-, -, h⟩ | ⟨-, -, -, h⟩ | ⟨-, -, -, h⟩ | ⟨-, -, -, h⟩ | ⟨-, -, -, h⟩ | ⟨-, -, h⟩ :=
    buttonAction_cases i p t s <;> rw [h]
  · simp [noteOnAct_engine, hc]
  · simp [noteOffAct_engine, hc]
  all_goals rfl

/-- A button plays on its own bank exactly the note actions the source performs (R161, R162, R166). -/
theorem buttonAction_engine_self (c : Channel) (p : Bool) (t : Time) (s : State) :
    (buttonAction c p t s).engine c = (buttonNotes c p s).foldl (Engine.play t) (s.engine c) := by
  obtain ⟨hc, hp, h⟩ | ⟨hc, hp, hm, h⟩ | ⟨hc, hp, hm, h⟩ | ⟨hc, -, -, h⟩ | ⟨hc, -, -, h⟩ | ⟨hc, -, h⟩ :=
    buttonAction_cases c p t s <;> rw [h]
  · simp [buttonNotes, hc, hp, noteOnAct_engine]
  · simp [buttonNotes, hc, hp, hm, noteOffAct_engine]
  · simp [buttonNotes, hc, hp, hm]
  all_goals simp [buttonNotes, hc, State.engine]

/-- The turn of gate `i` in the POLL of state `s` (R152, R160). -/
def gateTurn (gates : BitVec 4) (s st : State) (i : Channel) : State :=
  if accepts s.cfg (bankGet s.gates i) (inputLevel gates i) s.now
  then gateAction i (inputLevel gates i) s.now st else st

/-- The turn of button `i` in the POLL of state `s` (R152, R166). -/
def buttonTurn (buttons : BitVec 4) (s st : State) (i : Channel) : State :=
  if accepts s.cfg (bankGet s.buttons i) (inputLevel buttons i) s.now
  then buttonAction i (inputLevel buttons i) s.now st else st

/-- The dispatch reads an action only where its input is accepted and on states its actions lead to. -/
theorem dispatch_congr {acc : Channel → Bool} {act act' : Channel → State → State} (P : State → Prop)
    (hkeep : ∀ i st, P st → P (act i st)) (heq : ∀ i st, acc i = true → P st → act i st = act' i st)
    {s : State} (hs : P s) : dispatch acc act s = dispatch acc act' s := by
  unfold dispatch
  induction channels generalizing s with
  | nil => rfl
  | cons i l ih =>
    simp only [List.foldl_cons]
    by_cases ha : acc i = true
    · simp only [if_pos ha, ← heq i s ha hs]
      exact ih (hkeep i s hs)
    · simp only [if_neg ha]
      exact ih hs

/-- The gates of a POLL take their turns in order, each with the level it samples. -/
theorem pollGates_eq_foldl (gates buttons : BitVec 4) (s : State) :
    pollGates gates s (pollSample gates buttons s) =
      channels.foldl (gateTurn gates s) (pollSample gates buttons s) := by
  refine dispatch_congr (act' := fun i => gateAction i (inputLevel gates i) s.now)
    (fun st => st.gates = (pollSample gates buttons s).gates) (fun i st hst => ?_)
    (fun i st ha hst => ?_) rfl
  · obtain ⟨-, -, hg, -⟩ := gateAction_kept i (bankGet st.gates i).stableLevel s.now st
    exact hg.trans hst
  · rw [hst, pollSample_gates, debounce_stable_of_accepts ha]

/-- The buttons of a POLL take their turns in order after the gates, each with the level it samples. -/
theorem pollButtons_eq_foldl (gates buttons : BitVec 4) (s : State) {st : State}
    (hst : st.buttons = (pollSample gates buttons s).buttons) :
    pollButtons buttons s st = channels.foldl (buttonTurn buttons s) st := by
  refine dispatch_congr (act' := fun i => buttonAction i (inputLevel buttons i) s.now)
    (fun st => st.buttons = (pollSample gates buttons s).buttons) (fun i st hst => ?_)
    (fun i st ha hst => ?_) hst
  · obtain ⟨-, -, -, hb⟩ := buttonAction_kept i (bankGet st.buttons i).stableLevel s.now st
    exact hb.trans hst
  · rw [hst, pollSample_buttons, debounce_stable_of_accepts ha]

theorem gateTurn_kept (gates : BitVec 4) (s st : State) (i : Channel) :
    CellsAndTimeKept st (gateTurn gates s st i) := by
  unfold gateTurn
  split
  · exact gateAction_kept _ _ _ _
  · exact .refl st

theorem buttonTurn_kept (buttons : BitVec 4) (s st : State) (i : Channel) :
    CellsAndTimeKept st (buttonTurn buttons s st i) := by
  unfold buttonTurn
  split
  · exact buttonAction_kept _ _ _ _
  · exact .refl st

theorem foldl_kept {turn : State → Channel → State} (h : ∀ st i, CellsAndTimeKept st (turn st i))
    (l : List Channel) (s : State) : CellsAndTimeKept s (l.foldl turn s) :=
  List.foldlRecOn (motive := CellsAndTimeKept s) l turn (.refl s)
    (fun st hst i _ => hst.trans (h st i))

theorem gateTurn_engine_self (gates : BitVec 4) (s st : State) (c : Channel) :
    (gateTurn gates s st c).engine c =
      (if accepts s.cfg (bankGet s.gates c) (inputLevel gates c) s.now then [inputLevel gates c]
        else []).foldl (Engine.play s.now) (st.engine c) := by
  unfold gateTurn
  split
  · rw [gateAction_engine, if_pos rfl]
    rfl
  · rfl

theorem gateTurn_engine_ne (gates : BitVec 4) (s st : State) {i c : Channel} (hc : c ≠ i) :
    (gateTurn gates s st i).engine c = st.engine c := by
  unfold gateTurn
  split
  · rw [gateAction_engine, if_neg hc]
  · rfl

theorem buttonTurn_engine_self (buttons : BitVec 4) (s st : State) (c : Channel) :
    (buttonTurn buttons s st c).engine c =
      (if accepts s.cfg (bankGet s.buttons c) (inputLevel buttons c) s.now
        then buttonNotes c (inputLevel buttons c) st else []).foldl (Engine.play s.now) (st.engine c) := by
  unfold buttonTurn
  split
  · exact buttonAction_engine_self _ _ _ _
  · rfl

theorem buttonTurn_engine_ne (buttons : BitVec 4) (s st : State) {i c : Channel} (hc : c ≠ i) :
    (buttonTurn buttons s st i).engine c = st.engine c := by
  unfold buttonTurn
  split
  · exact buttonAction_engine_ne hc _ _ _
  · rfl

/-- A sweep over the channels is the turns before `c`, the turn of `c` and the turns after it. -/
theorem foldl_channels_split {α : Type} (turn : α → Channel → α) (a : α) (c : Channel) :
    channels.foldl turn a = (channels.filter (fun i => decide (c < i))).foldl turn
      (turn ((channels.filter (fun i => decide (i < c))).foldl turn a) c) := by
  have order : channels = channels.filter (fun i => decide (i < c)) ++
      c :: channels.filter (fun i => decide (c < i)) := by
    revert c
    decide
  conv_lhs => rw [order, List.foldl_append, List.foldl_cons]

/-- Turns of other channels leave the bank of `c` alone. -/
theorem engine_foldl_of_notMem {turn : State → Channel → State} {c : Channel}
    (h : ∀ st i, c ≠ i → (turn st i).engine c = st.engine c) {l : List Channel} (hl : c ∉ l) (s : State) :
    (l.foldl turn s).engine c = s.engine c :=
  List.foldlRecOn (motive := fun st => st.engine c = s.engine c) l turn rfl
    (fun st hst i hi => (h st i (ne_of_mem_of_not_mem hi hl).symm).trans hst)

/-- In a sweep of turns that each act on their own bank, the turn of `c` alone decides the bank of `c`. -/
theorem engine_foldl_channels {turn : State → Channel → State} {c : Channel}
    (h : ∀ st i, c ≠ i → (turn st i).engine c = st.engine c) (s : State) :
    (channels.foldl turn s).engine c =
      (turn ((channels.filter (fun i => decide (i < c))).foldl turn s) c).engine c := by
  rw [foldl_channels_split turn s c, engine_foldl_of_notMem h (by simp)]

/-- The bank of `c` when its button comes to its turn is the one the gates left. -/
theorem beforeButton_engine (gates buttons : BitVec 4) (c : Channel) (s : State) :
    (beforeButton gates buttons c s).engine c =
      (pollGates gates s (pollSample gates buttons s)).engine c :=
  engine_foldl_of_notMem (turn := buttonTurn buttons s)
    (fun st _ hc => buttonTurn_engine_ne buttons s st hc) (by simp) _

theorem pollGates_kept (gates buttons : BitVec 4) (s : State) :
    CellsAndTimeKept (pollSample gates buttons s) (pollGates gates s (pollSample gates buttons s)) := by
  rw [pollGates_eq_foldl]
  exact foldl_kept (gateTurn_kept gates s) _ _

theorem pollButtons_eq (gates buttons : BitVec 4) (s : State) :
    pollButtons buttons s (pollGates gates s (pollSample gates buttons s)) =
      channels.foldl (buttonTurn buttons s) (pollGates gates s (pollSample gates buttons s)) := by
  obtain ⟨-, -, -, hb⟩ := pollGates_kept gates buttons s
  exact pollButtons_eq_foldl gates buttons s hb

/-- A POLL plays on every bank exactly the note actions of that channel (R152, R158, R221). -/
theorem execPoll_engine {gates buttons : BitVec 4} {s t : State} (h : exec (.poll gates buttons) s = .next t)
    (c : Channel) :
    t.engine c = (noteActions c s (.poll gates buttons)).foldl (Engine.play s.now) (s.engine c) := by
  obtain rfl : pollButtons buttons s (pollGates gates s (pollSample gates buttons s)) = t :=
    Host.Outcome.next.inj h
  have hgates : (pollGates gates s (pollSample gates buttons s)).engine c =
      (if accepts s.cfg (bankGet s.gates c) (inputLevel gates c) s.now then [inputLevel gates c]
        else []).foldl (Engine.play s.now) (s.engine c) := by
    rw [pollGates_eq_foldl, engine_foldl_channels (fun st _ hc => gateTurn_engine_ne gates s st hc),
      gateTurn_engine_self,
      engine_foldl_of_notMem (fun st _ hc => gateTurn_engine_ne gates s st hc) (by simp)]
    rfl
  rw [noteActions, List.foldl_append, ← hgates, ← beforeButton_engine, pollButtons_eq,
    engine_foldl_channels (fun st _ hc => buttonTurn_engine_ne buttons s st hc), buttonTurn_engine_self]
  rfl

/-- A POLL takes the samples of phase 1 and keeps the configuration and the time (R152). -/
theorem execPoll_kept {gates buttons : BitVec 4} {s t : State}
    (h : exec (.poll gates buttons) s = .next t) :
    CellsAndTimeKept (pollSample gates buttons s) t := by
  obtain rfl : pollButtons buttons s (pollGates gates s (pollSample gates buttons s)) = t :=
    Host.Outcome.next.inj h
  rw [pollButtons_eq]
  exact (pollGates_kept gates buttons s).trans (foldl_kept (buttonTurn_kept buttons s) _ _)

/-! ## One operation (R226) -/

/-- What one operation at time `t` can make of a bank, indexed by the note actions it performs on it: those actions,
one parameter written by its setter, or the output level by EVAL (R128, R140 to R144, R159). -/
inductive Engine.Change (cfg : Config) (t : Time) (e : Engine) : List Bool → Engine → Prop
  | notes (actions : List Bool) : Engine.Change cfg t e actions (actions.foldl (Engine.play t) e)
  | attack (us : Micros) : Engine.Change cfg t e [] { e with attackUs := us }
  | decay (us : Micros) : Engine.Change cfg t e [] { e with decayUs := us }
  | sustain (operand : Micros) : Engine.Change cfg t e [] { e with sustainLevel := clampLevel cfg operand }
  | release (us : Micros) : Engine.Change cfg t e [] { e with releaseUs := us }
  | policy (p : Bool) : Engine.Change cfg t e [] { e with resetAttackOnTrigger := p }
  | output : Engine.Change cfg t e [] (e.storeOutput (level cfg e t))

/-- The write to the bank of channel `d`, seen from any channel `c`. -/
theorem Engine.Change.of_ite {cfg : Config} {t : Time} {s : State} {c d : Channel} {e : Engine}
    (h : Engine.Change cfg t (s.engine d) [] e) :
    Engine.Change cfg t (s.engine c) [] (if c = d then e else s.engine c) := by
  by_cases hc : c = d
  · subst hc
    rwa [if_pos rfl]
  · rw [if_neg hc]
    exact .notes []

/-- A note action on channel `d`, seen from any channel `c`. -/
theorem Engine.Change.play_of_ite {cfg : Config} {t : Time} {s : State} {c d : Channel} (isOn : Bool) :
    Engine.Change cfg t (s.engine c) (if d = c then [isOn] else [])
      (if c = d then (s.engine d).play t isOn else s.engine c) := by
  by_cases hc : d = c
  · subst hc
    rw [if_pos rfl, if_pos rfl]
    exact .notes [isOn]
  · rw [if_neg hc, if_neg (Ne.symm hc)]
    exact .notes []

/-- Everything an operation can do to a bank. -/
theorem exec_engine {i : Instr} {s t : State} (h : exec i s = .next t) (c : Channel) :
    Engine.Change s.cfg s.now (s.engine c) (noteActions c s i) (t.engine c) := by
  cases i with
  | poll gates buttons => rw [execPoll_engine h c]; exact .notes _
  | noteOn d =>
    cases h
    rw [noteOnAct_engine]
    exact .play_of_ite true
  | noteOff d =>
    cases h
    rw [noteOffAct_engine]
    exact .play_of_ite false
  | setAttack d us => cases h; rw [setParam_engine]; exact .of_ite (.attack us)
  | setDecay d us => cases h; rw [setParam_engine]; exact .of_ite (.decay us)
  | setSustain d us => cases h; rw [setParam_engine]; exact .of_ite (.sustain us)
  | setRelease d us => cases h; rw [setParam_engine]; exact .of_ite (.release us)
  | setPolicy d p => cases h; rw [setParam_engine]; exact .of_ite (.policy p)
  | eval d =>
    cases h
    rw [markPassEnd_engine, emit_engine, engine_updEngine]
    exact .of_ite .output
  | nop | read _ _ _ | clrFlags _ | tick _ | outAck => cases h; exact .notes []

/-- POLL alone writes the cells, by one sample each; no operation writes the configuration (R9, R152, R226). -/
theorem exec_cells {i : Instr} {s t : State} (h : exec i s = .next t) :
    t.cfg = s.cfg ∧ ((t.gates = s.gates ∧ t.buttons = s.buttons) ∨
      ∃ gates buttons, i = .poll gates buttons ∧ t.gates = (pollSample gates buttons s).gates ∧
        t.buttons = (pollSample gates buttons s).buttons) := by
  cases i with
  | poll gates buttons =>
    obtain ⟨hcfg, -, hgates, hbuttons⟩ := execPoll_kept h
    exact ⟨hcfg, .inr ⟨gates, buttons, rfl, hgates, hbuttons⟩⟩
  | _ => cases h; exact ⟨rfl, .inl ⟨rfl, rfl⟩⟩

theorem exec_cfg {i : Instr} {s t : State} (h : exec i s = .next t) : t.cfg = s.cfg := (exec_cells h).1

/-- TICK alone moves the time (R204). -/
theorem exec_now {i : Instr} {s t : State} (h : exec i s = .next t) :
    t.now = s.now ∨ ∃ n, i = .tick n ∧ t.now = s.now + n.setWidth 64 := by
  cases i with
  | poll gates buttons =>
    obtain ⟨-, hnow, -, -⟩ := execPoll_kept h
    exact .inl hnow
  | tick n => cases h; exact .inr ⟨n, rfl, rfl⟩
  | _ => cases h; exact .inl rfl

/-! ## One step (R66, R85, R88, R240) -/

/-- Everything a step can do: take an input that executes nothing, reset every register, or execute one
operation on the state that no longer lists its input. -/
theorem step_cases {s t : State} (h : step s = .next t) :
    (∃ xs pos err, t = { s with inputs := xs, seqNext := pos, cmdErr := err }) ∨
    (∃ xs, t = { State.resetOf s.cfg with inputs := xs, trace := s.trace }) ∨
    (∃ i xs pos, fetch s = .run i { s with inputs := xs, seqNext := pos } ∧
      exec i { s with inputs := xs, seqNext := pos } = .next t) := by
  have done {u : State} (hu : fetch s = .done u) : t = u :=
    Host.Outcome.next.inj (h.symm.trans (step_of_fetch_done hu))
  obtain ⟨-, hf⟩ | ⟨rest, -, hf⟩ | ⟨x, rest, -, -, -, hf⟩ | ⟨x, rest, src, w, -, -, hf⟩ := fetch_cases s
  · exact .inl ⟨s.inputs, s.seqNext, s.cmdErr, done hf⟩
  · exact .inr (.inl ⟨rest, done hf⟩)
  · exact .inl ⟨rest, _, s.cmdErr, done hf⟩
  · obtain ⟨i, -, ha⟩ | ⟨-, ha⟩ := accept_cases src w { s with inputs := rest, seqNext := seqMove s.seqNext x }
    · have hrun := hf.trans ha
      exact .inr (.inr ⟨i, rest, _, hrun, (step_of_fetch_run hrun).symm.trans h⟩)
    · exact .inl ⟨rest, _, true, done (hf.trans ha)⟩

end Sys2Proof.Machine
end

section
/-! The two invariants of 10_state.md R48, kept by every step and met after reset. -/

namespace Sys2Proof.Machine

/-! ## The levels -/

theorem play_levelsInRange {cfg : Config} {e : Engine} (h : e.LevelsInRange cfg) (t : Time) (isOn : Bool) :
    (e.play t isOn).LevelsInRange cfg := by
  obtain ⟨hsustain, hattack, hrelease, houtput⟩ := h
  cases isOn with
  | true =>
    refine ⟨hsustain, ?_, hrelease, houtput⟩
    rw [play_true, noteOn_attackStart]
    split
    · exact cleared_fits hattack
    · exact houtput
  | false =>
    obtain ⟨-, hoff⟩ | ⟨-, hoff⟩ := noteOff_cases t e <;> rw [play_false, hoff]
    · exact ⟨hsustain, hattack, houtput, houtput⟩
    · exact ⟨hsustain, hattack, hrelease, houtput⟩

theorem Engine.Change.levelsInRange {cfg : Config} (hcfg : cfg.Legal) {t : Time} {e e' : Engine}
    {actions : List Bool} (h : Engine.Change cfg t e actions e') (he : e.LevelsInRange cfg) :
    e'.LevelsInRange cfg := by
  have ⟨hsustain, hattack, hrelease, houtput⟩ := he
  cases h with
  | notes => exact List.foldlRecOn _ _ he (fun _ hb isOn _ => play_levelsInRange hb t isOn)
  | attack | decay | release | policy => exact ⟨hsustain, hattack, hrelease, houtput⟩
  | sustain operand => exact ⟨levelOf_fits (Nat.min_le_right _ _), hattack, hrelease, houtput⟩
  | output =>
    have hlevel := levelNat_le hcfg hsustain.2 hattack.2 hrelease.2 t
    exact ⟨hsustain, hattack, hrelease, levelOf_fits hlevel⟩

theorem exec_levelInv {i : Instr} {s t : State} (hs : s.LevelInv) (h : exec i s = .next t) : t.LevelInv := by
  obtain ⟨hlegal, hlevels⟩ := hs
  rw [State.LevelInv, exec_cfg h]
  exact ⟨hlegal, fun c => (exec_engine h c).levelsInRange hlegal (hlevels c)⟩

@[simp] theorem resetOf_engine (cfg : Config) (c : Channel) :
    (State.resetOf cfg).engine c = Engine.resetOf cfg := bankGet_bankOf _ c

theorem resetOf_levelInv {cfg : Config} (h : cfg.Legal) : (State.resetOf cfg).LevelInv := by
  refine ⟨h, fun c => ?_⟩
  have hzero : Level.Fits cfg (cfg.levelOf 0) := levelOf_fits (Nat.zero_le _)
  rw [resetOf_engine]
  exact ⟨levelOf_fits (Nat.min_le_right _ _), hzero, hzero, hzero⟩

/-- Settles O52: by `step_cases` a step keeps the registers, resets them (`resetOf_levelInv`) or executes one
operation, whose writes `exec_engine` lists. -/
theorem stepKeepsLevelsInRange : Obligations.StepKeepsLevelsInRange := by
  intro s t hs h
  obtain ⟨xs, pos, err, rfl⟩ | ⟨xs, rfl⟩ | ⟨i, xs, pos, -, hexec⟩ := step_cases h
  · exact hs
  · exact resetOf_levelInv hs.1
  · exact exec_levelInv (s := { s with inputs := xs, seqNext := pos }) hs hexec

/-! ## The stamps -/

/-- The two stamps of a bank are at most `t`. -/
def Engine.StampsBy (t : Time) (e : Engine) : Prop :=
  e.tNoteOn.toNat ≤ t.toNat ∧ e.tNoteOff.toNat ≤ t.toNat

/-- The stamps of the four banks and of the eight cells are at most `t`. -/
def State.StampsBy (t : Time) (s : State) : Prop :=
  (∀ c : Channel, (s.engine c).StampsBy t) ∧
  ∀ i : Channel, (bankGet s.gates i).lastChangeTime.toNat ≤ t.toNat ∧
    (bankGet s.buttons i).lastChangeTime.toNat ≤ t.toNat

theorem stampInv_iff (s : State) : s.StampInv ↔ s.StampsBy s.now := Iff.rfl

theorem State.StampsBy.mono {t u : Time} (htu : t.toNat ≤ u.toNat) {s : State} (h : s.StampsBy t) :
    s.StampsBy u := by
  obtain ⟨hengines, hcells⟩ := h
  exact ⟨fun c => (hengines c).imp (·.trans htu) (·.trans htu),
    fun i => (hcells i).imp (·.trans htu) (·.trans htu)⟩

/-- A note action stamps with its own time. -/
theorem play_stampsBy {t : Time} {e : Engine} (h : e.StampsBy t) (isOn : Bool) :
    (e.play t isOn).StampsBy t := by
  obtain ⟨hon, hoff⟩ := h
  cases isOn with
  | true => exact ⟨le_rfl, hoff⟩
  | false =>
    obtain ⟨-, heq⟩ | ⟨-, heq⟩ := noteOff_cases t e <;> rw [play_false, heq]
    · exact ⟨hon, le_rfl⟩
    · exact ⟨hon, hoff⟩

theorem Engine.Change.stampsBy {cfg : Config} {t : Time} {e e' : Engine} {actions : List Bool}
    (h : Engine.Change cfg t e actions e') (he : e.StampsBy t) : e'.StampsBy t := by
  cases h with
  | notes => exact List.foldlRecOn _ _ he (fun _ hb isOn _ => play_stampsBy hb isOn)
  | attack | decay | sustain | release | policy | output => exact he

/-- Whatever an operation stamps, it stamps with the time at which it starts. -/
theorem exec_stampsBy {i : Instr} {s t : State} (hs : s.StampsBy s.now) (h : exec i s = .next t) :
    t.StampsBy s.now := by
  obtain ⟨hengines, hcells⟩ := hs
  refine ⟨fun c => (exec_engine h c).stampsBy (hengines c), ?_⟩
  obtain ⟨-, ⟨hgates, hbuttons⟩ | ⟨g, b, -, hgates, hbuttons⟩⟩ := exec_cells h <;>
    rw [hgates, hbuttons]
  · exact hcells
  · intro i
    rw [pollSample_gates, pollSample_buttons]
    exact (hcells i).imp changeTime_le changeTime_le

/-- The time does not go back unless a TICK wraps it. -/
theorem exec_now_le {i : Instr} {s t : State}
    (hwrap : ∀ n, i = .tick n → s.now.toNat + n.toNat < 2 ^ 64) (h : exec i s = .next t) :
    s.now.toNat ≤ t.now.toNat := by
  obtain hnow | ⟨n, hi, hnow⟩ := exec_now h <;> rw [hnow]
  have hn : (n.setWidth 64).toNat = n.toNat := BitVec.toNat_setWidth_of_le (by decide)
  have := hwrap n hi
  rw [BitVec.toNat_add, hn, Nat.mod_eq_of_lt this]
  exact Nat.le_add_right _ _

theorem resetOf_stampInv (cfg : Config) : (State.resetOf cfg).StampInv := by
  refine ⟨fun c => ?_, fun i => ?_⟩
  · rw [resetOf_engine]
    exact ⟨le_rfl, le_rfl⟩
  · simp [State.resetOf, DebounceCell.reset]

/-- Settles O54: the stamps of `exec_stampsBy` are not above the time the operation leaves (`exec_now_le`). -/
theorem stepKeepsStampsInThePast : Obligations.StepKeepsStampsInThePast := by
  intro s t hs hwrap h
  obtain ⟨xs, pos, err, rfl⟩ | ⟨xs, rfl⟩ | ⟨i, xs, pos, hfetch, hexec⟩ := step_cases h
  · exact hs
  · exact resetOf_stampInv s.cfg
  · have htime : s.now.toNat ≤ t.now.toNat :=
      exec_now_le (s := { s with inputs := xs, seqNext := pos }) (fun n hi => hwrap n _ (hi ▸ hfetch)) hexec
    have hstamps : t.StampsBy s.now :=
      exec_stampsBy (s := { s with inputs := xs, seqNext := pos }) hs hexec
    exact (stampInv_iff t).2 (hstamps.mono htime)

/-! ## Reset (R49) -/

/-- Settles O53: the base case of both invariants. -/
theorem resetSatisfiesBothInvariants : Obligations.ResetSatisfiesBothInvariants :=
  ⟨fun _ => resetOf_levelInv, resetOf_stampInv, resetOf_levelInv (by decide)⟩

/-- Settles O16: each bank holds its reset register on every channel, and the sustain level fits its W_L bits. -/
theorem resetValues : Obligations.ResetValues := by
  refine ⟨fun cfg c => ?_, rfl, rfl, rfl, rfl, rfl, rfl⟩
  have hsustain : (cfg.levelOf (min cfg.resetSustain cfg.top)).toNat = min cfg.resetSustain cfg.top :=
    levelOf_toNat (Nat.min_le_right _ _)
  simp only [resetOf_engine]
  refine ⟨rfl, rfl, rfl, hsustain, rfl, rfl, rfl, rfl, rfl, rfl, rfl, rfl, rfl, ?_, ?_, rfl, ?_, rfl, rfl, rfl⟩
  all_goals exact bankGet_bankOf _ c

end Sys2Proof.Machine
end

section
/-! The note count: the register of every channel follows its note actions as a saturating count, which is the
source's integer counter as long as that stays at or below 255 (10_state.md R24, 60_exceptions.md R221). -/

namespace Sys2Proof.Machine

/-- The register's count after one note action: up to 255 and down to 0 (R24, R110, R112). -/
def heldAfter (n : Nat) (isOn : Bool) : Nat := if isOn then min (n + 1) 255 else n - 1

@[simp] theorem heldAfter_true (n : Nat) : heldAfter n true = min (n + 1) 255 := rfl
@[simp] theorem heldAfter_false (n : Nat) : heldAfter n false = n - 1 := rfl

/-! ## The machine counts by `heldAfter` -/

theorem play_notesHeld (t : Time) (e : Engine) (isOn : Bool) :
    (e.play t isOn).notesHeld.toNat = heldAfter e.notesHeld.toNat isOn := by
  cases isOn with
  | true =>
    rw [play_true, noteOn_notesHeld, heldAfter_true, BitVec.toNat_ofNat]
    omega
  | false => exact noteOff_notesHeld_toNat t e

theorem Engine.Change.notesHeld {cfg : Config} {t : Time} {e e' : Engine} {actions : List Bool}
    (h : Engine.Change cfg t e actions e') :
    e'.notesHeld.toNat = actions.foldl heldAfter e.notesHeld.toNat := by
  cases h with
  | notes =>
    exact (List.foldl_hom (fun e : Engine => e.notesHeld.toNat)
      (fun e isOn => (play_notesHeld t e isOn).symm)).symm
  | attack | decay | sustain | release | policy | output => rfl

theorem execAll_cons {i : Instr} {s t : State} (h : exec i s = .next t) (ops : List Instr) :
    execAll (i :: ops) s = execAll ops t := by
  simp only [execAll, h]

theorem noteActionsOf_cons (c : Channel) {i : Instr} {s t : State} (h : exec i s = .next t)
    (ops : List Instr) : noteActionsOf c (i :: ops) s = noteActions c s i ++ noteActionsOf c ops t := by
  simp only [noteActionsOf, h]

/-- Over any operations the register of `c` counts the note actions on `c`. -/
theorem execAll_notesHeld (c : Channel) (ops : List Instr) (s : State) :
    ∃ t, execAll ops s = .next t ∧ (t.engine c).notesHeld.toNat =
      (noteActionsOf c ops s).foldl heldAfter (s.engine c).notesHeld.toNat := by
  induction ops generalizing s with
  | nil => exact ⟨s, rfl, rfl⟩
  | cons i ops ih =>
    obtain ⟨u, hu⟩ := exec_next i s
    obtain ⟨t, ht, hheld⟩ := ih u
    refine ⟨t, (execAll_cons hu ops).trans ht, ?_⟩
    rw [hheld, noteActionsOf_cons c hu, List.foldl_append, (exec_engine hu c).notesHeld]

/-! ## The source's counter (R221) -/

theorem sourceCount_nonneg {n : Int} (hn : 0 ≤ n) (isOn : Bool) : 0 ≤ sourceCount n isOn := by
  unfold sourceCount
  split_ifs <;> omega

theorem foldl_sourceCount_nonneg {n : Int} (hn : 0 ≤ n) (actions : List Bool) :
    0 ≤ actions.foldl sourceCount n :=
  List.foldlRecOn actions sourceCount hn (fun _ hb isOn _ => sourceCount_nonneg hb isOn)

/-- One action on both counters, which agree below the saturation. -/
theorem heldAfter_eq_sourceCount {n : Nat} {isOn : Bool} (h : sourceCount n isOn ≤ 255) :
    (heldAfter n isOn : Int) = sourceCount n isOn := by
  cases isOn <;> simp only [sourceCount, heldAfter_true, heldAfter_false, Bool.false_eq_true, if_true,
    if_false] at h ⊢
  · split <;> omega
  · omega

/-- Both counters agree over any actions on whose way the source's one never exceeds 255. -/
theorem foldl_heldAfter_eq_sourceCount {actions : List Bool} {n : Nat}
    (h : ∀ k, (actions.take k).foldl sourceCount (n : Int) ≤ 255) :
    ((actions.foldl heldAfter n : Nat) : Int) = actions.foldl sourceCount (n : Int) := by
  induction actions generalizing n with
  | nil => rfl
  | cons isOn actions ih =>
    have hstep : (heldAfter n isOn : Int) = sourceCount n isOn := heldAfter_eq_sourceCount (h 1)
    simp only [List.foldl_cons, ← hstep]
    exact ih (fun k => by rw [hstep]; exact h (k + 1))

/-! ## Many NOTE_ON, then many NOTE_OFF (R24, R257) -/

@[simp] theorem noteActions_noteOn_self (c : Channel) (s : State) : noteActions c s (.noteOn c) = [true] :=
  if_pos rfl

@[simp] theorem noteActions_noteOff_self (c : Channel) (s : State) : noteActions c s (.noteOff c) = [false] :=
  if_pos rfl

theorem noteActionsOf_replicate {c : Channel} {i : Instr} {isOn : Bool}
    (hi : ∀ s, noteActions c s i = [isOn]) (k : Nat) (s : State) :
    noteActionsOf c (List.replicate k i) s = List.replicate k isOn := by
  induction k generalizing s with
  | zero => rfl
  | succ k ih =>
    obtain ⟨t, ht⟩ := exec_next i s
    rw [List.replicate_succ, noteActionsOf_cons c ht, hi, ih]
    rfl

theorem foldl_heldAfter_on (k n : Nat) (hn : n ≤ 255) :
    (List.replicate k true).foldl heldAfter n = min (n + k) 255 := by
  induction k generalizing n with
  | zero => simpa using hn
  | succ k ih =>
    rw [List.replicate_succ, List.foldl_cons, heldAfter_true, ih _ (Nat.min_le_right _ _)]
    omega

theorem foldl_heldAfter_off (j n : Nat) : (List.replicate j false).foldl heldAfter n = n - j := by
  induction j generalizing n with
  | zero => rfl
  | succ j ih =>
    rw [List.replicate_succ, List.foldl_cons, heldAfter_false, ih]
    omega

/-- Settles O33: the register counts the note actions by `heldAfter` (`execAll_notesHeld`), which k NOTE_ON and j
NOTE_OFF evaluate in closed form and which agrees with the source's counter up to 255. -/
theorem notesHeldSaturates : Obligations.NotesHeldSaturates := by
  constructor
  · intro c s k j hzero
    obtain ⟨t, ht, hon⟩ := execAll_notesHeld c (List.replicate k (.noteOn c)) s
    obtain ⟨u, hu, hoff⟩ := execAll_notesHeld c (List.replicate j (.noteOff c)) t
    rw [noteActionsOf_replicate (noteActions_noteOn_self c), hzero, BitVec.toNat_zero,
      foldl_heldAfter_on k 0 (by omega), Nat.zero_add] at hon
    rw [noteActionsOf_replicate (noteActions_noteOff_self c), foldl_heldAfter_off, hon] at hoff
    exact ⟨t, u, ht, hon, hu, hoff⟩
  · intro c s ops start actions
    obtain ⟨t, ht, hheld⟩ := execAll_notesHeld c ops s
    refine ⟨fun k => foldl_sourceCount_nonneg (Int.natCast_nonneg _) _, t, ht, fun hmax => ?_⟩
    rw [hheld]
    exact foldl_heldAfter_eq_sourceCount hmax

end Sys2Proof.Machine
end

section
/-! The operation word, both ways (30_encoding.md R80 to R87): a word is its four fields, decoding reads them
through the opcode map, and encoding an operation in canonical form is the inverse. -/

namespace Sys2Proof

/-! ## The four fields (R80) -/

/-- A word is its four fields side by side. -/
theorem append_fields (w : OpWord) : opcField w ++ chField w ++ zField w ++ operandField w = w := by
  have hupper : opcField w ++ chField w = w.extractLsb' 34 6 :=
    BitVec.extractLsb'_append_extractLsb'_eq_extractLsb' rfl
  have hopcZ : w.extractLsb' 34 6 ++ zField w = w.extractLsb' 32 8 :=
    BitVec.extractLsb'_append_extractLsb'_eq_extractLsb' rfl
  have hword : w.extractLsb' 32 8 ++ operandField w = w.extractLsb' 0 40 :=
    BitVec.extractLsb'_append_extractLsb'_eq_extractLsb' rfl
  rw [hupper, hopcZ, hword, BitVec.extractLsb'_eq_self]

/-- Two words with the same four fields are the same word. -/
theorem word_ext {v w : OpWord} (hopc : opcField v = opcField w) (hch : chField v = chField w)
    (hz : zField v = zField w) (hoperand : operandField v = operandField w) : v = w := by
  rw [← append_fields v, ← append_fields w, hopc, hch, hz, hoperand]

/-- Bits of OPERAND are bits of the word. -/
theorem extractLsb'_operandField {start len : Nat} (h : start + len ≤ 32) (w : OpWord) :
    (operandField w).extractLsb' start len = w.extractLsb' start len :=
  BitVec.extractLsb'_extractLsb'_of_le h

/-! ## Words that agree under a mask -/

/-- Words that agree under a mask agree in every field that the mask covers. -/
theorem extractLsb'_eq_of_and_eq {n : Nat} {v w m : BitVec n} (h : v &&& m = w &&& m) {start len : Nat}
    (hm : m.extractLsb' start len = BitVec.allOnes len) :
    v.extractLsb' start len = w.extractLsb' start len := by
  have hfield := congrArg (BitVec.extractLsb' start len) h
  rwa [BitVec.extractLsb'_and, BitVec.extractLsb'_and, hm, BitVec.and_allOnes, BitVec.and_allOnes] at hfield

/-- Masking by a field of zeros. -/
theorem extractLsb'_and_of_eq_zero {n start len : Nat} {m : BitVec n} (hm : m.extractLsb' start len = 0#len)
    (w : BitVec n) : (w &&& m).extractLsb' start len = 0#len := by
  rw [BitVec.extractLsb'_and, hm, BitVec.and_zero]

/-- Masking by a field of ones. -/
theorem extractLsb'_and_of_eq_allOnes {n start len : Nat} {m : BitVec n}
    (hm : m.extractLsb' start len = BitVec.allOnes len) (w : BitVec n) :
    (w &&& m).extractLsb' start len = w.extractLsb' start len := by
  rw [BitVec.extractLsb'_and, hm, BitVec.and_allOnes]

/-- The mask of the opcode map selects OPC and Z (R84). -/
theorem and_opcodeMask_eq_iff (v w : OpWord) :
    v &&& opcodeMask = w &&& opcodeMask ↔ opcField v = opcField w ∧ zField v = zField w := by
  constructor
  · intro h
    exact ⟨extractLsb'_eq_of_and_eq h (by decide), extractLsb'_eq_of_and_eq h (by decide)⟩
  · rintro ⟨hopc, hz⟩
    have selected {start len : Nat} (hm : opcodeMask.extractLsb' start len = BitVec.allOnes len)
        (h : v.extractLsb' start len = w.extractLsb' start len) :
        (v &&& opcodeMask).extractLsb' start len = (w &&& opcodeMask).extractLsb' start len := by
      rw [extractLsb'_and_of_eq_allOnes hm, extractLsb'_and_of_eq_allOnes hm, h]
    have cleared {start len : Nat} (hm : opcodeMask.extractLsb' start len = 0#len) :
        (v &&& opcodeMask).extractLsb' start len = (w &&& opcodeMask).extractLsb' start len := by
      rw [extractLsb'_and_of_eq_zero hm, extractLsb'_and_of_eq_zero hm]
    exact word_ext (selected (by decide) hopc) (cleared (by decide)) (selected (by decide) hz)
      (cleared (by decide))

/-! ## The decoder by its fields (R85, R87) -/

theorem decode_of_row {w : OpWord} {op : Opcode} (hz : zField w = 0#2)
    (ho : opcodeOf (opcField w) = some op) :
    decode w = .ok (op.assemble (channelField w) (operandField w)) := by
  simp only [decode, hz, ho, if_true]

theorem decode_of_reservedZ {w : OpWord} (hz : zField w ≠ 0#2) :
    decode w = .error (.reservedZ (zField w)) := by
  simp only [decode, hz, if_false]

theorem decode_of_reservedOpcode {w : OpWord} (hz : zField w = 0#2) (ho : opcodeOf (opcField w) = none) :
    decode w = .error (.reservedOpcode (opcField w)) := by
  simp only [decode, hz, ho, if_true]

theorem opcodeOf_eq_some (code : BitVec 4) (op : Opcode) : opcodeOf code = some op ↔ code = op.code :=
  ⟨fun h => (code_of_opcodeOf h).symm, fun h => h ▸ opcodeOf_code op⟩

/-- A word is an operation of a row exactly when it has the row's OPC, and 0 in Z. -/
theorem decode_opcode_iff (w : OpWord) (op : Opcode) :
    (∃ i, decode w = .ok i ∧ i.opcode = op) ↔ opcField w = op.code ∧ zField w = 0#2 := by
  constructor
  · rintro ⟨i, hi, rfl⟩
    obtain ⟨hz, row, ho, rfl⟩ := decode_ok hi
    rw [opcode_assemble]
    exact ⟨(opcodeOf_eq_some _ _).1 ho, hz⟩
  · rintro ⟨hopc, hz⟩
    exact ⟨_, decode_of_row hz ((opcodeOf_eq_some _ _).2 hopc), opcode_assemble _ _ _⟩

theorem decode_error_iff (w : OpWord) :
    (∃ e, decode w = .error e) ↔ zField w ≠ 0#2 ∨ opcodeOf (opcField w) = none := by
  by_cases hz : zField w = 0#2
  · cases ho : opcodeOf (opcField w) with
    | none => simp [decode_of_reservedOpcode hz ho]
    | some op => simp [decode_of_row hz ho, hz]
  · simp [decode_of_reservedZ hz, hz]

/-! ## The verdict (R85) -/

theorem verdict_of_error {w : OpWord} {e : DecodeError} (h : decode w = .error e) (src : Source) :
    verdict src w = .reserved := by
  simp only [verdict, h]

theorem verdict_of_ok {w : OpWord} {i : Instr} (h : decode w = .ok i) (src : Source) :
    verdict src w = if i.legalSource = src then .execute i else .illegalSource := by
  simp only [verdict, h]

/-- The verdict on a word whose OPC has a row: its one legal source decides. -/
theorem verdict_of_row {w : OpWord} {op : Opcode} (hz : zField w = 0#2)
    (ho : opcodeOf (opcField w) = some op) (src : Source) :
    verdict src w = if src = op.legalSource then
      .execute (op.assemble (channelField w) (operandField w)) else .illegalSource := by
  rw [verdict_of_ok (decode_of_row hz ho), Instr.legalSource, opcode_assemble]
  simp only [eq_comm]

/-! ## From an operation to its word and back (R80, R82, R84, R90) -/

theorem operandBits_read_number (c : Channel) (reg : Reg) (index : BitVec 16) :
    (Instr.read c reg index).operandBits.extractLsb' 0 5 = reg.number :=
  BitVec.extractLsb'_append_eq_right

theorem operandBits_read_index (c : Channel) (reg : Reg) (index : BitVec 16) :
    (Instr.read c reg index).operandBits.extractLsb' 8 16 = index := by
  change (0#8 ++ index ++ 0#3 ++ reg.number).extractLsb' 8 16 = index
  rw [BitVec.extractLsb'_append_eq_of_le (by decide), BitVec.extractLsb'_append_eq_of_le (by decide)]
  exact BitVec.extractLsb'_append_eq_right

/-- A READ in canonical form is what its own operand bits say: a field its register ignores is 0 (R81, R82). -/
theorem readOperands_bits {c : Channel} {reg : Reg} {index : BitVec 16}
    (h : (Instr.read c reg index).wellFormed = true) :
    readOperands c (Instr.read c reg index).operandBits = .read c reg index := by
  obtain ⟨hc, hindex⟩ : (reg.usesChannel = true ∨ c = 0) ∧ (reg.usesIndex = true ∨ index = 0#16) := by
    simpa [Instr.wellFormed, readChannelCanonical, readIndexCanonical] using h
  have hchannel : (if reg.usesChannel = true then c else 0) = c := by
    split
    · rfl
    · next hu => exact (hc.resolve_left hu).symm
  have hwindow : (if reg.usesIndex = true then index else 0#16) = index := by
    split
    · rfl
    · next hu => exact (hindex.resolve_left hu).symm
  simp only [readOperands, operandBits_read_number, operandBits_read_index, regOf_number, hchannel, hwindow]

/-- An operation in canonical form is what its row makes of its own CH and operand bits. -/
theorem assemble_bits {i : Instr} (h : i.wellFormed = true) :
    i.opcode.assemble i.chBits.toFin i.operandBits = i := by
  cases i with
  | read c reg index => exact readOperands_bits h
  | setPolicy c p =>
    have hpolicy : ((BitVec.ofBool p).setWidth 32).getLsbD 0 = p := by cases p <;> decide
    exact congrArg (Instr.setPolicy c) hpolicy
  | clrFlags mask =>
    have hmask : (mask.setWidth 32).extractLsb' 0 3 = mask := by
      rw [BitVec.extractLsb'_setWidth_of_le (by decide), BitVec.extractLsb'_eq_self]
    exact congrArg Instr.clrFlags hmask
  | poll gates buttons =>
    have hgates : ((buttons ++ gates : BitVec 8).setWidth 32).extractLsb' 0 4 = gates := by
      rw [BitVec.extractLsb'_setWidth_of_le (by decide)]
      exact BitVec.extractLsb'_append_eq_right
    have hbuttons : ((buttons ++ gates : BitVec 8).setWidth 32).extractLsb' 4 4 = buttons := by
      rw [BitVec.extractLsb'_setWidth_of_le (by decide)]
      exact BitVec.extractLsb'_append_eq_left
    exact congrArg₂ Instr.poll hgates hbuttons
  | _ => rfl

theorem decode_encode {i : Instr} (h : i.wellFormed = true) : decode (encode i) = .ok i := by
  rw [encode, decode_packWord, assemble_bits h]

/-- The word of an operation executes it from its legal source. -/
theorem verdict_encode {i : Instr} (h : i.wellFormed = true) :
    verdict i.legalSource (encode i) = .execute i := by
  rw [verdict_of_ok (decode_encode h), if_pos rfl]

/-- Settles O1: a packed word gives back its fields (`decode_packWord`), and the fields their operation
(`assemble_bits`). -/
theorem decodeInvertsEncode : Obligations.DecodeInvertsEncode := fun _ => decode_encode

/-! ## Every decoded operation is canonical (R81, R82, R86) -/

/-- A row leaves 0 in the fields that its operation ignores. -/
theorem assemble_wellFormed (op : Opcode) (c : Channel) (operand : Micros) :
    (op.assemble c operand).wellFormed = true := by
  cases op with
  | read =>
    simp only [Opcode.assemble, readOperands, Instr.wellFormed, readChannelCanonical, readIndexCanonical,
      Bool.and_eq_true]
    constructor
    · cases (regOf (operand.extractLsb' 0 5)).usesChannel <;> simp
    · cases (regOf (operand.extractLsb' 0 5)).usesIndex <;> simp
  | _ => rfl

/-- Settles O2: canonical by `assemble_wellFormed`, and its own word has its row's OPC and 0 in Z. -/
theorem decodedOperationsAreCanonical : Obligations.DecodedOperationsAreCanonical := by
  intro w i h
  obtain ⟨hopc, hz⟩ := (decode_opcode_iff w i.opcode).1 ⟨i, h, rfl⟩
  have hwf : i.wellFormed = true := by
    obtain ⟨-, op, -, rfl⟩ := decode_ok h
    exact assemble_wellFormed op _ _
  refine ⟨hwf, decode_encode hwf, (and_opcodeMask_eq_iff _ _).2 ⟨?_, ?_⟩⟩
  · rw [encode, opcField_packWord, hopc]
  · rw [encode, zField_packWord, hz]

end Sys2Proof
end

section
/-! Which bits of a word matter: the bits that its operation does not use decide nothing (30_encoding.md R86), and
OPC, Z and the source decide the verdict (R84, R85, R87). -/

namespace Sys2Proof.Machine

/-! ## Ignored bits (R81, R82, R86) -/

/-- The column "uses c" of R202, by number. -/
theorem usesChannel_regOf (num : BitVec 5) : (regOf num).usesChannel = decide (num.toNat < 0x10) := by
  revert num; decide

/-- The two table windows, by number. -/
theorem usesIndex_regOf (num : BitVec 5) :
    (regOf num).usesIndex = decide (num.toNat = 0x14 ∨ num.toNat = 0x15) := by
  revert num; decide

/-- The register number of a READ word, as `usedBits` reads it. -/
theorem toNat_and_regMask (w : OpWord) : (w &&& 0x1F#40).toNat = (w.extractLsb' 0 5).toNat := by
  simp only [BitVec.toNat_and, BitVec.extractLsb'_toNat, Nat.shiftRight_zero]
  exact Nat.and_two_pow_sub_one_eq_mod _ 5

/-- Every operation uses OPC and Z. -/
theorem usedBits_opcode_z (w : OpWord) :
    (usedBits w).extractLsb' 36 4 = BitVec.allOnes 4 ∧ (usedBits w).extractLsb' 32 2 = BitVec.allOnes 2 := by
  unfold usedBits
  split <;> try split_ifs
  all_goals decide

/-- The bits that a READ uses: its register number, CH and the index where the register uses them. -/
theorem usedBits_read {w : OpWord} (h : opcodeOf (opcField w) = some .read) :
    (usedBits w).extractLsb' 0 5 = BitVec.allOnes 5 ∧
    ((regOf (w.extractLsb' 0 5)).usesChannel = true → (usedBits w).extractLsb' 34 2 = BitVec.allOnes 2) ∧
    ((regOf (w.extractLsb' 0 5)).usesIndex = true → (usedBits w).extractLsb' 8 16 = BitVec.allOnes 16) := by
  simp only [usedBits, h, usesChannel_regOf, usesIndex_regOf, decide_eq_true_eq, toNat_and_regMask]
  split_ifs with hc hindex
  · exact ⟨by decide, fun _ => by decide, fun _ => by omega⟩
  · exact ⟨by decide, fun _ => by omega, fun _ => by decide⟩
  · exact ⟨by decide, fun _ => by omega, fun _ => by omega⟩

/-- Two READ words that agree on the bits the second uses are the same READ. -/
theorem readOperands_congr {v w : OpWord} (ho : opcodeOf (opcField w) = some .read)
    (h : v &&& usedBits w = w &&& usedBits w) :
    readOperands (channelField v) (operandField v) = readOperands (channelField w) (operandField w) := by
  obtain ⟨hnumber, hchannel, hindex⟩ := usedBits_read ho
  have hreg : v.extractLsb' 0 5 = w.extractLsb' 0 5 := extractLsb'_eq_of_and_eq h hnumber
  simp only [readOperands, extractLsb'_operandField (start := 0) (len := 5) (by decide),
    extractLsb'_operandField (start := 8) (len := 16) (by decide), hreg]
  congr 1
  · split
    · next hu => exact congrArg BitVec.toFin (extractLsb'_eq_of_and_eq h (hchannel hu))
    · rfl
  · split
    · next hu => exact extractLsb'_eq_of_and_eq h (hindex hu)
    · rfl

/-- Two words that agree on the bits the second's row uses make the same operation of that row. -/
theorem assemble_congr {v w : OpWord} {op : Opcode} (ho : opcodeOf (opcField w) = some op)
    (h : v &&& usedBits w = w &&& usedBits w) :
    op.assemble (channelField v) (operandField v) = op.assemble (channelField w) (operandField w) := by
  have field {start len : Nat} (hm : (usedBits w).extractLsb' start len = BitVec.allOnes len) :
      v.extractLsb' start len = w.extractLsb' start len := extractLsb'_eq_of_and_eq h hm
  have channel (hm : (usedBits w).extractLsb' 34 2 = BitVec.allOnes 2) : channelField v = channelField w :=
    congrArg BitVec.toFin (field hm)
  have operand {start len : Nat} (hle : start + len ≤ 32)
      (hm : (usedBits w).extractLsb' start len = BitVec.allOnes len) :
      (operandField v).extractLsb' start len = (operandField w).extractLsb' start len := by
    rw [extractLsb'_operandField hle, extractLsb'_operandField hle, field hm]
  have whole (hm : (usedBits w).extractLsb' 0 32 = BitVec.allOnes 32) : operandField v = operandField w :=
    field hm
  cases op with
  | read => exact readOperands_congr ho h
  | nop | outAck => rfl
  | setAttack | setDecay | setSustain | setRelease =>
    simp only [Opcode.assemble, channel (by simp only [usedBits, ho]; decide),
      whole (by simp only [usedBits, ho]; decide)]
  | setPolicy =>
    simp only [Opcode.assemble, BitVec.getLsbD_eq_extractLsb', channel (by simp only [usedBits, ho]; decide),
      operand (start := 0) (len := 1) (by decide) (by simp only [usedBits, ho]; decide)]
  | noteOn | noteOff | eval =>
    simp only [Opcode.assemble, channel (by simp only [usedBits, ho]; decide)]
  | clrFlags =>
    simp only [Opcode.assemble,
      operand (start := 0) (len := 3) (by decide) (by simp only [usedBits, ho]; decide)]
  | poll =>
    simp only [Opcode.assemble,
      operand (start := 0) (len := 4) (by decide) (by simp only [usedBits, ho]; decide),
      operand (start := 4) (len := 4) (by decide) (by simp only [usedBits, ho]; decide)]
  | tick => simp only [Opcode.assemble, whole (by simp only [usedBits, ho]; decide)]

/-- Words that agree on the bits the second one's operation uses decode alike. -/
theorem decode_congr {v w : OpWord} (h : v &&& usedBits w = w &&& usedBits w) : decode v = decode w := by
  obtain ⟨hopcUsed, hzUsed⟩ := usedBits_opcode_z w
  have hopc : opcField v = opcField w := extractLsb'_eq_of_and_eq h hopcUsed
  have hz : zField v = zField w := extractLsb'_eq_of_and_eq h hzUsed
  by_cases hw : zField w = 0#2
  · cases ho : opcodeOf (opcField w) with
    | none =>
      rw [decode_of_reservedOpcode hw ho, decode_of_reservedOpcode (hz.trans hw) (hopc ▸ ho), hopc]
    | some op =>
      rw [decode_of_row hw ho, decode_of_row (hz.trans hw) (hopc ▸ ho), assemble_congr ho h]
  · rw [decode_of_reservedZ hw, decode_of_reservedZ (hz ▸ hw), hz]

/-- Settles O3: the verdict is a function of the decoding, which the used bits determine (`decode_congr`). -/
theorem ignoredBitsHaveNoEffect : Obligations.IgnoredBitsHaveNoEffect := by
  intro w v h
  have hdecode := decode_congr h
  exact ⟨hdecode, fun src => by simp only [verdict, hdecode]⟩

/-! ## Reserved words, verdicts and the opcode map (R84, R85, R87) -/

/-- The register numbers from 0x16 up are reserved (R202). -/
theorem regOf_eq_reserved {num : BitVec 5} (h : 0x16 ≤ num.toNat) : ∃ k, regOf num = .reserved k := by
  revert num; decide

/-- Settles O4: by `decode_error_iff`, and a READ of a reserved number is a row like any other. -/
theorem reservedEncodingsExactly : Obligations.ReservedEncodingsExactly := by
  constructor
  · intro w
    rw [decode_error_iff, opcodeOf_eq_none]
  · intro w hz hopc hnum
    obtain ⟨k, hk⟩ := regOf_eq_reserved hnum
    have hrow : opcodeOf (opcField w) = some .read := (opcodeOf_eq_some _ _).2 hopc
    rw [verdict_of_row hz hrow, if_pos (show Source.host = Opcode.read.legalSource from rfl),
      Opcode.assemble, readOperands, extractLsb'_operandField (by decide), hk]
    exact ⟨_, _, _, rfl⟩

/-- The codes above 0xD are the two without a row. -/
theorem opcodeOf_eq_none_iff_lt (code : BitVec 4) : opcodeOf code = none ↔ 0xD < code.toNat := by
  revert code; decide

/-- Settles O5: the branches of the decoder, and `verdict_of_row` where OPC has a row. -/
theorem verdictOfEveryWord : Obligations.VerdictOfEveryWord := by
  intro src w
  refine ⟨fun hz => verdict_of_error (decode_of_reservedZ hz) src, fun hz hcode => ?_,
    fun op hz ho => verdict_of_row hz ho src, fun hcode => ?_⟩
  · exact verdict_of_error (decode_of_reservedOpcode hz ((opcodeOf_eq_none_iff_lt _).2 hcode)) src
  · rw [← Option.ne_none_iff_exists', Ne, opcodeOf_eq_none_iff_lt]
    omega

/-- Each match value is the row's code and nothing else. -/
theorem matchValue_of_mem : ∀ row ∈ opcodeTable, row.matchValue = packWord row.opcode.code 0#2 0#32 := by
  decide

/-- Every opcode has its row. -/
theorem mem_opcodeTable (op : Opcode) : ⟨op, packWord op.code 0#2 0#32⟩ ∈ opcodeTable := by
  cases op <;> decide

theorem and_opcodeMask_eq_matchValue_iff (w : OpWord) (op : Opcode) :
    w &&& opcodeMask = packWord op.code 0#2 0#32 ↔ opcField w = op.code ∧ zField w = 0#2 := by
  have hself : packWord op.code 0#2 0#32 = packWord op.code 0#2 0#32 &&& opcodeMask := by
    cases op <;> decide
  rw [hself, and_opcodeMask_eq_iff, opcField_packWord, zField_packWord]

/-- Settles O6: both sides say that OPC is the row's code and Z is 0. -/
theorem opcodeMapByMatchAndMask : Obligations.OpcodeMapByMatchAndMask := by
  intro w op
  rw [decode_opcode_iff, ← and_opcodeMask_eq_matchValue_iff]
  constructor
  · intro h
    exact ⟨_, mem_opcodeTable op, rfl, h⟩
  · rintro ⟨row, hrow, rfl, h⟩
    exact h.trans (matchValue_of_mem row hrow)

/-- Settles O7: the words are computed, and decoding follows from `decode_encode`. -/
theorem workedEncodings : Obligations.WorkedEncodings := by
  refine ⟨fun row hrow => ?_, decode_of_reservedZ (by decide), decode_of_reservedOpcode (by decide) (by decide)⟩
  have hword : encode row.1 = row.2 ∧ row.1.wellFormed = true := by
    revert row
    decide
  obtain ⟨hencode, hwf⟩ := hword
  exact ⟨hencode, hencode ▸ decode_encode hwf⟩

end Sys2Proof.Machine
end

section
/-! What a step makes of the input presented next: a word (30_encoding.md R85, R88) or a pin that makes its agent
issue one (R92, R93). -/

namespace Sys2Proof.Machine

/-! ## A presented word -/

/-- Settles O8: the verdict on the word is to execute its operation. -/
theorem stepExecutesTheDecodedOperation : Obligations.StepExecutesTheDecodedOperation := by
  intro s src w rest i hinputs hdecode hsource
  have hverdict : verdict src w = .execute i := by rw [verdict_of_ok hdecode, if_pos hsource]
  obtain ⟨j, hj, hstep⟩ | ⟨hrefused, -⟩ := step_word_cases hinputs
  · obtain rfl : i = j := Verdict.execute.inj (hverdict.symm.trans hj)
    exact hstep
  · exact absurd hverdict (verdict_ne_execute hrefused i)

/-- Settles O9: of the two outcomes of `step_word_cases`, a refused word has the second. -/
theorem discardedWordOnlySetsCmdErr : Obligations.DiscardedWordOnlySetsCmdErr := by
  intro s src w rest hinputs hrefused
  obtain ⟨i, hi, -⟩ | ⟨-, hstep⟩ := step_word_cases hinputs
  · exact absurd hi (verdict_ne_execute hrefused i)
  · exact hstep

/-! ## The pins (R92, R93) -/

section
variable {s : State} {rest : List Input}

/-- An input that presents an operation from its own agent executes it, and moves the sequencer. -/
theorem step_of_presented {x : Input} {i : Instr} (hinputs : s.inputs = x :: rest)
    (hwf : i.wellFormed = true) (hx : presented s.seqNext x = some (i.legalSource, encode i)) :
    step s = exec i { s with inputs := rest, seqNext := seqMove s.seqNext x } := by
  apply step_of_fetch_run
  simp only [fetch, hinputs, takeInput, hx, accept, verdict_encode hwf]

/-- An input that presents no word, other than `rst`, moves the sequencer and does no more. -/
theorem step_of_not_presented {x : Input} (hinputs : s.inputs = x :: rest) (hrst : x ≠ .rst)
    (hx : presented s.seqNext x = none) :
    step s = .next { s with inputs := rest, seqNext := seqMove s.seqNext x } := by
  apply step_of_fetch_done
  simp only [fetch, hinputs, takeInput, hx, hrst, if_false]

theorem step_usTick (hinputs : s.inputs = .usTick :: rest) :
    step s = exec (.tick 1#32) { s with inputs := rest } :=
  step_of_presented (x := .usTick) hinputs rfl rfl

theorem step_pollStrobe {gates buttons : BitVec 4} (hinputs : s.inputs = .pollStrobe gates buttons :: rest) :
    step s = exec (.poll gates buttons) { s with inputs := rest } :=
  step_of_presented (x := .pollStrobe gates buttons) hinputs rfl rfl

theorem step_outAck (hinputs : s.inputs = .outAck :: rest) :
    step s = exec .outAck { s with inputs := rest } :=
  step_of_presented (x := .outAck) hinputs rfl rfl

theorem step_sampleStrobe (hinputs : s.inputs = .sampleStrobe :: rest) :
    step s = .next { s with inputs := rest, seqNext := some (s.seqNext.getD 0) } :=
  step_of_not_presented hinputs (by decide) rfl

theorem step_seqTurn {c : Channel} (hinputs : s.inputs = .seqTurn :: rest) (hpos : s.seqNext = some c) :
    step s = exec (.eval c) { s with inputs := rest, seqNext := seqAfter c } := by
  have hmove : seqMove s.seqNext .seqTurn = seqAfter c := by rw [hpos]; rfl
  rw [step_of_presented (i := .eval c) hinputs rfl (by rw [hpos]; rfl), hmove]

theorem step_seqTurn_idle (hinputs : s.inputs = .seqTurn :: rest) (hpos : s.seqNext = none) :
    step s = .next { s with inputs := rest } := by
  have hmove : seqMove s.seqNext .seqTurn = s.seqNext := by rw [hpos]; rfl
  rw [step_of_not_presented hinputs (by decide) (by rw [hpos]; rfl), hmove]

end

/-- Settles O12: each pin presents the operation of its agent (`step_of_presented`) or none. -/
theorem pinsDriveTheirAgents : Obligations.PinsDriveTheirAgents := by
  intro s rest
  refine ⟨step_usTick, fun _ _ => step_pollStrobe, step_outAck, fun h hpos => ?_, fun c h hpos => ?_,
    fun _ => step_seqTurn, step_seqTurn_idle, rfl, rfl, rfl, rfl⟩
  · rw [step_sampleStrobe h, hpos, Option.getD_none]
  · rw [step_sampleStrobe h, hpos, Option.getD_some, ← hpos]

end Sys2Proof.Machine
end

section
/-! The pseudo-operations of the operation text (30_encoding.md R91). -/

namespace Sys2Proof.Machine

theorem atOps_eq_none {now t : Time} (h : t.toNat < now.toNat) : atOps now t = none :=
  if_neg fun hlegal => by omega

/-- The distance to a later time, as an operand, brings `now` there. -/
theorem add_distance {now t : Time} (hle : now.toNat ≤ t.toNat) (hfits : t.toNat - now.toNat < 2 ^ 32) :
    now + (BitVec.ofNat 32 (t.toNat - now.toNat)).setWidth 64 = t := by
  apply BitVec.eq_of_toNat_eq
  rw [BitVec.toNat_add, BitVec.toNat_setWidth_of_le (by decide), BitVec.toNat_ofNat, Nat.mod_eq_of_lt hfits,
    Nat.add_sub_cancel' hle, Nat.mod_eq_of_lt t.isLt]

theorem execAll_tick (n : Micros) (s : State) :
    execAll [.tick n] s = .next { s with now := s.now + n.setWidth 64 } := rfl

/-- Settles O60: AT is one TICK over the distance (`add_distance`), HOLD unfolds by one repetition, and the others
are written out. -/
theorem pseudoOperations : Obligations.PseudoOperations := by
  refine ⟨fun s t hle hfits => ⟨_, if_pos ⟨hle, hfits⟩, ?_⟩, fun _ _ => atOps_eq_none,
    fun g b dt k => ⟨rfl, ?_⟩, rfl, fun _ _ _ _ _ => rfl, fun _ _ => rfl⟩
  · rw [execAll_tick, add_distance hle hfits]
  · rw [holdOps, List.replicate_succ, List.flatten_cons, holdOps]

end Sys2Proof.Machine
end

section
/-! The frame of POLL: what its note and button actions leave alone and which events they emit (43_trigger.md R152,
60_exceptions.md R223, R226). -/

namespace Sys2Proof.Machine

/-! ## The banks (R226) -/

/-- A note action writes neither the parameters nor the output level of its bank. -/
def Engine.OutsideNotesKept (e e' : Engine) : Prop :=
  e.ParamsKept e' ∧ e'.lastOutputLevel = e.lastOutputLevel

theorem play_outsideNotesKept (t : Time) (e : Engine) (isOn : Bool) : e.OutsideNotesKept (e.play t isOn) := by
  cases isOn <;> simp [Engine.OutsideNotesKept, Engine.ParamsKept]

theorem Engine.OutsideNotesKept.trans {e e' e'' : Engine} (h : e.OutsideNotesKept e')
    (h' : e'.OutsideNotesKept e'') : e.OutsideNotesKept e'' := by
  obtain ⟨⟨ha, hd, hr, hs, hp⟩, ho⟩ := h
  obtain ⟨⟨ha', hd', hr', hs', hp'⟩, ho'⟩ := h'
  exact ⟨⟨ha'.trans ha, hd'.trans hd, hr'.trans hr, hs'.trans hs, hp'.trans hp⟩, ho'.trans ho⟩

theorem foldl_play_outsideNotesKept (t : Time) (e : Engine) (actions : List Bool) :
    e.OutsideNotesKept (actions.foldl (Engine.play t) e) :=
  List.foldlRecOn (motive := e.OutsideNotesKept) actions _ ⟨⟨rfl, rfl, rfl, rfl, rfl⟩, rfl⟩
    (fun b hb isOn _ => hb.trans (play_outsideNotesKept t b isOn))

/-! ## The flags, the environment's part and the trace -/

/-- The events a POLL can emit (R163, R164). -/
def Event.IsPollEvent (ev : Event) : Prop := ev = .modeToggle ∨ ∃ c, ev = .resync c

/-- What a part of POLL does outside the banks, the cells and the trigger fields: of the flags it may set
`display_dirty` and no more, and it adds its events to the trace. -/
def PollFrame (s t : State) : Prop :=
  t.outRefresh = s.outRefresh ∧ t.cmdErr = s.cmdErr ∧ (s.displayDirty = true → t.displayDirty = true) ∧
  t.seqNext = s.seqNext ∧ t.inputs = s.inputs ∧
  ∃ evs, t.trace = s.trace ++ evs ∧ ∀ ev ∈ evs, ev.IsPollEvent

/-- An action that emits nothing. -/
theorem PollFrame.of_trace_eq {s t : State} (hrefresh : t.outRefresh = s.outRefresh)
    (herr : t.cmdErr = s.cmdErr) (hdisplay : s.displayDirty = true → t.displayDirty = true)
    (hseq : t.seqNext = s.seqNext) (hinputs : t.inputs = s.inputs) (htrace : t.trace = s.trace) :
    PollFrame s t :=
  ⟨hrefresh, herr, hdisplay, hseq, hinputs, [], by rw [htrace, List.append_nil],
    fun _ h => absurd h List.not_mem_nil⟩

theorem PollFrame.trans {s t u : State} (h : PollFrame s t) (h' : PollFrame t u) : PollFrame s u := by
  obtain ⟨hrefresh, herr, hdisplay, hseq, hinputs, evs, htrace, hevs⟩ := h
  obtain ⟨hrefresh', herr', hdisplay', hseq', hinputs', evs', htrace', hevs'⟩ := h'
  refine ⟨hrefresh'.trans hrefresh, herr'.trans herr, hdisplay' ∘ hdisplay, hseq'.trans hseq,
    hinputs'.trans hinputs, evs ++ evs', ?_, fun ev hev => ?_⟩
  · rw [htrace', htrace, List.append_assoc]
  · exact (List.mem_append.1 hev).elim (hevs ev) (hevs' ev)

theorem gateAction_frame (i : Channel) (p : Bool) (t : Time) (s : State) :
    PollFrame s (gateAction i p t s) := by
  obtain ⟨-, h⟩ | ⟨-, h⟩ := gateAction_cases i p t s <;> rw [h] <;>
    exact .of_trace_eq rfl rfl (fun _ => rfl) rfl rfl rfl

theorem buttonAction_frame (i : Channel) (p : Bool) (t : Time) (s : State) :
    PollFrame s (buttonAction i p t s) := by
  have silent : PollFrame s s := .of_trace_eq rfl rfl id rfl rfl rfl
  obtain ⟨-, -, h⟩ | ⟨-, -, -, h⟩ | ⟨-, -, -, h⟩ | ⟨-, -, -, h⟩ | ⟨-, -, -, h⟩ | ⟨-, -, h⟩ :=
    buttonAction_cases i p t s <;> rw [h]
  · exact .of_trace_eq rfl rfl (fun _ => rfl) rfl rfl rfl
  · exact .of_trace_eq rfl rfl (fun _ => rfl) rfl rfl rfl
  · exact silent
  · exact ⟨rfl, rfl, fun _ => rfl, rfl, rfl, [.modeToggle], rfl, by simp [Event.IsPollEvent]⟩
  · exact ⟨rfl, rfl, fun _ => rfl, rfl, rfl, [.resync i], rfl, by simp [Event.IsPollEvent]⟩
  · exact silent

/-- Both phases of a POLL (R152, R158). -/
theorem execPoll_frame {gates buttons : BitVec 4} {s t : State}
    (h : exec (.poll gates buttons) s = .next t) : PollFrame s t := by
  obtain rfl : pollButtons buttons s (pollGates gates s (pollSample gates buttons s)) = t :=
    Host.Outcome.next.inj h
  have hsample : PollFrame s (pollSample gates buttons s) := .of_trace_eq rfl rfl id rfl rfl rfl
  have hgates : PollFrame s (pollGates gates s (pollSample gates buttons s)) :=
    dispatch_keeps (PollFrame s) (fun _ _ _ hst => hst.trans (gateAction_frame _ _ _ _)) hsample
  exact dispatch_keeps (PollFrame s) (fun _ _ _ hst => hst.trans (buttonAction_frame _ _ _ _)) hgates

/-- Settles O41: the cells by `execPoll_kept`, each bank by the note actions on it (`execPoll_engine`), all else by
`execPoll_frame`. -/
theorem pollSamplesAllCellsAndKeepsTheRest : Obligations.PollSamplesAllCellsAndKeepsTheRest := by
  refine ⟨fun _ _ => rfl, fun g b s => ?_⟩
  obtain ⟨t, ht⟩ := exec_next (.poll g b) s
  obtain ⟨hcfg, hnow, hgates, hbuttons⟩ := execPoll_kept ht
  obtain ⟨hrefresh, herr, hdisplay, hseq, hinputs, evs, htrace, hevs⟩ := execPoll_frame ht
  have hbank (c : Channel) : (s.engine c).OutsideNotesKept (t.engine c) := by
    rw [execPoll_engine ht c]
    exact foldl_play_outsideNotesKept _ _ _
  exact ⟨t, evs, ht, hgates, hbuttons, hnow, hrefresh, herr, hdisplay, ⟨hcfg, hseq, hinputs⟩,
    fun c => (hbank c).1, fun c => (hbank c).2, htrace, hevs⟩

end Sys2Proof.Machine
end

section
/-! The curves of 40_curve_table.md over the rationals: their closed forms (R103), their order before quantisation
(R104), and the rounding that makes table entries of them (R102). -/

namespace Sys2Proof.Machine

/-! ## A legal coefficient, as a rational (R101) -/

section
variable {a : Coeff} (h : a.Legal)
include h

theorem coeffRat_pos : 0 < coeffRat a :=
  div_pos (Nat.cast_pos.2 h.1) (Nat.cast_pos.2 (h.1.trans h.2))

theorem coeffRat_lt_one : coeffRat a < 1 :=
  (div_lt_one (Nat.cast_pos.2 (h.1.trans h.2))).2 (Nat.cast_lt.2 h.2)

theorem coeffRat_pow_strictAnti : StrictAnti (coeffRat a ^ · : ℕ → ℚ) :=
  pow_right_strictAnti₀ (coeffRat_pos h) (coeffRat_lt_one h)

theorem one_sub_coeffRat_pow_pos {m : ℕ} (hm : 0 < m) : 0 < 1 - coeffRat a ^ m :=
  sub_pos.2 (pow_lt_one₀ (coeffRat_pos h).le (coeffRat_lt_one h) hm.ne')

/-- A power of the coefficient over the common denominator `den^m`. -/
theorem cast_pow_mul_pow_sub {i m : ℕ} (hi : i ≤ m) :
    ((a.num ^ i * a.den ^ (m - i) : ℕ) : ℚ) = (a.den : ℚ) ^ m * coeffRat a ^ i := by
  have hq : (a.den : ℚ) ≠ 0 := Nat.cast_ne_zero.2 (h.1.trans h.2).ne'
  rw [coeffRat, div_pow, ← pow_mul_pow_sub (a.den : ℚ) hi]
  push_cast
  field_simp

theorem cast_num_pow (m : ℕ) : ((a.num ^ m : ℕ) : ℚ) = (a.den : ℚ) ^ m * coeffRat a ^ m := by
  simpa using cast_pow_mul_pow_sub h (le_refl m)

theorem cast_den_pow_sub_num_pow (m : ℕ) :
    ((a.den ^ m - a.num ^ m : ℕ) : ℚ) = (a.den : ℚ) ^ m * (1 - coeffRat a ^ m) := by
  rw [Nat.cast_sub (Nat.pow_le_pow_left h.2.le m), cast_num_pow h, mul_one_sub, Nat.cast_pow]

theorem den_pow_sub_num_pow_pos {m : ℕ} (hm : 0 < m) : 0 < a.den ^ m - a.num ^ m :=
  Nat.sub_pos_of_lt (Nat.pow_lt_pow_left h.2 hm.ne')

theorem cast_den_pow_pos (m : ℕ) : (0 : ℚ) < (a.den : ℚ) ^ m :=
  pow_pos (Nat.cast_pos.2 (h.1.trans h.2)) m

end

/-! ## The closed forms (R103) -/

theorem attSeed_eq (cfg : Config) (i : ℕ) : attSeed cfg i = (cfg.top : ℚ) * (1 - coeffRat cfg.alpha ^ i) := by
  induction i with
  | zero => simp [attSeed]
  | succ i ih =>
    rw [attSeed, ih, pow_succ]
    ring

theorem drSeed_eq (cfg : Config) (i : ℕ) : drSeed cfg i = (cfg.top : ℚ) * coeffRat cfg.beta ^ i := by
  induction i with
  | zero => simp [drSeed]
  | succ i ih =>
    rw [drSeed, ih, pow_succ]
    ring

section
variable {cfg : Config} (h : cfg.Legal)
include h

theorem alpha_legal : cfg.alpha.Legal := by
  obtain ⟨-, -, -, -, halpha, -⟩ := h
  exact halpha

theorem beta_legal : cfg.beta.Legal := by
  obtain ⟨-, -, -, -, -, hbeta⟩ := h
  exact hbeta

theorem cast_top : (cfg.top : ℚ) = (cfg.r : ℚ) - 1 := by
  rw [Config.top, Nat.cast_sub (by have := h.1; omega), Nat.cast_one]

theorem cast_top_pos : (0 : ℚ) < cfg.top := Nat.cast_pos.2 (top_pos h)

theorem one_sub_alpha_pow_last_pos : 0 < 1 - coeffRat cfg.alpha ^ cfg.last :=
  one_sub_coeffRat_pow_pos (alpha_legal h) (last_pos h)

theorem one_sub_beta_pow_last_pos : 0 < 1 - coeffRat cfg.beta ^ cfg.last :=
  one_sub_coeffRat_pow_pos (beta_legal h) (last_pos h)

theorem attSpan_pos : 0 < attSeed cfg cfg.last - attSeed cfg 0 := by
  rw [attSeed_eq, attSeed, sub_zero]
  exact mul_pos (cast_top_pos h) (one_sub_alpha_pow_last_pos h)

theorem drSpan_pos : 0 < drSeed cfg 0 - drSeed cfg cfg.last := by
  rw [drSeed_eq cfg cfg.last, drSeed, ← mul_one_sub]
  exact mul_pos (cast_top_pos h) (one_sub_beta_pow_last_pos h)

theorem attNormal_eq (i : ℕ) : attNormal cfg i =
    (cfg.top : ℚ) * (1 - coeffRat cfg.alpha ^ i) / (1 - coeffRat cfg.alpha ^ cfg.last) := by
  rw [attNormal, attSeed, sub_zero, sub_zero, attSeed_eq, attSeed_eq, mul_right_comm, mul_assoc,
    mul_div_mul_left _ _ (cast_top_pos h).ne']

theorem drNormal_eq (i : ℕ) : drNormal cfg i =
    (cfg.top : ℚ) * (coeffRat cfg.beta ^ i - coeffRat cfg.beta ^ cfg.last) /
      (1 - coeffRat cfg.beta ^ cfg.last) := by
  rw [drNormal, drSeed_eq, drSeed_eq, drSeed, ← mul_sub, ← mul_one_sub, mul_right_comm, mul_assoc,
    mul_div_mul_left _ _ (cast_top_pos h).ne']

/-- With equal coefficients the two normalised numerators add up to `top` times the common divisor (R103). -/
theorem drNormal_mirror (hcoeff : coeffRat cfg.alpha = coeffRat cfg.beta) (i : ℕ) :
    drNormal cfg i = (cfg.top : ℚ) - attNormal cfg i := by
  have hdiv := (one_sub_beta_pow_last_pos h).ne'
  rw [attNormal_eq h, drNormal_eq h, hcoeff, eq_sub_iff_add_eq, ← add_div, div_eq_iff hdiv]
  ring

end

/-! ## End points and order before quantisation (R104) -/

theorem attNormal_zero (cfg : Config) : attNormal cfg 0 = 0 := by rw [attNormal, sub_self, zero_mul, zero_div]

theorem drNormal_last (cfg : Config) : drNormal cfg cfg.last = 0 := by rw [drNormal, sub_self, zero_mul, zero_div]

section
variable {cfg : Config} (h : cfg.Legal)
include h

theorem attNormal_last : attNormal cfg cfg.last = cfg.top :=
  mul_div_cancel_left₀ _ (attSpan_pos h).ne'

theorem drNormal_zero : drNormal cfg 0 = cfg.top :=
  mul_div_cancel_left₀ _ (drSpan_pos h).ne'

theorem attNormal_strictMono : StrictMono (attNormal cfg) := by
  intro i j hij
  have hpow := coeffRat_pow_strictAnti (alpha_legal h) hij
  rw [attNormal_eq h, attNormal_eq h]
  exact div_lt_div_of_pos_right (mul_lt_mul_of_pos_left (sub_lt_sub_left hpow 1) (cast_top_pos h))
    (one_sub_alpha_pow_last_pos h)

theorem drNormal_strictAnti : StrictAnti (drNormal cfg) := by
  intro i j hij
  have hpow := coeffRat_pow_strictAnti (beta_legal h) hij
  rw [drNormal_eq h, drNormal_eq h]
  exact div_lt_div_of_pos_right (mul_lt_mul_of_pos_left (sub_lt_sub_right hpow _) (cast_top_pos h))
    (one_sub_beta_pow_last_pos h)

end

/-- Settles O17: the recurrences by induction (`attSeed_eq`, `drSeed_eq`), their normalisations by cancelling `top`,
and the mirror from both. -/
theorem curveClosedForms : Obligations.CurveClosedForms := fun cfg h =>
  ⟨attSeed_eq cfg, drSeed_eq cfg, attNormal_eq h, drNormal_eq h, drNormal_mirror h⟩

/-! ## The rounding (R102 step 4) -/

theorem roundHalfUpDiv_eq_floor {x y : ℕ} (hy : 0 < y) :
    (roundHalfUpDiv x y : ℤ) = ⌊(x : ℚ) / (y : ℚ) + 1 / 2⌋ := by
  have hy' : (y : ℚ) ≠ 0 := Nat.cast_ne_zero.2 hy.ne'
  have hsum : (x : ℚ) / y + 1 / 2 = ((2 * x + y : ℕ) : ℚ) / ((2 * y : ℕ) : ℚ) := by
    push_cast
    field_simp
  rw [hsum, Rat.floor_natCast_div_natCast, roundHalfUpDiv, Int.natCast_ediv]

/-- The widened fraction of a table entry (R103): a common factor of both parts does not change what is rounded. -/
theorem roundHalfUpDiv_widened {t x y : ℕ} {d u v : ℚ} (hy : 0 < y) (hd : 0 < d) (hx : (x : ℚ) = d * u)
    (hv : (y : ℚ) = d * v) : (roundHalfUpDiv (t * x) y : ℤ) = ⌊(t : ℚ) * u / v + 1 / 2⌋ := by
  rw [roundHalfUpDiv_eq_floor hy, Nat.cast_mul, hx, hv, mul_left_comm, mul_div_mul_left _ _ hd.ne']

theorem floor_natCast_add_half (n : ℕ) : ⌊(n : ℚ) + 1 / 2⌋ = n := by
  rw [← round_eq, round_natCast]

/-- An odd divisor leaves no tie, so rounding half up commutes with the reflection of `[0, m]`. -/
theorem roundHalfUpDiv_mirror {x y m : ℕ} (hodd : y % 2 = 1) (hx : x ≤ m * y) :
    roundHalfUpDiv (m * y - x) y = m - roundHalfUpDiv x y := by
  have hk := roundHalfUpDiv_le hx
  have hdm := Nat.div_add_mod (2 * x + y) (2 * y)
  have hr := Nat.mod_lt (2 * x + y) (show 0 < 2 * y by omega)
  rw [roundHalfUpDiv] at hk
  rw [roundHalfUpDiv, roundHalfUpDiv]
  generalize (2 * x + y) / (2 * y) = k at hk hdm
  generalize (2 * x + y) % (2 * y) = r at hdm hr
  obtain ⟨l, rfl⟩ := Nat.exists_eq_add_of_le hk
  have hr0 : r ≠ 0 := by
    rintro rfl
    rw [mul_assoc] at hdm
    omega
  have hnum : 2 * ((k + l) * y - x) + y = 2 * y - r + 2 * y * l := by
    have hsplit : 2 * ((k + l) * y) = 2 * y * k + 2 * y * l := by ring
    omega
  rw [hnum, Nat.add_mul_div_left _ _ (by omega), Nat.div_eq_of_lt (by omega)]
  omega

/-! ## A table entry is the rounded normalised curve (R102) -/

/-- `A'` or `D'` of R102, by the table it is quantised into. -/
def tableNormal (cfg : Config) : Table → ℕ → ℚ
  | .att => attNormal cfg
  | .dr => drNormal cfg

section
variable {cfg : Config} (h : cfg.Legal)
include h

theorem attEntry_eq_floor {i : ℕ} (hi : i ≤ cfg.last) : (attEntry cfg i : ℤ) = ⌊attNormal cfg i + 1 / 2⌋ := by
  have ha := alpha_legal h
  rw [attEntry, attNormal_eq h]
  refine roundHalfUpDiv_widened (den_pow_sub_num_pow_pos ha (last_pos h)) (cast_den_pow_pos ha cfg.last) ?_
    (cast_den_pow_sub_num_pow ha _)
  rw [Nat.sub_mul, pow_mul_pow_sub _ hi, Nat.cast_sub (pow_mul_pow_sub_bounds ha.2.le hi).2,
    cast_pow_mul_pow_sub ha hi, Nat.cast_pow, mul_one_sub]

theorem drEntry_eq_floor {i : ℕ} (hi : i ≤ cfg.last) : (drEntry cfg i : ℤ) = ⌊drNormal cfg i + 1 / 2⌋ := by
  have hb := beta_legal h
  rw [drEntry, drNormal_eq h]
  refine roundHalfUpDiv_widened (den_pow_sub_num_pow_pos hb (last_pos h)) (cast_den_pow_pos hb cfg.last) ?_
    (cast_den_pow_sub_num_pow hb _)
  rw [Nat.cast_sub (pow_mul_pow_sub_bounds hb.2.le hi).1, cast_pow_mul_pow_sub hb hi, cast_num_pow hb, mul_sub]

theorem tableEntry_eq_floor (table : Table) {i : ℕ} (hi : i ≤ cfg.last) :
    (tableEntry cfg table i : ℤ) = ⌊tableNormal cfg table i + 1 / 2⌋ := by
  cases table
  · exact attEntry_eq_floor h hi
  · exact drEntry_eq_floor h hi

/-- An integer is rounded to itself. -/
theorem tableEntry_of_tableNormal_eq {table : Table} {i n : ℕ} (hi : i ≤ cfg.last)
    (hn : tableNormal cfg table i = n) : tableEntry cfg table i = n := by
  have hfloor := tableEntry_eq_floor h table hi
  rw [hn, floor_natCast_add_half] at hfloor
  exact Nat.cast_inj.1 hfloor

/-- Rounding preserves order. -/
theorem tableEntry_le_of_tableNormal_le {table : Table} {i j : ℕ} (hi : i ≤ cfg.last) (hj : j ≤ cfg.last)
    (hle : tableNormal cfg table i ≤ tableNormal cfg table j) :
    tableEntry cfg table i ≤ tableEntry cfg table j := by
  rw [← Int.ofNat_le, tableEntry_eq_floor h table hi, tableEntry_eq_floor h table hj]
  exact Int.floor_mono (add_le_add_left hle _)

end

/-- Settles O18: the recurrence is the definition of the seeds, and the entries round it by
`tableEntry_eq_floor`. -/
theorem romHoldsTheQuantisedCurve : Obligations.RomHoldsTheQuantisedCurve := by
  intro cfg h
  rw [← cast_top h]
  exact ⟨rfl, rfl, fun _ => rfl, fun _ => rfl, sub_pos.1 (attSpan_pos h), sub_pos.1 (drSpan_pos h),
    fun _ hi => tableEntry_eq_floor h .att (Nat.le_sub_one_of_lt hi),
    fun _ hi => tableEntry_eq_floor h .dr (Nat.le_sub_one_of_lt hi)⟩

/-- Settles O19: the end points are integers before rounding, and rounding keeps the order of the strictly monotonic
normalised curves. -/
theorem tableInvariants : Obligations.TableInvariants := by
  intro cfg h
  have hidx {i : ℕ} (hi : i < cfg.n) : i ≤ cfg.last := Nat.le_sub_one_of_lt hi
  have hatt := attNormal_strictMono h
  have hdr := drNormal_strictAnti h
  refine ⟨?_, ?_, ?_, ?_, fun i hi => ?_, fun i hi => ?_, fun table _ hi => tableEntry_le h table (hidx hi),
    fun _ _ hij _ => ⟨hatt hij, hdr hij⟩⟩
  · exact tableEntry_of_tableNormal_eq h (Nat.zero_le _) ((attNormal_zero cfg).trans Nat.cast_zero.symm)
  · exact tableEntry_of_tableNormal_eq h le_rfl (attNormal_last h)
  · exact tableEntry_of_tableNormal_eq h (Nat.zero_le _) (drNormal_zero h)
  · exact tableEntry_of_tableNormal_eq h le_rfl ((drNormal_last cfg).trans Nat.cast_zero.symm)
  · exact tableEntry_le_of_tableNormal_le h (hidx (Nat.lt_of_succ_lt hi)) (hidx hi) (hatt i.lt_succ_self).le
  · exact tableEntry_le_of_tableNormal_le h (hidx hi) (hidx (Nat.lt_of_succ_lt hi)) (hdr i.lt_succ_self).le

/-! ## The default tables (R105) -/

/-- DR mirrors ATT after rounding too when the coefficients are equal and `den^(N-1) - num^(N-1)`, the divisor of both,
is odd. -/
theorem tableEntry_dr_mirror {cfg : Config} (h : cfg.alpha.Legal) (hcoeff : cfg.beta = cfg.alpha)
    (hodd : (cfg.alpha.den ^ cfg.last - cfg.alpha.num ^ cfg.last) % 2 = 1) {i : ℕ} (hi : i ≤ cfg.last) :
    tableEntry cfg .dr i = cfg.top - tableEntry cfg .att i := by
  obtain ⟨hlow, hhigh⟩ := pow_mul_pow_sub_bounds h.2.le hi
  simp only [tableEntry, attEntry, drEntry, hcoeff, Nat.sub_mul, pow_mul_pow_sub _ hi]
  rw [← roundHalfUpDiv_mirror hodd (Nat.mul_le_mul_left _ (Nat.sub_le_sub_left hlow _)), ← Nat.mul_sub]
  congr 2
  omega

theorem default_tableEntry_dr {i : ℕ} (hi : i < 256) :
    tableEntry Config.default .dr i = 4095 - tableEntry Config.default .att i := by
  have htop : Config.default.top = 4095 := rfl
  have hlast : Config.default.last = 255 := rfl
  rw [← htop]
  exact tableEntry_dr_mirror (by decide) rfl (by decide +kernel) (by omega)

theorem default_tableEntry_dr_map : (List.range 256).map (tableEntry Config.default .dr) =
    ((List.range 256).map (tableEntry Config.default .att)).map (4095 - ·) := by
  rw [List.map_map]
  refine List.map_congr_left fun i hi => ?_
  rw [Function.comp_apply, default_tableEntry_dr (List.mem_range.1 hi)]

/-- Settles O20: the entries of ATT are computed once; DR, the order and the sums follow from that list and the
mirror. -/
theorem defaultRomContents : Obligations.DefaultRomContents := by
  refine (fun hatt => ⟨hatt, fun _ => default_tableEntry_dr, ?_⟩) (by decide +kernel)
  have hrise : ∀ i < 255, tableEntry Config.default .att i < tableEntry Config.default .att (i + 1) :=
    (List.isChain_range_succ _ 255).1 ((List.isChain_map _).1 (by rw [hatt]; decide +kernel))
  refine ⟨hrise, fun i hi => ?_, ?_, ?_⟩
  · have hle := tableEntry_le (by decide : Config.default.Legal) .att (i := i + 1) (Nat.succ_le_of_lt hi)
    have hlt := hrise i hi
    rw [default_tableEntry_dr (by omega), default_tableEntry_dr (by omega)]
    exact Nat.sub_lt_sub_left (hlt.trans_le hle) hlt
  · rw [hatt]
    decide +kernel
  · rw [default_tableEntry_dr_map, hatt]
    decide +kernel

end Sys2Proof.Machine
end

section
/-! LEVEL: the interpolation of a table and its order (41_engine.md R121), the curve at both ends of a sub-phase
(R104, R120), and from these the value, the range and the order of LEVEL in each sub-phase (R122 to R127, R131). -/

namespace Sys2Proof.Machine

/-! ## The interpolation (R121) -/

section
variable {cfg : Config} {table : Table} {d : Nat} (hd : 0 < d)
include hd

theorem interp_mul {i : Nat} (hi : i ≤ cfg.last) : interp cfg table (i * d) d = tableEntry cfg table i := by
  obtain rfl | hlt := hi.eq_or_lt
  · exact interp_of_ge le_rfl
  · rw [interp_of_lt (Nat.mul_lt_mul_of_pos_right hlt hd), Nat.mul_mod_left, Nat.mul_div_cancel _ hd,
      Nat.mul_zero, Nat.add_zero, Nat.sub_zero, Nat.mul_div_cancel _ hd]

/-- The blend of two neighbouring entries holds at both of them too, so one step of `p` never leaves it. -/
theorem interp_between {i r : Nat} (hi : i < cfg.last) (hr : r ≤ d) :
    interp cfg table (i * d + r) d =
      (tableEntry cfg table i * (d - r) + tableEntry cfg table (i + 1) * r) / d := by
  obtain rfl | hlt := hr.eq_or_lt
  · rw [← Nat.succ_mul, interp_mul hd hi, Nat.sub_self, Nat.mul_zero, Nat.zero_add, Nat.mul_div_cancel _ hd]
  · have hindex : (i * d + r) / d = i := by
      rw [Nat.mul_comm, Nat.mul_add_div hd, Nat.div_eq_of_lt hlt, Nat.add_zero]
    have hrem : (i * d + r) % d = r := by rw [Nat.mul_add_mod', Nat.mod_eq_of_lt hlt]
    have hbelow : i * d + r < cfg.last * d :=
      calc i * d + r < (i + 1) * d := by rw [Nat.succ_mul]; omega
        _ ≤ cfg.last * d := Nat.mul_le_mul_right _ hi
    rw [interp_of_lt hbelow, hindex, hrem]

/-- One step of `p`: the weight of one unit moves from an entry to the next one, or the clamp holds at both. -/
theorem interp_succ_cases (p : Nat) :
    (∃ i r, i < cfg.last ∧ r < d ∧
      interp cfg table p d =
        (tableEntry cfg table i * (d - r) + tableEntry cfg table (i + 1) * r) / d ∧
      interp cfg table (p + 1) d =
        (tableEntry cfg table i * (d - (r + 1)) + tableEntry cfg table (i + 1) * (r + 1)) / d) ∨
    interp cfg table (p + 1) d = interp cfg table p d := by
  by_cases hp : p < cfg.last * d
  · have hi := index_lt hp
    have hr := Nat.mod_lt p hd
    have hnext : p / d * d + (p % d + 1) = p + 1 := by rw [← Nat.add_assoc, Nat.div_add_mod']
    refine .inl ⟨p / d, p % d, hi, hr, interp_of_lt hp, ?_⟩
    rw [← interp_between (r := p % d + 1) hd hi hr, hnext]
  · rw [interp_of_ge (by omega), interp_of_ge (by omega)]
    exact .inr rfl

end

/-- The numerator of the blend when the weight of one unit moves from `a` to `b`. -/
theorem blend_succ (a b : Nat) {d r : Nat} (hr : r < d) :
    a * (d - r) + b * r + b = a * (d - (r + 1)) + b * (r + 1) + a := by
  obtain ⟨k, rfl⟩ := Nat.exists_eq_add_of_lt hr
  rw [show r + k + 1 - r = k + 1 by omega, show r + k + 1 - (r + 1) = k by omega]
  ring

/-- The interpolation of a table that does not fall does not fall. -/
theorem interp_monotone {cfg : Config} {table : Table} {d : Nat} (hd : 0 < d)
    (hrise : ∀ i < cfg.last, tableEntry cfg table i ≤ tableEntry cfg table (i + 1)) :
    Monotone (fun p => interp cfg table p d) := by
  refine monotone_nat_of_le_succ fun p => ?_
  obtain ⟨i, r, hi, hr, hp, hsucc⟩ | heq := interp_succ_cases (table := table) hd p
  · have hmove := blend_succ (tableEntry cfg table i) (tableEntry cfg table (i + 1)) hr
    have hstep := hrise i hi
    rw [hp, hsucc]
    exact Nat.div_le_div_right (by omega)
  · exact heq.ge

/-- The interpolation of a table that does not rise does not rise. -/
theorem interp_antitone {cfg : Config} {table : Table} {d : Nat} (hd : 0 < d)
    (hfall : ∀ i < cfg.last, tableEntry cfg table (i + 1) ≤ tableEntry cfg table i) :
    Antitone (fun p => interp cfg table p d) := by
  refine antitone_nat_of_succ_le fun p => ?_
  obtain ⟨i, r, hi, hr, hp, hsucc⟩ | heq := interp_succ_cases (table := table) hd p
  · have hmove := blend_succ (tableEntry cfg table i) (tableEntry cfg table (i + 1)) hr
    have hstep := hfall i hi
    rw [hp, hsucc]
    exact Nat.div_le_div_right (by omega)
  · exact heq.le

/-- Settles O21: the index is below N-1 (`index_lt`), the blend lies between its entries (`le_blend`, `blend_le`),
and a remainder of 0 is a table entry (`interp_mul`). -/
theorem interpolationByR121 : Obligations.InterpolationByR121 := by
  intro cfg table p d h hd
  refine ⟨interp_of_ge, fun hp => ?_, interp_le h table p d⟩
  have hr : p % d < d := Nat.mod_lt p hd
  have hi : p / d < cfg.last := index_lt hp
  have hblend := interp_of_lt (table := table) hp
  refine ⟨Nat.le_sub_one_of_lt hi, hr, hblend, ?_, ?_, fun hrem => ?_⟩
  · rw [hblend]
    exact le_blend hr (Nat.min_le_left _ _) (Nat.min_le_right _ _)
  · rw [hblend]
    exact blend_le hr (Nat.le_max_left _ _) (Nat.le_max_right _ _)
  · have hpoint : p / d * d = p := Nat.div_mul_cancel (Nat.dvd_of_mod_eq_zero hrem)
    rw [← interp_mul hd hi.le, hpoint]

/-! ## The curve of a sub-phase (R104, R120) -/

theorem duration_pos (us : Micros) : 0 < max us.toNat 1 := Nat.lt_of_lt_of_le Nat.one_pos (Nat.le_max_right _ _)

theorem curveValue_zero (cfg : Config) (table : Table) (us : Micros) :
    curveValue cfg table 0 us = tableEntry cfg table 0 := by
  rw [curveValue, Nat.mul_zero, ← interp_mul (duration_pos us) (Nat.zero_le _), Nat.zero_mul]

theorem curveValue_end (cfg : Config) (table : Table) {x : Nat} {us : Micros} (hx : max us.toNat 1 ≤ x) :
    curveValue cfg table x us = tableEntry cfg table cfg.last :=
  interp_of_ge (Nat.mul_le_mul_left _ hx)

section
variable {cfg : Config} (h : cfg.Legal) {x : Nat} {us : Micros}
include h

theorem curveValue_att_zero : curveValue cfg .att 0 us = 0 := by
  obtain ⟨hstart, -⟩ := tableInvariants cfg h
  rw [curveValue_zero, hstart]

theorem curveValue_att_end (hx : max us.toNat 1 ≤ x) : curveValue cfg .att x us = cfg.top := by
  obtain ⟨-, hend, -⟩ := tableInvariants cfg h
  rw [curveValue_end cfg .att hx]
  exact hend

theorem curveValue_dr_zero : curveValue cfg .dr 0 us = cfg.top := by
  obtain ⟨-, -, hstart, -⟩ := tableInvariants cfg h
  rw [curveValue_zero]
  exact hstart

theorem curveValue_dr_end (hx : max us.toNat 1 ≤ x) : curveValue cfg .dr x us = 0 := by
  obtain ⟨-, -, -, hend, -⟩ := tableInvariants cfg h
  rw [curveValue_end cfg .dr hx]
  exact hend

theorem curveValue_att_monotone (us : Micros) : Monotone (fun x => curveValue cfg .att x us) := by
  obtain ⟨-, -, -, -, hrise, -⟩ := tableInvariants cfg h
  exact fun _ _ hxy => interp_monotone (duration_pos us) (fun i hi => hrise i (Nat.add_lt_of_lt_sub hi))
    (Nat.mul_le_mul_left _ hxy)

theorem curveValue_dr_antitone (us : Micros) : Antitone (fun x => curveValue cfg .dr x us) := by
  obtain ⟨-, -, -, -, -, hfall, -⟩ := tableInvariants cfg h
  exact fun _ _ hxy => interp_antitone (duration_pos us) (fun i hi => hfall i (Nat.add_lt_of_lt_sub hi))
    (Nat.mul_le_mul_left _ hxy)

end

/-! ## LEVEL, pressed and released (R116, R118, R131) -/

theorem micros_eq_zero_iff (us : Micros) : us.toNat = 0 ↔ us = 0#32 := BitVec.toNat_inj (y := 0#32)

theorem pressed_eq_true_iff (e : Engine) : e.pressed = true ↔ e.tNoteOff.toNat < e.tNoteOn.toNat :=
  decide_eq_true_iff

theorem pressed_eq_false_iff (e : Engine) : e.pressed = false ↔ e.tNoteOn.toNat ≤ e.tNoteOff.toNat :=
  decide_eq_false_iff_not.trans Nat.not_lt

section
variable {cfg : Config} {e : Engine}

theorem levelNat_pressed (h : e.pressed = true) (t : Time) :
    levelNat cfg e t =
      if elapsed e t < e.attackUs.toNat ∨ e.attackUs = 0#32 then
        rescaleAbove cfg e.attackStartLevel (curveValue cfg .att (elapsed e t) e.attackUs)
      else if elapsed e t < e.attackUs.toNat + e.decayUs.toNat then
        rescaleAbove cfg e.sustainLevel (curveValue cfg .dr (elapsed e t - e.attackUs.toNat) e.decayUs)
      else e.sustainLevel.toNat := by
  simp only [levelNat, subPhase_pressed h]
  split_ifs <;> rfl

theorem levelNat_released (h : e.pressed = false) (t : Time) :
    levelNat cfg e t =
      if elapsed e t < e.releaseUs.toNat ∨ e.releaseUs = 0#32 then
        rescaleBelow cfg e.releaseStartLevel (curveValue cfg .dr (elapsed e t) e.releaseUs)
      else 0 := by
  simp only [levelNat, subPhase_released h]
  split_ifs <;> rfl

/-- Until the stamp has passed an attack of any duration stays at its start level. -/
theorem levelNat_attack_start (hcfg : cfg.Legal) (h : e.pressed = true) {t : Time}
    (ht : t.toNat ≤ e.tNoteOn.toNat) : levelNat cfg e t = e.attackStartLevel.toNat := by
  have hzero : elapsed e t = 0 := by rw [elapsed_pressed h]; omega
  have hphase : 0 < e.attackUs.toNat ∨ e.attackUs = 0#32 := by
    rw [← micros_eq_zero_iff]; omega
  rw [levelNat_pressed h, hzero, if_pos hphase, curveValue_att_zero hcfg, rescaleAbove_zero]

/-- Until the stamp has passed a release of any duration stays at its start level. -/
theorem levelNat_release_start (hcfg : cfg.Legal) (h : e.pressed = false) {t : Time}
    (ht : t.toNat ≤ e.tNoteOff.toNat) : levelNat cfg e t = e.releaseStartLevel.toNat := by
  have hzero : elapsed e t = 0 := by rw [elapsed_released h]; omega
  have hphase : 0 < e.releaseUs.toNat ∨ e.releaseUs = 0#32 := by
    rw [← micros_eq_zero_iff]; omega
  rw [levelNat_released h, hzero, if_pos hphase, curveValue_dr_zero hcfg, rescaleBelow_top hcfg]

/-- The end of an attack that takes time is the start of the decay, at R-1. -/
theorem levelNat_decay_start (hcfg : cfg.Legal) (hs : e.sustainLevel.toNat ≤ cfg.top) (h : e.pressed = true)
    (ha : e.attackUs ≠ 0#32) (hdecay : e.decayUs ≠ 0#32) {t : Time}
    (ht : t.toNat = e.tNoteOn.toNat + e.attackUs.toNat) : levelNat cfg e t = cfg.top := by
  have hx : elapsed e t = e.attackUs.toNat := by rw [elapsed_pressed h]; omega
  have hd : e.decayUs.toNat ≠ 0 := mt (micros_eq_zero_iff _).1 hdecay
  rw [levelNat_pressed h, hx, if_neg (by simp [ha]), if_pos (by omega), Nat.sub_self, curveValue_dr_zero hcfg,
    rescaleAbove_top hcfg hs]

/-- From the end of the decay on, a decay of 0 included. -/
theorem levelNat_sustain (h : e.pressed = true) (ha : e.attackUs ≠ 0#32) {t : Time}
    (ht : e.tNoteOn.toNat + e.attackUs.toNat + e.decayUs.toNat ≤ t.toNat) :
    levelNat cfg e t = e.sustainLevel.toNat := by
  have hx := elapsed_pressed h t
  have hattack : ¬ (elapsed e t < e.attackUs.toNat ∨ e.attackUs = 0#32) := not_or_intro (by omega) ha
  rw [levelNat_pressed h, if_neg hattack, if_neg (by omega)]

/-- An attack of no duration is at R-1 as soon as its stamp has passed. -/
theorem levelNat_attack_snapped (hcfg : cfg.Legal) (hs : e.attackStartLevel.toNat ≤ cfg.top)
    (h : e.pressed = true) (ha : e.attackUs = 0#32) {t : Time} (ht : e.tNoteOn.toNat < t.toNat) :
    levelNat cfg e t = cfg.top := by
  have hx : max e.attackUs.toNat 1 ≤ elapsed e t := by
    rw [elapsed_pressed h, (micros_eq_zero_iff _).2 ha]; omega
  rw [levelNat_pressed h, if_pos (.inr ha), curveValue_att_end hcfg hx, rescaleAbove_top hcfg hs]

/-- After the release LEVEL is 0: the release is over, or of no duration and its curve is. -/
theorem levelNat_release_over (hcfg : cfg.Legal) (h : e.pressed = false) {t : Time}
    (hend : e.tNoteOff.toNat + e.releaseUs.toNat ≤ t.toNat) (hlater : e.tNoteOff.toNat < t.toNat) :
    levelNat cfg e t = 0 := by
  have hx : max e.releaseUs.toNat 1 ≤ elapsed e t := by rw [elapsed_released h]; omega
  rw [levelNat_released h, curveValue_dr_end hcfg hx, rescaleBelow_zero, ite_self]

end

/-- Settles O22: the equations of the pressed and the released phase, with Δ, the rescales and the durations written out. -/
theorem levelInOnePiece : Obligations.LevelInOnePiece := by
  intro cfg e t _ _ _ _
  by_cases h : e.tNoteOff.toNat < e.tNoteOn.toNat
  · have hp := (pressed_eq_true_iff e).2 h
    have hx : elapsed e t = if e.tNoteOn.toNat ≤ t.toNat then t.toNat - e.tNoteOn.toNat else 0 := by
      rw [elapsed_pressed hp]; split <;> omega
    simp only [if_pos h, ← hx, levelNat_pressed hp, micros_eq_zero_iff]
    rfl
  · have hp := (pressed_eq_false_iff e).2 (Nat.not_lt.1 h)
    have hx : elapsed e t = if e.tNoteOff.toNat ≤ t.toNat then t.toNat - e.tNoteOff.toNat else 0 := by
      rw [elapsed_released hp]; split <;> omega
    simp only [if_neg h, ← hx, levelNat_released hp, micros_eq_zero_iff]
    rfl

/-- Settles O23: LEVEL is at most R-1 (`levelNat_le`), which W_L bits hold (`levelOf_toNat`). -/
theorem levelStaysInRange : Obligations.LevelStaysInRange := by
  intro cfg e t h hs ha hr
  have hlevel := levelNat_le h hs ha hr t
  exact ⟨hlevel, levelOf_toNat hlevel, rfl⟩

/-- Settles O24: no time has passed at the stamp. -/
theorem phasesStartAtTheCapturedLevel : Obligations.PhasesStartAtTheCapturedLevel := fun _ _ h =>
  ⟨fun hp _ => levelNat_attack_start h hp le_rfl, fun hp _ => levelNat_release_start h hp le_rfl⟩

/-- Settles O25, a time for each end: of the attack, of the decay and of the release. -/
theorem phaseEndValues : Obligations.PhaseEndValues := by
  intro cfg e t h hs
  refine ⟨fun hp ha ht => ⟨fun hd => levelNat_decay_start h hs hp ha hd ht, fun hd => ?_⟩,
    fun hp ha ht => levelNat_sustain hp ha ht,
    fun hp hend hlater => levelNat_release_over h hp hend (Nat.lt_of_sub_pos hlater)⟩
  have hzero : e.decayUs.toNat = 0 := (micros_eq_zero_iff _).2 hd
  exact levelNat_sustain hp ha (by omega)

/-- Settles O26: Δ grows with the time (`elapsed_mono`), the curves keep their order (R104), and so do the
rescales. -/
theorem levelIsMonotoneInEachPhase : Obligations.LevelIsMonotoneInEachPhase := by
  intro cfg e t u h _ _ _ htu hsame
  have hx := elapsed_mono e htu
  refine ⟨fun hphase => ?_, fun hphase => ?_, fun hphase => ?_⟩ <;>
    simp only [levelNat, ← hsame, hphase]
  · exact rescaleAbove_mono (curveValue_att_monotone h _ hx)
  · exact rescaleAbove_mono (curveValue_dr_antitone h _ (Nat.sub_le_sub_right hx _))
  · exact rescaleBelow_mono (curveValue_dr_antitone h _ hx)

/-- Settles O27: the branch of a zero duration is the one R126 names, at its start until the stamp and at its end
after it. -/
theorem zeroDurationsSnapToTheEndValue : Obligations.ZeroDurationsSnapToTheEndValue := by
  intro cfg e t h ha hr
  refine ⟨fun hp hzero => ⟨?_, levelNat_attack_start h hp, levelNat_attack_snapped h ha hp hzero⟩,
    fun hp hattack hdecay ht => ?_,
    fun hp hzero => ⟨?_, levelNat_release_start h hp, fun hlater => ?_⟩⟩
  · rw [subPhase_pressed hp, if_pos (.inr hzero)]
  · have hd : e.decayUs.toNat = 0 := (micros_eq_zero_iff _).2 hdecay
    exact levelNat_sustain hp hattack (by omega)
  · rw [subPhase_released hp, if_pos (.inr hzero)]
  · have hd : e.releaseUs.toNat = 0 := (micros_eq_zero_iff _).2 hzero
    exact levelNat_release_over h hp (by omega) hlater

/-- Settles O28: the equation of the phase in force, pressed or released, names every field it reads. -/
theorem levelReadsOnlyItsFields : Obligations.LevelReadsOnlyItsFields := by
  intro cfg e e' t hon hoff hattack hdecay hrelease hsustain hastart hrstart
  have hpressed : e'.pressed = e.pressed := by rw [Engine.pressed, Engine.pressed, hon, hoff]
  have hx : elapsed e' t = elapsed e t := by rw [elapsed, elapsed, hpressed, hon, hoff]
  refine congrArg cfg.levelOf ?_
  cases hp : e.pressed with
  | true =>
    rw [levelNat_pressed hp, levelNat_pressed (hpressed.trans hp), hx, hattack, hdecay, hsustain, hastart hp]
  | false =>
    rw [levelNat_released hp, levelNat_released (hpressed.trans hp), hx, hrelease, hrstart hp]

end Sys2Proof.Machine
end

section
/-! EVAL, NOTE_ON and NOTE_OFF as operations: their next states, their words, and trigger stacking (41_engine.md R110,
R112, R113, R128). -/

namespace Sys2Proof.Machine

/-- An operation in canonical form is presented under the code of its row, by its legal source (R83, R84, R85). -/
theorem encodes_self {i : Instr} (h : i.wellFormed = true) : Encodes i i.opcode.code i.legalSource := by
  obtain ⟨hopc, -⟩ := Laws.EncodedFields.of_pack i
  refine ⟨(opcodeOf_eq_some _ _).1 hopc, fun src => ?_⟩
  rw [verdict_of_ok (decode_encode h)]
  simp only [eq_comm]

/-! ## EVAL (R128) -/

/-- The state after EVAL c. -/
def State.evaluated (c : Channel) (s : State) : State :=
  { s with
    engines := bankSet s.engines c { s.engine c with lastOutputLevel := level s.cfg (s.engine c) s.now }
    trace := s.trace ++ [.out c (level s.cfg (s.engine c) s.now)]
    outRefresh := if c = 3 then true else s.outRefresh }

theorem exec_eval (c : Channel) (s : State) : exec (.eval c) s = .next (s.evaluated c) := by
  have hend : (s.outRefresh || c == 3) = if c = 3 then true else s.outRefresh := by
    by_cases hc : c = 3 <;> simp [hc]
  rw [State.evaluated, ← hend]
  rfl

section evaluated
variable (c : Channel) (s : State)

theorem evaluated_engine (d : Channel) :
    (s.evaluated c).engine d =
      if d = c then { s.engine d with lastOutputLevel := level s.cfg (s.engine d) s.now } else s.engine d := by
  rw [State.engine, State.evaluated, bankGet_bankSet]
  split
  · next h => rw [h]
  · rfl

theorem evaluated_engine_self :
    (s.evaluated c).engine c = { s.engine c with lastOutputLevel := level s.cfg (s.engine c) s.now } := by
  rw [evaluated_engine, if_pos rfl]

@[simp] theorem evaluated_trace :
    (s.evaluated c).trace = s.trace ++ [.out c (level s.cfg (s.engine c) s.now)] := rfl
end evaluated

/-- LEVEL does not read what EVAL stores. -/
theorem level_storeOutput (cfg : Config) (e : Engine) (l : Level) (t : Time) :
    level cfg { e with lastOutputLevel := l } t = level cfg e t :=
  levelReadsOnlyItsFields cfg e _ t rfl rfl rfl rfl rfl rfl (fun _ => rfl) (fun _ => rfl)

/-- A second EVAL at the same time finds and stores the same level. -/
theorem level_evaluated (c : Channel) (s : State) :
    level (s.evaluated c).cfg ((s.evaluated c).engine c) (s.evaluated c).now = level s.cfg (s.engine c) s.now := by
  rw [evaluated_engine_self]
  exact level_storeOutput _ _ _ _

/-- A channel never triggered is released and starts from 0. -/
theorem level_resetOf (cfg : Config) (t : Time) : (level cfg (Engine.resetOf cfg) t).toNat = 0 := by
  have hreleased : (Engine.resetOf cfg).pressed = false := rfl
  have hstart : (Engine.resetOf cfg).releaseStartLevel.toNat = 0 := levelOf_toNat (Nat.zero_le _)
  have hzero : levelNat cfg (Engine.resetOf cfg) t = 0 := by
    rw [levelNat_released hreleased, rescaleBelow, hstart, Nat.mul_zero, Nat.zero_div, ite_self]
  rw [level, hzero]
  exact levelOf_toNat (Nat.zero_le _)

/-- Half way through the default attack (R128, the worked example). -/
theorem level_attack_example :
    level Config.default { Engine.resetOf Config.default with tNoteOn := 1000#64 } 51000#64 = ⟨12, 3610#12⟩ := by
  decide +kernel

/-- Settles O29: the next state is `exec_eval`'s, and what EVAL stores is not read by LEVEL. -/
theorem evalStoresAndEmitsTheLevel : Obligations.EvalStoresAndEmitsTheLevel := by
  refine ⟨fun c s => ?_, fun _ => encodes_self rfl, fun cfg t _ => level_resetOf cfg t,
    fun s hcfg hnow he => ?_⟩
  · refine ⟨exec_eval c s, ⟨(s.evaluated c).evaluated c, ?_, ?_, ?_⟩, level_storeOutput _ _ _⟩
    · rw [execAll_cons (exec_eval c s), execAll_cons (exec_eval c _), execAll]
    · rw [evaluated_engine_self, level_evaluated]
    · rw [evaluated_trace, level_evaluated, evaluated_trace, List.append_assoc, List.singleton_append]
  · have hlevel : level s.cfg (s.engine 0) s.now = ⟨12, 3610#12⟩ := by
      rw [hcfg, hnow, he, level_attack_example]
    refine ⟨s.evaluated 0, exec_eval 0 s, ?_, ?_⟩
    · rw [evaluated_engine_self, hlevel]
    · rw [evaluated_trace, hlevel]

/-! ## NOTE_ON (R110) -/

theorem exec_noteOn (c : Channel) (s : State) : exec (.noteOn c) s = .next (s.noteOnAct c s.now) := rfl

theorem noteOnAct_engine_self (c : Channel) (t : Time) (s : State) :
    (s.noteOnAct c t).engine c = (s.engine c).noteOn t := by
  rw [noteOnAct_engine, if_pos rfl]

/-- One engine's part of NOTE_ON, field by field. -/
theorem noteOn_eq (t : Time) (e : Engine) :
    e.noteOn t = { e with
      tNoteOn := t
      attackStartLevel := if e.resetAttackOnTrigger = true then ⟨e.attackStartLevel.width, 0⟩
        else e.lastOutputLevel
      notesHeld := if e.notesHeld = 255#8 then 255#8 else e.notesHeld + 1#8 } := by
  rw [← noteOn_notesHeld_cases t e]
  rfl

/-- The press of the selected channel's button is a NOTE_ON that also sets the manual flag (R161). -/
theorem buttonAction_press_selected {c : Channel} {s : State} (h : s.chanSel = c) (t : Time) :
    buttonAction c true t s = (s.noteOnAct c t).setManual c true := by
  simp only [buttonAction, h, if_true, buttonPressSelected]

/-- Settles O30: one note action (`noteOn_eq`) stands behind NOTE_ON, the gate and the selected button. -/
theorem noteOnRecordsTheTrigger : Obligations.NoteOnRecordsTheTrigger := by
  refine ⟨fun c s => ⟨?_, rfl, fun hsel => ?_, fun hnow => ?_⟩, fun _ => encodes_self rfl, ?_⟩
  · rw [exec_noteOn, noteOnAct_eq, noteOn_eq]
  · rw [buttonAction_press_selected hsel]
    rfl
  · exact (pressed_eq_false_iff _).2 (congrArg BitVec.toNat hnow).le
  · exact ⟨_, rfl, by decide⟩

/-! ## NOTE_OFF (R112) -/

theorem exec_noteOff (c : Channel) (s : State) : exec (.noteOff c) s = .next (s.noteOffAct c s.now) := rfl

theorem noteOff_count_down (t : Time) (e : Engine) (h : 1 < e.notesHeld.toNat) :
    e.noteOff t = { e with notesHeld := e.notesHeld - 1#8 } := by
  obtain ⟨hle, -⟩ | ⟨-, heq⟩ := noteOff_cases t e
  · omega
  · exact heq

theorem noteOff_of_two (t : Time) {e : Engine} (h : e.notesHeld = 2#8) :
    e.noteOff t = { e with notesHeld := 1#8 } := by
  rw [noteOff_count_down t e (by rw [h]; decide), h]
  rfl

/-- The last NOTE_OFF releases a channel whose trigger is not in the future. -/
theorem noteOff_released {t : Time} {e : Engine} (h : e.notesHeld.toNat ≤ 1)
    (ht : e.tNoteOn.toNat ≤ t.toNat) : (e.noteOff t).pressed = false := by
  rw [noteOff_release t e h]
  exact (pressed_eq_false_iff _).2 ht

theorem noteOffAct_engine_self (c : Channel) (t : Time) (s : State) :
    (s.noteOffAct c t).engine c = (s.engine c).noteOff t := by
  rw [noteOffAct_engine, if_pos rfl]

/-- The release of the selected channel's button, where that button started the note, is a NOTE_OFF that also clears
the manual flag (R162). -/
theorem buttonAction_release_selected {c : Channel} {s : State} (h : s.chanSel = c)
    (hm : bankGet s.manualTriggerActive c = true) (t : Time) :
    buttonAction c false t s = (s.noteOffAct c t).setManual c false := by
  simp only [buttonAction, h, if_true, Bool.false_eq_true, if_false, buttonReleaseSelected, hm]

/-- Settles O31: one note action in its two branches stands behind NOTE_OFF, the gate and the selected button. -/
theorem noteOffReleasesTheLastTrigger : Obligations.NoteOffReleasesTheLastTrigger := by
  refine ⟨fun c s => ⟨fun hlast => ⟨?_, fun ht => ?_⟩, fun hmore => ?_, rfl, fun hsel hm => ?_⟩,
    fun _ => encodes_self rfl, fun c s htwo hpressed hnow hlevel => ⟨?_, ?_⟩⟩
  · rw [exec_noteOff, noteOffAct_eq, noteOff_release _ _ hlast]
  · rw [← noteOff_release s.now _ hlast]
    exact noteOff_released hlast ht
  · rw [exec_noteOff, noteOffAct_eq, noteOff_count_down _ _ hmore]
  · rw [buttonAction_release_selected hsel hm]
    rfl
  · refine ⟨_, exec_noteOff c s, ?_⟩
    rw [noteOffAct_engine_self, noteOff_of_two _ htwo]
    exact ⟨rfl, hpressed⟩
  · refine ⟨(s.noteOffAct c s.now).noteOffAct c s.now, rfl, ?_⟩
    rw [noteOffAct_engine_self, noteOffAct_engine_self, noteOff_of_two _ htwo,
      noteOff_release _ _ (by decide : (1#8).toNat ≤ 1)]
    exact ⟨rfl, hnow, hlevel⟩

/-! ## TICK between other operations (R204) -/

/-- The state after TICK n. -/
def State.ticked (n : Micros) (s : State) : State := { s with now := s.now + n.setWidth 64 }

theorem exec_tick (n : Micros) (s : State) : exec (.tick n) s = .next (s.ticked n) := rfl

section ticked
variable (n : Micros) (s : State)
@[simp] theorem ticked_now : (s.ticked n).now = s.now + n.setWidth 64 := rfl
@[simp] theorem ticked_engine (c : Channel) : (s.ticked n).engine c = s.engine c := rfl
@[simp] theorem ticked_cfg : (s.ticked n).cfg = s.cfg := rfl
@[simp] theorem ticked_trace : (s.ticked n).trace = s.trace := rfl
end ticked

/-- The time after TICK n, before the wrap. -/
theorem toNat_add_micros {t : Time} {n : Micros} (h : t.toNat + n.toNat < 2 ^ 64) :
    (t + n.setWidth 64).toNat = t.toNat + n.toNat := by
  rw [BitVec.toNat_add, BitVec.toNat_setWidth_of_le (by decide), Nat.mod_eq_of_lt h]

/-! ## Trigger stacking (R113) -/

theorem noteOn_noteOn_notesHeld (t u : Time) {e : Engine} (h : e.notesHeld = 0#8) :
    ((e.noteOn t).noteOn u).notesHeld = 2#8 := by
  simp only [noteOn_notesHeld, h]
  decide

/-- Two triggers and one release: one note is held, and the second trigger is still the last stamp. -/
theorem stacked_engine (t u v : Time) {e : Engine} (h : e.notesHeld = 0#8) :
    ((e.noteOn t).noteOn u).noteOff v = { (e.noteOn t).noteOn u with notesHeld := 1#8 } :=
  noteOff_of_two v (noteOn_noteOn_notesHeld t u h)

theorem execAll_tick_noteOn (n : Micros) (c : Channel) (ops : List Instr) (s : State) :
    execAll (.tick n :: .noteOn c :: ops) s = execAll ops ((s.ticked n).noteOnAct c (s.ticked n).now) := by
  rw [execAll_cons (exec_tick n s), execAll_cons (exec_noteOn c _)]

theorem execAll_tick_noteOff (n : Micros) (c : Channel) (ops : List Instr) (s : State) :
    execAll (.tick n :: .noteOff c :: ops) s = execAll ops ((s.ticked n).noteOffAct c (s.ticked n).now) := by
  rw [execAll_cons (exec_tick n s), execAll_cons (exec_noteOff c _)]

/-- The bank after TICK, NOTE_ON, TICK, NOTE_ON, TICK, NOTE_OFF on one channel, and the time then. -/
theorem execAll_stacking (c : Channel) (s : State) (a b d : Micros) :
    ∃ t, execAll [.tick a, .noteOn c, .tick b, .noteOn c, .tick d, .noteOff c] s = .next t ∧
      t.now = s.now + a.setWidth 64 + b.setWidth 64 + d.setWidth 64 ∧
      t.engine c = (((s.engine c).noteOn (s.now + a.setWidth 64)).noteOn
        (s.now + a.setWidth 64 + b.setWidth 64)).noteOff
          (s.now + a.setWidth 64 + b.setWidth 64 + d.setWidth 64) := by
  refine ⟨_, by rw [execAll_tick_noteOn, execAll_tick_noteOn, execAll_tick_noteOff, execAll], rfl, ?_⟩
  rw [noteOffAct_engine_self, ticked_engine, noteOnAct_engine_self, ticked_engine, noteOnAct_engine_self,
    ticked_engine]
  rfl

/-- Settles O32: the first NOTE_OFF only counts from 2 to 1, so the second trigger stays the last stamp until the
second NOTE_OFF, whose stamp is not before it. -/
theorem triggerStacking : Obligations.TriggerStacking := by
  intro c s a b d e hzero hwrap hlater
  obtain ⟨t, ht, hnow, hengine⟩ := execAll_stacking c s a b d
  rw [stacked_engine _ _ _ hzero] at hengine
  have hheld : (t.engine c).notesHeld = 1#8 := by rw [hengine]
  have hon : (t.engine c).tNoteOn = s.now + a.setWidth 64 + b.setWidth 64 := by rw [hengine]; rfl
  have hoff : (t.engine c).tNoteOff = (s.engine c).tNoteOff := by rw [hengine]; rfl
  have ha := toNat_add_micros (t := s.now) (n := a) (by omega)
  have hb := toNat_add_micros (t := s.now + a.setWidth 64) (n := b) (by omega)
  have hd := toNat_add_micros (t := s.now + a.setWidth 64 + b.setWidth 64) (n := d) (by omega)
  have he := toNat_add_micros (t := t.now) (n := e) (by rw [hnow]; omega)
  have hlast : (t.engine c).notesHeld.toNat ≤ 1 := by rw [hheld]; decide
  refine ⟨t, (t.ticked e).noteOffAct c (t.ticked e).now, ht, hheld, ?_,
    execAll_tick_noteOff e c [] t, ?_, ?_⟩
  · rw [pressed_eq_true_iff, hon, hoff]
    omega
  · rw [noteOffAct_engine_self, ticked_engine, noteOff_release _ _ hlast]
  · rw [noteOffAct_engine_self, ticked_engine]
    refine noteOff_released hlast ?_
    rw [hon, ticked_now, he, hnow]
    omega

end Sys2Proof.Machine
end

section
/-! The synthesis pass: the sequencer's four turns, with TICK between them, as a run (30_encoding.md R93,
41_engine.md R129). -/

namespace Sys2Proof.Machine

/-- A run takes one step after another. -/
theorem run_succ {s t : State} (h : step s = .next t) (k : Nat) :
    Host.Core.run Sys2Proof.core (k + 1) s = Host.Core.run Sys2Proof.core k t := by
  have hcore : Sys2Proof.core.step s = .next t := h
  simp only [Host.Core.run, hcore]

/-- The state after a turn of the sequencer at channel `c`, when the inputs `rest` are still to come (R93). -/
def State.turned (c : Channel) (rest : List Input) (s : State) : State :=
  State.evaluated c { s with inputs := rest, seqNext := seqAfter c }

section turned
variable (c : Channel) (rest : List Input) (s : State)

theorem turned_engine (d : Channel) :
    (s.turned c rest).engine d =
      if d = c then { s.engine d with lastOutputLevel := level s.cfg (s.engine d) s.now } else s.engine d :=
  evaluated_engine c _ d

@[simp] theorem turned_trace :
    (s.turned c rest).trace = s.trace ++ [.out c (level s.cfg (s.engine c) s.now)] := rfl
@[simp] theorem turned_cfg : (s.turned c rest).cfg = s.cfg := rfl
@[simp] theorem turned_now : (s.turned c rest).now = s.now := rfl
end turned

section
variable {s : State} {rest : List Input}

theorem run_turn {c : Channel} (hinputs : s.inputs = .seqTurn :: rest) (hpos : s.seqNext = some c) (k : Nat) :
    Host.Core.run Sys2Proof.core (k + 1) s = Host.Core.run Sys2Proof.core k (s.turned c rest) :=
  run_succ ((step_seqTurn hinputs hpos).trans (exec_eval c _)) k

/-- The strobe that starts a pass, and its first turn. -/
theorem run_strobe_turn (hinputs : s.inputs = .sampleStrobe :: .seqTurn :: rest) (hidle : s.seqNext = none)
    (k : Nat) :
    Host.Core.run Sys2Proof.core (k + 2) s = Host.Core.run Sys2Proof.core k (s.turned 0 rest) := by
  have hstrobe : step s = .next { s with inputs := .seqTurn :: rest, seqNext := some 0 } := by
    rw [step_sampleStrobe hinputs, hidle, Option.getD_none]
  exact (run_succ hstrobe _).trans (run_turn rfl rfl k)

/-- A TICK from the timebase between two turns, then the next turn. -/
theorem run_tick_turn {n : Micros} {c : Channel}
    (hinputs : s.inputs = .word .timebase (encode (.tick n)) :: .seqTurn :: rest) (hpos : s.seqNext = some c)
    (k : Nat) :
    Host.Core.run Sys2Proof.core (k + 2) s = Host.Core.run Sys2Proof.core k ((s.ticked n).turned c rest) := by
  have htick : step s = .next (State.ticked n { s with inputs := .seqTurn :: rest }) :=
    (step_of_presented (x := .word .timebase (encode (.tick n))) (i := .tick n) hinputs rfl rfl).trans
      (exec_tick n _)
  exact (run_succ htick _).trans
    (run_turn (s := State.ticked n { s with inputs := .seqTurn :: rest }) rfl hpos k)

end

/-- Settles O13: the strobe and four turns, each of which evaluates the bank of its own channel at its own time and
leaves the others as the turn before it did (`turned_engine`). -/
theorem passEvaluatesAllFourChannels : Obligations.PassEvaluatesAllFourChannels := by
  intro s n1 n2 n3 rest hidle hinputs t1 t2 t3 l0 l1 l2 l3
  have hrun := (run_strobe_turn hinputs hidle 6).trans <| (run_tick_turn (c := 1) rfl rfl 4).trans <|
    (run_tick_turn (c := 2) rfl rfl 2).trans (run_tick_turn (c := 3) rfl rfl 0)
  refine ⟨_, hrun, ?_, ?_, ?_, ?_, ?_, rfl, rfl, rfl, rfl, rfl, rfl, rfl, rfl, rfl, rfl, rfl⟩
  all_goals simp [turned_engine, t1, t2, t3, l0, l1, l2, l3]

end Sys2Proof.Machine
end

section
/-! The parameter setters: their next states, the clamp of SET_SUSTAIN, and the policy that decides the start of
every later NOTE_ON (42_setters.md R140 to R144). -/

namespace Sys2Proof.Machine

/-! ## Each setter as the write of one field -/

section setters
variable (c : Channel) (us operand : Micros) (p : Bool) (s : State)

theorem exec_setAttack :
    exec (.setAttack c us) s = .next (s.setParam c fun e => { e with attackUs := us }) := rfl

theorem exec_setDecay :
    exec (.setDecay c us) s = .next (s.setParam c fun e => { e with decayUs := us }) := rfl

theorem exec_setRelease :
    exec (.setRelease c us) s = .next (s.setParam c fun e => { e with releaseUs := us }) := rfl

theorem exec_setSustain :
    exec (.setSustain c operand) s =
      .next (s.setParam c fun e => { e with sustainLevel := clampLevel s.cfg operand }) := rfl

theorem exec_setPolicy :
    exec (.setPolicy c p) s = .next (s.setParam c fun e => { e with resetAttackOnTrigger := p }) := rfl
end setters

/-! ## Durations (R140, R141, R143) -/

/-- Settles O36: each setter is `setParam` on its own field, with the operand as it stands. -/
theorem durationSettersStoreVerbatim : Obligations.DurationSettersStoreVerbatim := by
  refine fun c us => ⟨fun s => ?_, fun s => ?_, fun s => ?_, encodes_self rfl, encodes_self rfl,
    encodes_self rfl, by decide, by decide, by decide⟩
  · rw [exec_setAttack, setParam_eq]
  · rw [exec_setDecay, setParam_eq]
  · rw [exec_setRelease, setParam_eq]

/-! ## The clamp (R142) -/

/-- An operand above R-1 stores R-1, and W_L bits hold what is stored. -/
theorem clampLevel_toNat (cfg : Config) (operand : Micros) :
    (clampLevel cfg operand).toNat = min operand.toNat cfg.top :=
  levelOf_toNat (Nat.min_le_right _ _)

/-- Under the default configuration SET_SUSTAIN leaves the clamped operand in its bank. -/
theorem exec_setSustain_default {s : State} (hcfg : s.cfg = Config.default) (c : Channel) (operand : Micros) :
    ∃ t, exec (.setSustain c operand) s = .next t ∧
      (t.engine c).sustainLevel = clampLevel Config.default operand := by
  refine ⟨_, exec_setSustain c operand s, ?_⟩
  rw [setParam_engine, if_pos rfl, hcfg]

/-- Settles O37: the register holds the clamped operand (`clampLevel_toNat`), whatever the configuration. -/
theorem setSustainClamps : Obligations.SetSustainClamps := by
  refine ⟨fun c operand s _ => ⟨clampLevel s.cfg operand, levelOf_width _ _, clampLevel_toNat _ _, ?_⟩,
    fun _ _ => encodes_self rfl, by decide, fun s hcfg => ⟨?_, ?_, ?_⟩⟩
  · rw [exec_setSustain, setParam_eq]
  · exact exec_setSustain_default hcfg 3 2500#32
  · exact exec_setSustain_default hcfg 3 4096#32
  · exact exec_setSustain_default hcfg 3 0xFFFFFFFF#32

/-! ## What operations leave in a bank -/

section kept
variable {α : Type} {field : Engine → α}

/-- A write to a bank that leaves a field alone leaves it alone in every bank. -/
theorem updEngine_field {f : Engine → Engine} (hf : ∀ e, field (f e) = field e) (c d : Channel) (s : State) :
    field ((s.updEngine d f).engine c) = field (s.engine c) := by
  rw [engine_updEngine]
  split
  · next h => rw [hf, h]
  · rfl

theorem setParam_field {f : Engine → Engine} (hf : ∀ e, field (f e) = field e) (c d : Channel) (s : State) :
    field ((s.setParam d f).engine c) = field (s.engine c) := updEngine_field hf c d s

/-- A field that both note actions leave alone, over any of them. -/
theorem foldl_play_field {t : Time} (hon : ∀ e, field (e.noteOn t) = field e)
    (hoff : ∀ e, field (e.noteOff t) = field e) (actions : List Bool) (e : Engine) :
    field (actions.foldl (Engine.play t) e) = field e :=
  List.foldlRecOn (motive := fun e' => field e' = field e) actions (Engine.play t) rfl
    fun e' h isOn _ => by
      cases isOn with
      | true => exact (hon e').trans h
      | false => exact (hoff e').trans h
end kept

/-- What each of the operations keeps holds after all of them, and they all complete. -/
theorem execAll_keeps {P : State → Prop} {ops : List Instr}
    (hop : ∀ i ∈ ops, ∀ s t, exec i s = .next t → P s → P t) {s : State} (hs : P s) :
    ∃ t, execAll ops s = .next t ∧ P t := by
  induction ops generalizing s with
  | nil => exact ⟨s, rfl, hs⟩
  | cons i ops ih =>
    obtain ⟨u, hu⟩ := exec_next i s
    obtain ⟨hi, hrest⟩ := List.forall_mem_cons.1 hop
    rw [execAll_cons hu]
    exact ih hrest (hi s u hu hs)

/-! ## The policy (R144) -/

/-- LEVEL does not read the policy. -/
theorem level_policy (cfg : Config) (e : Engine) (p : Bool) (t : Time) :
    level cfg { e with resetAttackOnTrigger := p } t = level cfg e t :=
  levelReadsOnlyItsFields cfg e _ t rfl rfl rfl rfl rfl rfl (fun _ => rfl) (fun _ => rfl)

/-- Only SET_POLICY of a channel writes its policy (R226). -/
theorem exec_policy {i : Instr} {s t : State} (h : exec i s = .next t) {c : Channel}
    (hi : ∀ q, i ≠ .setPolicy c q) :
    (t.engine c).resetAttackOnTrigger = (s.engine c).resetAttackOnTrigger := by
  cases i with
  | setPolicy d p =>
    have hc : c ≠ d := fun hc => hi p (by rw [hc])
    cases h
    rw [setParam_engine, if_neg hc]
  | poll gates buttons =>
    rw [execPoll_engine h c]
    exact foldl_play_field (noteOn_policy s.now) (noteOff_policy s.now) _ _
  | noteOn d => cases h; exact updEngine_field (noteOn_policy s.now) c d s
  | noteOff d => cases h; exact updEngine_field (noteOff_policy s.now) c d s
  | eval d => cases h; exact updEngine_field (fun e => storeOutput_policy e _) c d s
  | setAttack d _ | setDecay d _ | setSustain d _ | setRelease d _ =>
    cases h
    refine setParam_field (field := Engine.resetAttackOnTrigger) ?_ c d s
    exact fun _ => rfl
  | nop | read _ _ _ | clrFlags _ | tick _ | outAck => cases h; rfl

/-- A policy stays set over any operations that do not set it again. -/
theorem execAll_setPolicy {c : Channel} {ops : List Instr} (hops : ∀ q, Instr.setPolicy c q ∉ ops) (p : Bool)
    (s : State) :
    ∃ t, execAll (.setPolicy c p :: ops) s = .next t ∧ (t.engine c).resetAttackOnTrigger = p := by
  rw [execAll_cons (exec_setPolicy c p s)]
  refine execAll_keeps (P := fun t => (t.engine c).resetAttackOnTrigger = p)
    (fun i hi u v hexec hu => (exec_policy hexec fun q => ne_of_mem_of_not_mem hi (hops q)).trans hu) ?_
  rw [setParam_engine, if_pos rfl]

/-- Settles O38: the policy stays what SET_POLICY made it (`execAll_setPolicy`), and NOTE_ON reads it. -/
theorem setPolicyDecidesTheNextStart : Obligations.SetPolicyDecidesTheNextStart := by
  refine ⟨fun c p s => ?_, fun _ _ => encodes_self rfl, fun _ _ => rfl, by decide, level_policy,
    fun c p s ops hops => ?_⟩
  · rw [exec_setPolicy, setParam_eq]
  obtain ⟨t, ht, hpolicy⟩ := execAll_setPolicy hops p s
  refine ⟨t, t.noteOnAct c t.now, ht, exec_noteOn c t, fun hp => ?_, fun hp => ?_⟩ <;>
    rw [noteOnAct_engine_self, noteOn_attackStart, hpolicy, hp]
  · exact cleared_toNat _
  · rfl

end Sys2Proof.Machine
end

section
/-! The debounce rule and POLL as operations: the cell and its interval (43_trigger.md R153, R154), the next state of a
POLL as its actions in their order (R158), and the POLLs that accept nothing, one input or a chord (R160 to R169). -/

namespace Sys2Proof.Machine

/-! ## One sample (R153) -/

section cell
variable {cfg : Config} {cell : DebounceCell} {x : Bool} {t : Time}

theorem changeTime_of_ne (h : x ≠ cell.rawLevel) : changeTime cell x t = t := if_neg h

theorem changeTime_of_eq (h : x = cell.rawLevel) : changeTime cell x t = cell.lastChangeTime := if_pos h

theorem changeTime_eq_ite (cell : DebounceCell) (x : Bool) (t : Time) :
    changeTime cell x t = if x ≠ cell.rawLevel then t else cell.lastChangeTime := by
  rw [changeTime, ite_not]

theorem accepts_iff (cfg : Config) (cell : DebounceCell) (x : Bool) (t : Time) :
    accepts cfg cell x t = true ↔
      x ≠ cell.stableLevel ∧ cfg.tDbUs.toNat ≤ t.toNat - (changeTime cell x t).toNat := by
  rw [accepts, Bool.and_eq_true, bne_iff_ne, decide_eq_true_iff, satSub]

theorem accepts_eq_false_iff_lt (h : x ≠ cell.stableLevel) :
    accepts cfg cell x t = false ↔ t.toNat - (changeTime cell x t).toNat < cfg.tDbUs.toNat := by
  rw [← Bool.not_eq_true, accepts_iff, and_iff_right h, not_le]

theorem debounce_of_accepts (h : accepts cfg cell x t = true) :
    debounce cfg cell x t = ⟨x, x, changeTime cell x t⟩ := by
  rw [debounce, if_pos h]

theorem debounce_of_not_accepts (h : accepts cfg cell x t = false) :
    debounce cfg cell x t = ⟨x, cell.stableLevel, changeTime cell x t⟩ := by
  rw [debounce, if_neg (Bool.eq_false_iff.1 h)]
end cell

/-- Settles O39: the model's `changeTime` is the timer of R153, and its saturating difference is the natural one. -/
theorem debounceCellRule : Obligations.DebounceCellRule := by
  intro cfg cell x t lct
  have hlct : changeTime cell x t = lct := changeTime_eq_ite cell x t
  rw [← hlct]
  refine ⟨?_, debounce_of_accepts, debounce_of_not_accepts⟩
  have hdiff : (if (changeTime cell x t).toNat ≤ t.toNat then t.toNat - (changeTime cell x t).toNat else 0) =
      t.toNat - (changeTime cell x t).toNat := by
    split <;> omega
  rw [hdiff, accepts_iff]

/-! ## Many samples of one level (R154) -/

section waiting
variable {cfg : Config} {x y : Bool} {t0 : Time}

/-- A cell that saw its new level at `t0` and has not accepted it yet waits for the end of the interval. -/
theorem accepts_waiting_iff (hxy : x ≠ y) (t : Time) :
    accepts cfg ⟨x, y, t0⟩ x t = true ↔ cfg.tDbUs.toNat ≤ t.toNat - t0.toNat := by
  rw [accepts_iff, changeTime_of_eq rfl, and_iff_right hxy]

theorem not_accepts_waiting (hxy : x ≠ y) {t : Time} (ht : t.toNat - t0.toNat < cfg.tDbUs.toNat) :
    accepts cfg ⟨x, y, t0⟩ x t = false :=
  (accepts_eq_false_iff_lt hxy).2 (by rwa [changeTime_of_eq rfl])

/-- Samples inside the interval leave the waiting cell as it is. -/
theorem sampleRun_waiting (hxy : x ≠ y) {times : List Time}
    (htimes : ∀ u ∈ times, u.toNat - t0.toNat < cfg.tDbUs.toNat) :
    sampleRun cfg x ⟨x, y, t0⟩ times = ⟨x, y, t0⟩ := by
  refine List.foldlRecOn (motive := fun cell : DebounceCell => cell = ⟨x, y, t0⟩) times _ rfl
    fun cell hcell u hu => ?_
  rw [hcell, debounce_of_not_accepts (not_accepts_waiting hxy (htimes u hu)), changeTime_of_eq rfl]

/-- The sample that first sees the new level starts the timer, and an interval that is not 0 makes the cell wait. -/
theorem sampleRun_first_sight {cell : DebounceCell} (hraw : x ≠ cell.rawLevel)
    (haccepts : accepts cfg cell x t0 = false) (times : List Time) :
    sampleRun cfg x cell (t0 :: times) = sampleRun cfg x ⟨x, cell.stableLevel, t0⟩ times := by
  rw [sampleRun, List.foldl_cons, debounce_of_not_accepts haccepts, changeTime_of_ne hraw, sampleRun]
end waiting

/-- Settles O40: at first sight no time has passed since the timer; from then on the cell is a waiting one
(`sampleRun_waiting`), which accepts by its interval alone. -/
theorem transitionAcceptedAfterTheInterval : Obligations.TransitionAcceptedAfterTheInterval := by
  intro cfg cell x t0 t times hraw hstable
  have hfirst : accepts cfg cell x t0 = true ↔ cfg.tDbUs.toNat = 0 := by
    rw [accepts_iff, changeTime_of_ne hraw.symm, and_iff_right hstable.symm, Nat.sub_self, Nat.le_zero]
  refine ⟨fun hzero => hfirst.2 (by rw [hzero]; rfl), fun hpos htimes => ?_⟩
  have hnot : accepts cfg cell x t0 = false :=
    Bool.eq_false_iff.2 fun h => hpos ((micros_eq_zero_iff _).1 (hfirst.1 h))
  have hrun : sampleRun cfg x cell (t0 :: times) = ⟨x, cell.stableLevel, t0⟩ := by
    rw [sampleRun_first_sight hraw.symm hnot, sampleRun_waiting hstable.symm htimes]
  rw [hrun]
  refine ⟨hnot, rfl, not_accepts_waiting hstable.symm, fun hover => ?_⟩
  have haccepts := (accepts_waiting_iff (cfg := cfg) (t0 := t0) hstable.symm t).2 hover
  exact ⟨haccepts, by rw [debounce_of_accepts haccepts, changeTime_of_eq rfl]⟩

/-! ## POLL as its turns in their order (R152, R158) -/

/-- The next state of a POLL: the samples, then the turns of the gates, then those of the buttons. -/
theorem exec_poll (g b : BitVec 4) (s : State) :
    exec (.poll g b) s =
      .next (channels.foldl (buttonTurn b s) (channels.foldl (gateTurn g s) (sampled g b s))) := by
  refine congrArg Host.Outcome.next ?_
  rw [pollButtons_eq, pollGates_eq_foldl]
  rfl

/-- Settles O46: the two sweeps of `exec_poll`, each over the four channels in order. -/
theorem pollActionsInTheirOrder : Obligations.PollActionsInTheirOrder := fun g b s => exec_poll g b s

theorem channels_filter_pair :
    ∀ {i j : Channel}, i < j → channels.filter (fun k => decide (k = i ∨ k = j)) = [i, j] := by decide

section turns
variable {g b : BitVec 4} {s st : State} {i j : Channel}

theorem gateTurns_none (h : ∀ i, accepts s.cfg (bankGet s.gates i) (inputLevel g i) s.now = false) :
    channels.foldl (gateTurn g s) st = st :=
  dispatch_none h

theorem gateTurns_one (h : ∀ j, accepts s.cfg (bankGet s.gates j) (inputLevel g j) s.now = true ↔ j = i) :
    channels.foldl (gateTurn g s) st = gateAction i (inputLevel g i) s.now st :=
  dispatch_one (act := fun i => gateAction i (inputLevel g i) s.now) h

theorem buttonTurns_none (h : ∀ i, accepts s.cfg (bankGet s.buttons i) (inputLevel b i) s.now = false) :
    channels.foldl (buttonTurn b s) st = st :=
  dispatch_none h

theorem buttonTurns_one
    (h : ∀ j, accepts s.cfg (bankGet s.buttons j) (inputLevel b j) s.now = true ↔ j = i) :
    channels.foldl (buttonTurn b s) st = buttonAction i (inputLevel b i) s.now st :=
  dispatch_one (act := fun i => buttonAction i (inputLevel b i) s.now) h

/-- With exactly two inputs accepted the dispatch is their two actions in index order. -/
theorem dispatch_two {acc : Channel → Bool} {act : Channel → State → State} (hij : i < j)
    (h : ∀ k, acc k = true ↔ k = i ∨ k = j) : dispatch acc act st = act j (act i st) := by
  have hacc : acc = fun k => decide (k = i ∨ k = j) := funext fun k => by
    rw [Bool.eq_iff_iff, h k, decide_eq_true_iff]
  rw [dispatch, ← List.foldl_filter (f := fun st k => act k st), hacc, channels_filter_pair hij]
  rfl

theorem buttonTurns_two (hij : i < j)
    (h : ∀ k, accepts s.cfg (bankGet s.buttons k) (inputLevel b k) s.now = true ↔ k = i ∨ k = j) :
    channels.foldl (buttonTurn b s) st =
      buttonAction j (inputLevel b j) s.now (buttonAction i (inputLevel b i) s.now st) :=
  dispatch_two (act := fun i => buttonAction i (inputLevel b i) s.now) hij h

/-! ## The POLLs that accept nothing or one input -/

theorem exec_poll_quiet (hg : ∀ i, accepts s.cfg (bankGet s.gates i) (inputLevel g i) s.now = false)
    (hb : ∀ i, accepts s.cfg (bankGet s.buttons i) (inputLevel b i) s.now = false) :
    exec (.poll g b) s = .next (sampled g b s) := by
  rw [exec_poll, gateTurns_none hg, buttonTurns_none hb]

theorem exec_poll_onlyGate (h : OnlyGateAccepted g b s i) :
    exec (.poll g b) s = .next (gateAction i (inputLevel g i) s.now (sampled g b s)) := by
  obtain ⟨hg, hb⟩ := h
  rw [exec_poll, gateTurns_one hg, buttonTurns_none hb]

theorem exec_poll_onlyButton (h : OnlyButtonAccepted g b s i) :
    exec (.poll g b) s = .next (buttonAction i (inputLevel b i) s.now (sampled g b s)) := by
  obtain ⟨hg, hb⟩ := h
  rw [exec_poll, gateTurns_none hg, buttonTurns_one hb]
end turns

/-- Settles O42: with no turn taken the samples are all there is, and none of them moves a stable level. -/
theorem quietPollOnlyMovesRawLevelsAndTimers : Obligations.QuietPollOnlyMovesRawLevelsAndTimers := by
  intro g b s hg hb
  rw [exec_poll_quiet hg hb]
  simp only [sampled, debounce_of_not_accepts (hg _), debounce_of_not_accepts (hb _), changeTime_eq_ite]

/-! ## Gate actions (R160) -/

/-- A gate action leaves alone the selector, the manual flags, the events and the other banks. -/
theorem gateAction_leaves (i : Channel) (p : Bool) (t : Time) (s : State) :
    (gateAction i p t s).chanSel = s.chanSel ∧
    (gateAction i p t s).manualTriggerActive = s.manualTriggerActive ∧
    (gateAction i p t s).displayDirty = true ∧ (gateAction i p t s).trace = s.trace ∧
    OtherBanksKept i s (gateAction i p t s) := by
  have hbanks : OtherBanksKept i s (gateAction i p t s) := fun d hd => by rw [gateAction_engine, if_neg hd]
  obtain ⟨-, h⟩ | ⟨-, h⟩ := gateAction_cases i p t s <;> rw [h] at hbanks ⊢ <;>
    exact ⟨rfl, rfl, rfl, rfl, hbanks⟩

/-- Settles O43: a gate action is the note action of its own channel, and the POLL is that action on the samples. -/
theorem gateTransitionPlaysItsOwnChannel : Obligations.GateTransitionPlaysItsOwnChannel := by
  refine ⟨fun i t s => ⟨noteOnAct_eq i t s, noteOffAct_eq i t s⟩, fun g b s i honly => ?_⟩
  rw [exec_poll_onlyGate honly]
  refine ⟨fun hpress => ?_, fun hrelease => ?_, _, rfl, gateAction_leaves i _ _ (sampled g b s)⟩
  · rw [hpress, exec_noteOn]
    rfl
  · rw [hrelease, exec_noteOff]
    rfl

/-! ## Button actions (R161 to R166) -/

/-- The k of R163, as the model adds it up, is the number of buttons in the `Pressed` state. -/
theorem pressedButtons_eq_card (s : State) :
    pressedButtons s =
      (Finset.univ.filter (fun j : Channel => (bankGet s.buttons j).stableLevel = true)).card := by
  rw [Finset.card_filter, Fin.sum_univ_four]
  simp [pressedButtons, channels, bitNat, add_assoc]

theorem pressedAfter_eq (g b : BitVec 4) (s : State) : pressedAfter g b s = pressedButtons (sampled g b s) :=
  (pressedButtons_eq_card _).symm

section buttons
variable {i : Channel} {s : State}

theorem buttonAction_release_selected_silent (h : s.chanSel = i)
    (hm : bankGet s.manualTriggerActive i = false) (t : Time) : buttonAction i false t s = s := by
  simp [buttonAction, h, buttonReleaseSelected, hm]

theorem buttonAction_chord (h : s.chanSel ≠ i) (hk : pressedButtons s = 2) (t : Time) :
    buttonAction i true t s = chordToggle s := by
  simp [buttonAction, h, hk]

theorem buttonAction_switch (h : s.chanSel ≠ i) (hk : pressedButtons s ≠ 2) (t : Time) :
    buttonAction i true t s = switchChannel i s := by
  simp [buttonAction, h, hk]

theorem buttonAction_release_other (h : s.chanSel ≠ i) (t : Time) : buttonAction i false t s = s := by
  simp [buttonAction, h]
end buttons

/-- Settles O44: one equation for each of the six cases, in any state and then on the samples of a POLL in which only
that button acts (`exec_poll_onlyButton`). -/
theorem buttonTransitionTable : Obligations.ButtonTransitionTable := by
  refine ⟨fun i t s => ?_, fun g b s i honly => ?_⟩
  · rw [← pressedButtons_eq_card s]
    exact ⟨fun hsel => buttonAction_press_selected hsel t,
      fun hsel hm => buttonAction_release_selected hsel hm t,
      fun hsel hm => buttonAction_release_selected_silent hsel hm t,
      fun hsel hk => buttonAction_chord hsel hk t,
      fun hsel hk => buttonAction_switch hsel hk t,
      fun hsel => buttonAction_release_other hsel t⟩
  · rw [exec_poll_onlyButton honly, pressedAfter_eq]
    refine ⟨fun hsel hp => ?_, fun hsel hp hm => ?_, fun hsel hp hm => ?_, fun hsel hp hk => ?_,
      fun hsel hp hk => ?_, fun hsel hp => ?_⟩ <;> rw [hp] <;> refine congrArg Host.Outcome.next ?_
    · exact buttonAction_press_selected (s := sampled g b s) hsel s.now
    · exact buttonAction_release_selected (s := sampled g b s) hsel hm s.now
    · exact buttonAction_release_selected_silent (s := sampled g b s) hsel hm s.now
    · exact buttonAction_chord (s := sampled g b s) hsel hk s.now
    · exact buttonAction_switch (s := sampled g b s) hsel hk s.now
    · exact buttonAction_release_other (s := sampled g b s) hsel s.now

/-! ## A chord accepted at once (R163, R169) -/

section chord
variable {g b : BitVec 4} {s : State} {i j : Channel}

/-- Two buttons accepted as pressed and no other one held: two are `Pressed` after phase 1. -/
theorem pressedButtons_sampled_pair (hne : i ≠ j)
    (hacc : ∀ k, accepts s.cfg (bankGet s.buttons k) (inputLevel b k) s.now = true ↔ k = i ∨ k = j)
    (hi : inputLevel b i = true) (hj : inputLevel b j = true)
    (hothers : ∀ k, k ≠ i → k ≠ j → (bankGet s.buttons k).stableLevel = false) :
    pressedButtons (sampled g b s) = 2 := by
  rw [pressedButtons_eq_card, ← Finset.card_pair hne]
  congr 1
  ext k
  have hcell : bankGet (sampled g b s).buttons k =
    debounce s.cfg (bankGet s.buttons k) (inputLevel b k) s.now := pollSample_buttons g b s k
  rw [Finset.mem_filter_univ, Finset.mem_insert, Finset.mem_singleton, hcell]
  by_cases hk : k = i ∨ k = j
  · have hlevel : inputLevel b k = true := by
      obtain rfl | rfl := hk
      · exact hi
      · exact hj
    rw [debounce_stable_of_accepts ((hacc k).2 hk), hlevel]
    exact iff_of_true rfl hk
  · have hnot := Bool.eq_false_iff.2 (mt (hacc k).1 hk)
    obtain ⟨hki, hkj⟩ := not_or.1 hk
    rw [debounce_stable_of_not_accepts hnot, hothers k hki hkj]
    exact iff_of_false Bool.false_ne_true hk

theorem chordToggle_chordToggle (s : State) :
    chordToggle (chordToggle s) =
      { s with trace := s.trace ++ [.modeToggle, .modeToggle], displayDirty := true } := by
  simp [chordToggle, State.emit, State.markDisplay]

/-- The first toggle moves neither the selector nor a button, so the second action finds the same chord. -/
theorem exec_poll_chord (hij : i < j) (hi : s.chanSel ≠ i) (hj : s.chanSel ≠ j)
    (hgates : ∀ k, accepts s.cfg (bankGet s.gates k) (inputLevel g k) s.now = false)
    (hacc : ∀ k, accepts s.cfg (bankGet s.buttons k) (inputLevel b k) s.now = true ↔ k = i ∨ k = j)
    (hpi : inputLevel b i = true) (hpj : inputLevel b j = true)
    (hk : pressedButtons (sampled g b s) = 2) :
    exec (.poll g b) s = .next (chordToggle (chordToggle (sampled g b s))) := by
  rw [exec_poll, gateTurns_none hgates, buttonTurns_two hij hacc, hpi, hpj,
    buttonAction_chord (s := sampled g b s) hi hk,
    buttonAction_chord (s := chordToggle (sampled g b s)) hj hk]
end chord

/-- Settles O45: both orders of the two buttons are one chord (`exec_poll_chord`). -/
theorem chordAcceptedAtOnceTogglesTwice : Obligations.ChordAcceptedAtOnceTogglesTwice := by
  intro g b s i j hne hi hj hgates hacc hpi hpj hothers
  have hk : pressedButtons (sampled g b s) = 2 := pressedButtons_sampled_pair hne hacc hpi hpj hothers
  have hpoll : exec (.poll g b) s = .next (chordToggle (chordToggle (sampled g b s))) := by
    obtain hij | hji := lt_or_gt_of_ne hne
    · exact exec_poll_chord hij hi hj hgates hacc hpi hpj hk
    · exact exec_poll_chord hji hj hi hgates (fun k => (hacc k).trans or_comm) hpj hpi hk
  rw [hpoll, chordToggle_chordToggle]
  rfl

end Sys2Proof.Machine
end

section
/-! The system operations NOP, READ, CLR_FLAGS, TICK and OUT_ACK, and the step that finds nothing presented
(45_system.md R200 to R206). -/

namespace Sys2Proof.Machine

/-! ## READ (R202): its two outcomes -/

/-- The two error cases of READ, by register number. -/
theorem readError_iff (cfg : Config) (reg : Reg) (index : BitVec 16) :
    readError cfg reg index = true ↔ 0x16 ≤ reg.number.toNat ∨
      ((reg.number.toNat = 0x14 ∨ reg.number.toNat = 0x15) ∧ cfg.n ≤ index.toNat) := by
  cases reg with
  | reserved k =>
    have hnumber : 0x16 ≤ (Reg.reserved k).number.toNat := by revert k; decide
    exact iff_of_true rfl (.inl hnumber)
  | _ => simp [readError, Reg.number]

section read
variable {c : Channel} {reg : Reg} {index : BitVec 16} {s : State}

theorem exec_read_of_error (h : readError s.cfg reg index = true) :
    exec (.read c reg index) s = .next { s with cmdErr := true, trace := s.trace ++ [.rsp 0#64] } := by
  have hvalue : readValue s c reg index = 0#64 := if_pos h
  rw [exec, execRead, hvalue, h, State.markError, Bool.or_true]
  rfl

theorem exec_read_of_not_error (h : ¬ readError s.cfg reg index = true) :
    exec (.read c reg index) s = .next { s with trace := s.trace ++ [.rsp (regValue s c reg index)] } := by
  have hvalue : readValue s c reg index = regValue s c reg index := if_neg h
  rw [exec, execRead, hvalue, Bool.eq_false_iff.2 h, State.markError, Bool.or_false]
  rfl
end read

/-! ## READ (R202): the values of the register map -/

theorem bitNat_eq_toNat (b : Bool) : bitNat b = b.toNat := by cases b <;> rfl

/-- A value below 2^64 is answered as it stands. -/
theorem ofNat_toNat_of_le {n m : Nat} (h : n ≤ m) (hm : m < 2 ^ 64) : (BitVec.ofNat 64 n).toNat = n :=
  Nat.mod_eq_of_lt (h.trans_lt hm)

theorem ofNat_bitNat_toNat (b : Bool) : (BitVec.ofNat 64 (bitNat b)).toNat = b.toNat := by
  rw [bitNat_eq_toNat]
  exact ofNat_toNat_of_le b.toNat_le (by decide)

/-- A level register has at most 16 bits, so 64 bits show its value (R48, R202). -/
theorem level_setWidth_toNat {cfg : Config} (hcfg : cfg.Legal) {l : Level} (h : Level.Fits cfg l) :
    (l.bits.setWidth 64).toNat = l.toNat := by
  obtain ⟨hwidth, -⟩ := h
  obtain ⟨-, -, hsmall⟩ := levelWidth_bounds hcfg
  exact BitVec.toNat_setWidth_of_le (by omega)

theorem ofNat_cellBits_toNat (x : DebounceCell) :
    (BitVec.ofNat 64 (cellBits x)).toNat = x.rawLevel.toNat + 2 * x.stableLevel.toNat := by
  have hraw := x.rawLevel.toNat_le
  have hstable := x.stableLevel.toNat_le
  rw [cellBits, bitNat_eq_toNat, bitNat_eq_toNat]
  exact ofNat_toNat_of_le (m := 3) (by omega) (by decide)

theorem regValue_status (s : State) (c : Channel) (index : BitVec 16) :
    (regValue s c .status index).toNat =
      s.displayDirty.toNat + 2 * s.outRefresh.toNat + 4 * s.cmdErr.toNat := by
  have hdisplay := s.displayDirty.toNat_le
  have hrefresh := s.outRefresh.toNat_le
  have herr := s.cmdErr.toNat_le
  rw [regValue, statusBits, bitNat_eq_toNat, bitNat_eq_toNat, bitNat_eq_toNat]
  exact ofNat_toNat_of_le (m := 7) (by omega) (by decide)

/-- Two fields side by side are the upper one times the weight of its lowest bit, plus the lower one. -/
theorem toNat_append_eq_add {m n : Nat} (x : BitVec m) (y : BitVec n) :
    (x ++ y).toNat = 2 ^ n * x.toNat + y.toNat := by
  rw [BitVec.toNat_append, ← Nat.shiftLeft_add_eq_or_of_lt y.isLt, Nat.shiftLeft_eq, Nat.mul_comm]

/-- R-1 and N-1 of a legal configuration fit their 16 bits of CONFIG. -/
theorem configBits_toNat {cfg : Config} (h : cfg.Legal) :
    (configBits cfg).toNat = (cfg.r - 1) + 65536 * (cfg.n - 1) + 4294967296 * cfg.tDbUs.toNat := by
  obtain ⟨-, hr, -, hn, -⟩ := h
  have hlast : (BitVec.ofNat 16 cfg.last).toNat = cfg.n - 1 :=
    Nat.mod_eq_of_lt (show cfg.n - 1 < 2 ^ 16 by omega)
  have htop : (BitVec.ofNat 16 cfg.top).toNat = cfg.r - 1 :=
    Nat.mod_eq_of_lt (show cfg.r - 1 < 2 ^ 16 by omega)
  rw [configBits, toNat_append_eq_add, toNat_append_eq_add, hlast, htop]
  omega

/-- A table entry is at most R-1, so 64 bits show it. -/
theorem ofNat_tableEntry_toNat {cfg : Config} (h : cfg.Legal) (table : Table) {i : Nat} (hi : i < cfg.n) :
    (BitVec.ofNat 64 (tableEntry cfg table i)).toNat = tableEntry cfg table i := by
  have hentry := tableEntry_le h table (Nat.le_sub_one_of_lt hi)
  obtain ⟨-, hr, -⟩ := h
  exact ofNat_toNat_of_le hentry (show cfg.r - 1 < 2 ^ 64 by omega)

/-- Entry 128 of the default attack table (R202, the worked example). -/
theorem regValue_lutAtt_example : regValue State.reset 0 .lutAtt 128#16 = 3615#64 := by decide +kernel

/-- Settles O48: `readError_iff` separates the two outcomes, and each value fits 64 bits under the bounds of R48. -/
theorem readAnswersTheRegisterMap : Obligations.ReadAnswersTheRegisterMap := by
  refine ⟨fun c reg index s => ?_, fun c index s hinv => ?_, by decide, fun n hn => ?_,
    fun c reg index => encodes_self, by decide, by decide, ?_, ?_, ?_⟩
  · rw [← readError_iff]
    exact ⟨exec_read_of_error, exec_read_of_not_error⟩
  · obtain ⟨hcfg, hlevels⟩ := hinv
    obtain ⟨hsustain, hattack, hrelease, houtput⟩ := hlevels c
    have micros (us : Micros) : (us.setWidth 64).toNat = us.toNat := BitVec.toNat_setWidth_of_le (by decide)
    have hheld : ((s.engine c).notesHeld.setWidth 64).toNat = (s.engine c).notesHeld.toNat :=
      BitVec.toNat_setWidth_of_le (by decide)
    exact ⟨micros _, micros _, level_setWidth_toNat hcfg hsustain, micros _, ofNat_bitNat_toNat _, hheld, rfl, rfl,
      level_setWidth_toNat hcfg hattack, level_setWidth_toNat hcfg hrelease, level_setWidth_toNat hcfg houtput,
      ofNat_cellBits_toNat _, rfl, ofNat_cellBits_toNat _, rfl, ofNat_bitNat_toNat _, rfl,
      ofNat_toNat_of_le s.chanSel.isLt.le (by decide), regValue_status s c index, configBits_toNat hcfg,
      fun hi => ⟨ofNat_tableEntry_toNat hcfg .att hi, ofNat_tableEntry_toNat hcfg .dr hi⟩⟩
  · obtain ⟨k, hk⟩ := regOf_eq_reserved hn
    exact ⟨k, hk, by rw [← hk, number_regOf]⟩
  · exact exec_read_of_not_error (by decide)
  · rw [exec_read_of_not_error (by decide), regValue_lutAtt_example]
    rfl
  · exact exec_read_of_error (by decide)

/-! ## TICK (R204) -/

/-- The time after TICK n, wrap included. -/
theorem ticked_now_toNat (n : Micros) (s : State) :
    (s.ticked n).now.toNat = (s.now.toNat + n.toNat) % 2 ^ 64 := by
  rw [ticked_now, BitVec.toNat_add, BitVec.toNat_setWidth_of_le (by decide)]

/-- Any number of TICK 1, counted modulo 2^64. -/
theorem execAll_replicate_tick_one (k : Nat) (s : State) :
    execAll (List.replicate k (.tick 1#32)) s = .next { s with now := s.now + BitVec.ofNat 64 k } := by
  induction k generalizing s with
  | zero => rw [List.replicate_zero, execAll, BitVec.add_zero]
  | succ k ih =>
    have hnow : (s.ticked 1#32).now + BitVec.ofNat 64 k = s.now + BitVec.ofNat 64 (k + 1) := by
      rw [ticked_now, BitVec.add_assoc, Nat.add_comm k, BitVec.ofNat_add]
      rfl
    rw [List.replicate_succ, execAll_cons (exec_tick 1#32 s), ih, hnow]
    rfl

/-- Settles O50: n times TICK 1 by induction (`execAll_replicate_tick_one`), and only TICK moves the time
(`exec_now`). -/
theorem tickAdvancesTime : Obligations.TickAdvancesTime := by
  refine ⟨fun n s => ⟨_, ticked_now_toNat n s, exec_tick n s⟩, fun n s => ?_, fun i s t hi h => ?_,
    fun _ => encodes_self rfl, ⟨_, exec_tick _ _, by decide⟩, by decide⟩
  · rw [execAll_replicate_tick_one, BitVec.ofNat_toNat, exec_tick, State.ticked]
  · obtain hnow | ⟨n, rfl, -⟩ := exec_now h
    · exact hnow
    · exact absurd rfl (hi n)

/-! ## Nothing presented (R206) -/

/-- Settles O15: with no input the fetch is done on the state as it is. -/
theorem nothingPresentedNothingChanges : Obligations.NothingPresentedNothingChanges := by
  intro s hinputs
  apply step_of_fetch_done
  simp only [fetch, hinputs]

/-! ## NOP (R200) -/

theorem exec_nop (s : State) : exec .nop s = .next s := rfl

/-- Settles O47: the word of NOP is all zero, and a word whose Z is not 0 is one that R88 discards. -/
theorem nopChangesNothing : Obligations.NopChangesNothing := by
  have hzero : encode .nop = 0#40 := by decide
  refine ⟨exec_nop, encodes_self rfl, hzero ▸ decode_encode rfl, fun src w hz => ?_⟩
  have hreserved : verdict src w = .reserved := verdict_of_error (decode_of_reservedZ hz) src
  exact ⟨hreserved, fun s rest hinputs => discardedWordOnlySetsCmdErr s src w rest hinputs (.inl hreserved)⟩

/-! ## CLR_FLAGS (R203) -/

/-- A flag under its mask bit. -/
theorem and_not_eq_ite (flag bit : Bool) : (flag && !bit) = if bit = true then false else flag := by
  cases bit
  · exact Bool.and_true flag
  · exact Bool.and_false flag

theorem exec_clrFlags (mask : BitVec 3) (s : State) : exec (.clrFlags mask) s = .next { s with
    displayDirty := if mask[0] = true then false else s.displayDirty
    outRefresh := if mask[1] = true then false else s.outRefresh
    cmdErr := if mask[2] = true then false else s.cmdErr } := by
  simp only [← and_not_eq_ite]
  rfl

/-- Settles O49: each flag is cleared by its own mask bit (`exec_clrFlags`). -/
theorem clrFlagsClearsByMask : Obligations.ClrFlagsClearsByMask :=
  ⟨exec_clrFlags, fun _ => encodes_self rfl, by decide, _, exec_clrFlags _ _, rfl, rfl, rfl⟩

/-! ## OUT_ACK (R205) -/

theorem exec_outAck (s : State) : exec .outAck s = .next { s with outRefresh := false } := rfl

/-- Operations after others go on from the state those leave. -/
theorem execAll_append {ops : List Instr} {s t : State} (h : execAll ops s = .next t) (more : List Instr) :
    execAll (ops ++ more) s = execAll more t := by
  induction ops generalizing s with
  | nil =>
    cases h
    rfl
  | cons i ops ih =>
    obtain ⟨u, hu⟩ := exec_next i s
    rw [execAll_cons hu] at h
    rw [List.cons_append, execAll_cons hu, ih h]

/-- Settles O51: whatever the pass leaves in the flag, the OUT_ACK after it clears it. -/
theorem outAckClearsTheRefreshFlag : Obligations.OutAckClearsTheRefreshFlag := by
  refine ⟨exec_outAck, encodes_self rfl, fun s => ?_⟩
  obtain ⟨t, ht, -⟩ := execAll_keeps (P := fun _ => True) (ops := passOps) (fun _ _ _ _ _ _ => trivial)
    (s := s) trivial
  exact ⟨{ t with outRefresh := false },
    (execAll_append ht [.outAck]).trans (execAll_cons (exec_outAck t) []), rfl⟩

end Sys2Proof.Machine
end

section
/-! Opcodes of other agents at the command port, and the words of the strobe pins (60_exceptions.md R227). -/

namespace Sys2Proof.Machine

/-- At the command port a word with an opcode of another agent is refused: for its source, or for its Z (R83, R85). -/
theorem verdict_host_of_otherAgent {w : OpWord} {op : Opcode} (ho : opcodeOf (opcField w) = some op)
    (hsource : op.legalSource ≠ .host) :
    verdict .host w = .reserved ∨ verdict .host w = .illegalSource := by
  by_cases hz : zField w = 0#2
  · exact .inr (by rw [verdict_of_row hz ho, if_neg hsource.symm])
  · exact .inl (verdict_of_error (decode_of_reservedZ hz) .host)

/-- The opcodes 0xA to 0xD are EVAL, POLL, TICK and OUT_ACK, none of them the host's (R83, R84). -/
theorem otherAgent_of_code {code : BitVec 4} (h : code = 0xA#4 ∨ code = 0xB#4 ∨ code = 0xC#4 ∨ code = 0xD#4) :
    ∃ op, opcodeOf code = some op ∧ op.legalSource ≠ .host := by
  obtain rfl | rfl | rfl | rfl := h
  · exact ⟨.eval, rfl, by decide⟩
  · exact ⟨.poll, rfl, by decide⟩
  · exact ⟨.tick, rfl, by decide⟩
  · exact ⟨.outAck, rfl, by decide⟩

/-- An input that presents a word without being one presents an operation from its own agent (R92, R93). -/
theorem presented_by_pin {pos : Option Channel} {x : Input} {src : Source} {w : OpWord}
    (h : presented pos x = some (src, w)) (hx : ∀ src' w', x ≠ .word src' w') :
    ∃ i : Instr, i.wellFormed = true ∧ src = i.legalSource ∧ w = encode i := by
  cases x with
  | word src' w' => exact absurd rfl (hx src' w')
  | usTick => cases h; exact ⟨.tick 1#32, rfl, rfl, rfl⟩
  | pollStrobe gates buttons => cases h; exact ⟨.poll gates buttons, rfl, rfl, rfl⟩
  | seqTurn =>
    obtain ⟨c, -, hc⟩ := Option.map_eq_some_iff.1 h
    cases hc
    exact ⟨.eval c, rfl, rfl, rfl⟩
  | outAck => cases h; exact ⟨.outAck, rfl, rfl, rfl⟩
  | sampleStrobe | rst => cases h

/-- Settles O10: the host's word is refused whatever its Z (`verdict_host_of_otherAgent`), and a pin presents the
word of an operation from its legal source (`presented_by_pin`). -/
theorem otherAgentsOpcodesAreDiscardedFromHost : Obligations.OtherAgentsOpcodesAreDiscardedFromHost := by
  refine ⟨fun s w rest hinputs hcode => ?_, fun pos x src w hpresented hx => ?_⟩
  · obtain ⟨op, ho, hsource⟩ := otherAgent_of_code hcode
    exact discardedWordOnlySetsCmdErr s .host w rest hinputs (verdict_host_of_otherAgent ho hsource)
  · obtain ⟨i, hwf, rfl, rfl⟩ := presented_by_pin hpresented hx
    exact ⟨i, verdict_encode hwf⟩

end Sys2Proof.Machine
end

section
/-! Who writes which register: the bank an operation on one channel reads and writes (60_exceptions.md R230), and the
table of writers (R226). -/

namespace Sys2Proof

/-- The channel of an operation on one engine bank (R81, R230); READ and the operations on no channel have none. -/
def Instr.bank : Instr → Option Channel
  | .setAttack c _ | .setDecay c _ | .setSustain c _ | .setRelease c _ | .setPolicy c _
  | .noteOn c | .noteOff c | .eval c => some c
  | .nop | .read _ _ _ | .clrFlags _ | .poll _ _ | .tick _ | .outAck => none

end Sys2Proof

namespace Sys2Proof.Machine

theorem bank_eq_some_iff {c : Channel} {i : Instr} : i.bank = some c ↔ OnChannel c i := by
  constructor
  · intro h
    cases i with
    | setAttack _ _ | setDecay _ _ | setSustain _ _ | setRelease _ _ | setPolicy _ _
    | noteOn _ | noteOff _ | eval _ => cases h; simp [OnChannel]
    | nop | read _ _ _ | clrFlags _ | poll _ _ | tick _ | outAck => cases h
  · rintro (⟨us, rfl | rfl | rfl | rfl⟩ | ⟨p, rfl⟩ | rfl | rfl | rfl) <;> rfl

/-- What an operation on one channel at time `t` makes of that channel's bank (R110, R112, R128, R140 to R144). -/
def Engine.writtenBy (cfg : Config) (t : Time) (e : Engine) : Instr → Engine
  | .setAttack _ us => { e with attackUs := us }
  | .setDecay _ us => { e with decayUs := us }
  | .setSustain _ operand => { e with sustainLevel := clampLevel cfg operand }
  | .setRelease _ us => { e with releaseUs := us }
  | .setPolicy _ p => { e with resetAttackOnTrigger := p }
  | .noteOn _ => e.noteOn t
  | .noteOff _ => e.noteOff t
  | .eval _ => e.storeOutput (level cfg e t)
  | .nop | .read _ _ _ | .clrFlags _ | .poll _ _ | .tick _ | .outAck => e

/-! ## The banks after an operation -/

section
variable {i : Instr} {s t : State}

/-- An operation on one channel writes that channel's bank, from that bank, the time and the configuration (R230). -/
theorem exec_engines_of_bank {d : Channel} (hi : i.bank = some d) (h : exec i s = .next t) :
    t.engines = bankSet s.engines d ((s.engine d).writtenBy s.cfg s.now i) := by
  cases i with
  | setAttack _ _ | setDecay _ _ | setSustain _ _ | setRelease _ _ | setPolicy _ _
  | noteOn _ | noteOff _ | eval _ => cases hi; cases h; rfl
  | nop | read _ _ _ | clrFlags _ | poll _ _ | tick _ | outAck => cases hi

theorem exec_engine_of_bank {d : Channel} (hi : i.bank = some d) (h : exec i s = .next t) :
    t.engine d = (s.engine d).writtenBy s.cfg s.now i := by
  rw [State.engine, exec_engines_of_bank hi h, bankGet_bankSet_self]

theorem exec_otherBanksKept {d : Channel} (hi : i.bank = some d) (h : exec i s = .next t) :
    OtherBanksKept d s t := fun c hc => by
  rw [State.engine, exec_engines_of_bank hi h, bankGet_bankSet_ne _ _ hc]
  rfl

/-- An operation on no channel writes no bank, unless it is a POLL (R226). -/
theorem exec_engines_of_no_bank (hi : i.bank = none) (hpoll : ∀ g b, i ≠ .poll g b) (h : exec i s = .next t) :
    t.engines = s.engines := by
  cases i with
  | poll gates buttons => exact absurd rfl (hpoll gates buttons)
  | nop | read _ _ _ | clrFlags _ | tick _ | outAck => cases h; rfl
  | _ => cases hi

end

/-- Settles O57: what `exec_engine_of_bank` makes of the bank of `c` is read off that bank, `now` and the
configuration. -/
theorem channelsAreIsolated : Obligations.ChannelsAreIsolated := by
  intro c i s s' hi hengine hnow hcfg
  have hbank := bank_eq_some_iff.2 hi
  obtain ⟨t, ht⟩ := exec_next i s
  obtain ⟨t', ht'⟩ := exec_next i s'
  refine ⟨t, t', ht, ht', ?_, exec_otherBanksKept hbank ht, exec_otherBanksKept hbank ht'⟩
  rw [exec_engine_of_bank hbank ht, exec_engine_of_bank hbank ht', hengine, hnow, hcfg]

/-! ## The writers of a bank (R226) -/

/-- All but the parameters is as it was. -/
def Engine.OutsideParamsKept (e e' : Engine) : Prop :=
  e.NotePartKept e' ∧ e'.lastOutputLevel = e.lastOutputLevel

/-- All but the output level is as it was. -/
def Engine.OutsideOutputKept (e e' : Engine) : Prop := e.ParamsKept e' ∧ e.NotePartKept e'

/-- Which operations may change which part of the bank of channel `c` (R226). -/
inductive Engine.Written (c : Channel) (i : Instr) (e e' : Engine) : Prop
  | nothing (h : e' = e)
  | params (hi : IsSetterOf c i) (h : e.OutsideParamsKept e')
  | notes (hi : i = .noteOn c ∨ i = .noteOff c ∨ ∃ g b, i = .poll g b) (h : e.OutsideNotesKept e')
  | output (hi : i = .eval c) (h : e.OutsideOutputKept e')

/-- A setter writes a parameter of its bank (R140 to R144). -/
theorem writtenBy_setter (cfg : Config) (t : Time) (e : Engine) {c : Channel} {i : Instr} (hi : IsSetterOf c i) :
    e.OutsideParamsKept (e.writtenBy cfg t i) := by
  obtain ⟨us, rfl | rfl | rfl | rfl⟩ | ⟨p, rfl⟩ := hi <;> exact ⟨⟨rfl, rfl, rfl, rfl, rfl⟩, rfl⟩

/-- The part of its own bank that an operation on one channel writes. -/
theorem writtenBy_written (cfg : Config) (t : Time) (e : Engine) {c : Channel} {i : Instr} (hi : OnChannel c i) :
    Engine.Written c i e (e.writtenBy cfg t i) := by
  obtain hset | hset | rfl | rfl | rfl := hi
  · exact .params (.inl hset) (writtenBy_setter cfg t e (.inl hset))
  · exact .params (.inr hset) (writtenBy_setter cfg t e (.inr hset))
  · exact .notes (.inl rfl) (play_outsideNotesKept t e true)
  · exact .notes (.inr (.inl rfl)) (play_outsideNotesKept t e false)
  · exact .output rfl ⟨⟨rfl, rfl, rfl, rfl, rfl⟩, rfl, rfl, rfl, rfl, rfl⟩

/-- Every operation keeps to R226 on every bank. -/
theorem exec_written {i : Instr} {s t : State} (h : exec i s = .next t) (c : Channel) :
    Engine.Written c i (s.engine c) (t.engine c) := by
  by_cases hpoll : ∃ g b, i = .poll g b
  · obtain ⟨g, b, rfl⟩ := hpoll
    rw [execPoll_engine h c]
    exact .notes (.inr (.inr ⟨g, b, rfl⟩)) (foldl_play_outsideNotesKept _ _ _)
  cases hbank : i.bank with
  | none =>
    have hkept := exec_engines_of_no_bank hbank (fun g b hi => hpoll ⟨g, b, hi⟩) h
    exact .nothing (congrArg (bankGet · c) hkept)
  | some d =>
    by_cases hc : c = d
    · subst hc
      rw [exec_engine_of_bank hbank h]
      exact writtenBy_written _ _ _ (bank_eq_some_iff.1 hbank)
    · exact .nothing (exec_otherBanksKept hbank h c hc)

section
variable {c : Channel} {i : Instr} {e e' : Engine}

theorem Engine.Written.paramsKept (h : Engine.Written c i e e') (hi : ¬ IsSetterOf c i) : e.ParamsKept e' := by
  cases h with
  | nothing h => subst h; exact ⟨rfl, rfl, rfl, rfl, rfl⟩
  | params hset _ => exact absurd hset hi
  | notes _ h => exact h.1
  | output _ h => exact h.1

theorem Engine.Written.notePartKept (h : Engine.Written c i e e')
    (hi : ¬ (i = .noteOn c ∨ i = .noteOff c ∨ ∃ g b, i = .poll g b)) : e.NotePartKept e' := by
  cases h with
  | nothing h => subst h; exact ⟨rfl, rfl, rfl, rfl, rfl⟩
  | params _ h => exact h.1
  | notes hnote _ => exact absurd hnote hi
  | output _ h => exact h.2

theorem Engine.Written.outputKept (h : Engine.Written c i e e') (hi : i ≠ .eval c) :
    e'.lastOutputLevel = e.lastOutputLevel := by
  cases h with
  | nothing h => rw [h]
  | params _ h => exact h.2
  | notes _ h => exact h.2
  | output heval _ => exact absurd heval hi

end

/-! ## The writers of everything else (R226) -/

/-- No operation writes the configuration or the environment's part. -/
theorem exec_outsideKept {i : Instr} {s t : State} (h : exec i s = .next t) : OutsideKept s t := by
  refine ⟨exec_cfg h, ?_⟩
  cases i with
  | poll gates buttons =>
    obtain ⟨-, -, -, hseq, hinputs, -⟩ := execPoll_frame h
    exact ⟨hseq, hinputs⟩
  | _ => cases h; exact ⟨rfl, rfl⟩

/-- POLL alone writes the cells, the selector and the manual flags. -/
theorem exec_samplerPartKept {i : Instr} {s t : State} (hpoll : ∀ g b, i ≠ .poll g b) (h : exec i s = .next t) :
    SamplerPartKept s t := by
  cases i with
  | poll gates buttons => exact absurd rfl (hpoll gates buttons)
  | _ => cases h; exact ⟨rfl, rfl, rfl, rfl⟩

/-- Settles O55: the banks by `exec_written`, the time by `exec_now`. -/
theorem singleWriterPerField : Obligations.SingleWriterPerField := by
  intro i s
  obtain ⟨t, ht⟩ := exec_next i s
  refine ⟨t, ht, exec_outsideKept ht, fun c hi => (exec_written ht c).paramsKept hi,
    fun c hon hoff hpoll => (exec_written ht c).notePartKept ?_, fun c hi => (exec_written ht c).outputKept hi,
    fun htick => ?_, fun hpoll => exec_samplerPartKept hpoll ht⟩
  · rintro (hi | hi | ⟨g, b, hi⟩)
    · exact hon hi
    · exact hoff hi
    · exact hpoll g b hi
  · obtain hnow | ⟨n, hi, -⟩ := exec_now ht
    · exact hnow
    · exact absurd hi (htick n)

end Sys2Proof.Machine
end

section
/-! Who sets and who clears each flag (60_exceptions.md R223), and a set and a clear in one clock cycle (R224). -/

namespace Sys2Proof.Machine

/-! ## How an operation moves a flag -/

/-- A flag goes from `old` to `new`, up only under `sets` and down only under `clears`. -/
structure FlagMoves (sets clears : Prop) (old new : Bool) : Prop where
  stays_false : ¬ sets → old = false → new = false
  stays_true : ¬ clears → old = true → new = true

section
variable {sets clears : Prop} {old new : Bool}

theorem FlagMoves.refl (sets clears : Prop) (flag : Bool) : FlagMoves sets clears flag flag :=
  ⟨fun _ => id, fun _ => id⟩

/-- An operation that may set the flag, and does not clear it. -/
theorem FlagMoves.of_sets (hsets : sets) (h : old = true → new = true) : FlagMoves sets clears old new :=
  ⟨fun hnot => absurd hsets hnot, fun _ => h⟩

/-- An operation that may clear the flag, and does not set it. -/
theorem FlagMoves.of_clears (hclears : clears) (h : old = false → new = false) : FlagMoves sets clears old new :=
  ⟨fun _ => h, fun hnot => absurd hclears hnot⟩

/-- A flag under its mask bit of CLR_FLAGS (R203). -/
theorem FlagMoves.of_mask (hclears : clears) (flag bit : Bool) : FlagMoves sets clears flag (flag && !bit) :=
  .of_clears hclears fun h => by rw [h, Bool.false_and]

end

/-! ## The three flags (R223) -/

/-- The setters, NOTE_ON and NOTE_OFF, which always set `display_dirty` (R140 to R144, R159). -/
def MarksDisplay (i : Instr) : Prop := ∃ c, IsSetterOf c i ∨ i = .noteOn c ∨ i = .noteOff c

section
variable {i : Instr} {s t : State}

theorem exec_displayDirty_of_marks (hi : MarksDisplay i) (h : exec i s = .next t) : t.displayDirty = true := by
  obtain ⟨c, (⟨us, rfl | rfl | rfl | rfl⟩ | ⟨p, rfl⟩) | rfl | rfl⟩ := hi <;> cases h <;> rfl

theorem exec_displayDirty (h : exec i s = .next t) :
    FlagMoves (MarksDisplay i ∨ ∃ g b, i = .poll g b) (∃ mask, i = .clrFlags mask)
      s.displayDirty t.displayDirty := by
  cases i with
  | setAttack c _ | setDecay c _ | setSustain c _ | setRelease c _ | setPolicy c _ =>
    cases h; exact .of_sets (.inl ⟨c, .inl (by simp [IsSetterOf])⟩) fun _ => rfl
  | noteOn c => cases h; exact .of_sets (.inl ⟨c, .inr (.inl rfl)⟩) fun _ => rfl
  | noteOff c => cases h; exact .of_sets (.inl ⟨c, .inr (.inr rfl)⟩) fun _ => rfl
  | poll g b =>
    obtain ⟨-, -, hdisplay, -⟩ := execPoll_frame h
    exact .of_sets (.inr ⟨g, b, rfl⟩) hdisplay
  | clrFlags mask => cases h; exact .of_mask ⟨mask, rfl⟩ _ _
  | nop | read _ _ _ | eval _ | tick _ | outAck => cases h; exact .refl _ _ _

theorem exec_outRefresh (h : exec i s = .next t) :
    FlagMoves (i = .eval 3) (i = .outAck ∨ ∃ mask, i = .clrFlags mask) s.outRefresh t.outRefresh := by
  cases i with
  | eval c =>
    cases (exec_eval c s).symm.trans h
    by_cases hc : c = 3
    · exact .of_sets (by rw [hc]) fun _ => if_pos hc
    · rw [State.evaluated, if_neg hc]
      exact .refl _ _ _
  | outAck => cases h; exact .of_clears (.inl rfl) fun _ => rfl
  | clrFlags mask => cases h; exact .of_mask (.inr ⟨mask, rfl⟩) _ _
  | poll g b =>
    obtain ⟨hrefresh, -⟩ := execPoll_frame h
    rw [hrefresh]
    exact .refl _ _ _
  | _ => cases h; exact .refl _ _ _

theorem exec_cmdErr (h : exec i s = .next t) :
    FlagMoves (∃ c reg index, i = .read c reg index) (∃ mask, i = .clrFlags mask) s.cmdErr t.cmdErr := by
  cases i with
  | read c reg index =>
    cases h
    exact .of_sets ⟨c, reg, index, rfl⟩ fun herr => by rw [emit_cmdErr, markError_cmdErr, herr, Bool.true_or]
  | clrFlags mask => cases h; exact .of_mask ⟨mask, rfl⟩ _ _
  | poll g b =>
    obtain ⟨-, herr, -⟩ := execPoll_frame h
    rw [herr]
    exact .refl _ _ _
  | _ => cases h; exact .refl _ _ _

end

theorem evaluated_three_outRefresh (s : State) : (s.evaluated 3).outRefresh = true := rfl

/-- Settles O56: each flag moves as its row of R223 says (`exec_displayDirty`, `exec_outRefresh`, `exec_cmdErr`). -/
theorem flagsChangeOnlyAsTabulated : Obligations.FlagsChangeOnlyAsTabulated := by
  intro i s
  obtain ⟨t, ht⟩ := exec_next i s
  have display := exec_displayDirty ht
  have refresh := exec_outRefresh ht
  have error := exec_cmdErr ht
  refine ⟨t, ht, fun hi => exec_displayDirty_of_marks hi ht, fun hmarks hpoll => display.stays_false ?_,
    fun hclr => display.stays_true (not_exists.2 hclr), fun hi => ?_, fun hi => refresh.stays_false hi,
    fun hack hclr => refresh.stays_true ?_, fun hread => error.stays_false ?_,
    fun hclr => error.stays_true (not_exists.2 hclr)⟩
  · rintro (⟨c, hmark⟩ | ⟨g, b, hi⟩)
    · obtain ⟨hset, hon, hoff⟩ := hmarks c
      exact hmark.elim hset (·.elim hon hoff)
    · exact hpoll g b hi
  · subst hi
    cases (exec_eval 3 s).symm.trans ht
    exact evaluated_three_outRefresh s
  · rintro (hi | ⟨mask, hi⟩)
    · exact hack hi
    · exact hclr mask hi
  · rintro ⟨c, reg, index, hi⟩
    exact hread c reg index hi

/-! ## One clock cycle (R224) -/

section
variable {s : State} {rest : List Input}

/-- A host CLR_FLAGS and then the last turn of a pass: the flag the first clears is set by the second. -/
theorem run_clrFlags_turn {mask : BitVec 3}
    (hinputs : s.inputs = .word .host (encode (.clrFlags mask)) :: .seqTurn :: rest) (hpos : s.seqNext = some 3) :
    ∃ t, Host.Core.run Sys2Proof.core 2 s = .next t ∧ t.outRefresh = true ∧ t.inputs = rest := by
  have hclear : step s = .next (State.clearFlags mask { s with inputs := .seqTurn :: rest }) :=
    step_of_presented (x := .word .host (encode (.clrFlags mask))) (i := .clrFlags mask) hinputs rfl rfl
  have hturn := run_turn (s := State.clearFlags mask { s with inputs := .seqTurn :: rest }) rfl hpos 0
  exact ⟨_, (run_succ hclear 1).trans hturn, evaluated_three_outRefresh _, rfl⟩

/-- A turn and then OUT_ACK: whatever the turn leaves in the flag, it ends 0. -/
theorem run_turn_outAck {c : Channel} (hinputs : s.inputs = .seqTurn :: .outAck :: rest)
    (hpos : s.seqNext = some c) :
    ∃ t, Host.Core.run Sys2Proof.core 2 s = .next t ∧ t.outRefresh = false ∧ t.inputs = rest := by
  have hack : step (s.turned c (.outAck :: rest)) =
      .next { s.turned c (.outAck :: rest) with inputs := rest, outRefresh := false } :=
    (step_outAck rfl).trans (exec_outAck _)
  exact ⟨_, (run_turn hinputs hpos 1).trans (run_succ hack 0), rfl, rfl⟩

end

/-- Settles O59: R74 puts the host's word before the turn (`run_clrFlags_turn`) and OUT_ACK after it
(`run_turn_outAck`). -/
theorem sameCycleSetAndClear : Obligations.SameCycleSetAndClear := by
  intro s p hpos hrst htick hpoll hstrobe hturn hinputs
  have horder : s.inputs = (p.cmdWord.map (Input.word .host)).toList ++ .seqTurn ::
      (if p.outAck then [.outAck] else []) := by
    rw [hinputs]
    simp [CyclePins.inputs, hrst, htick, hpoll, hstrobe, hturn]
  refine ⟨fun hword hack => ?_, fun hword hack => ?_⟩ <;> rw [hword, hack] at horder
  · exact run_clrFlags_turn horder hpos
  · exact run_turn_outAck horder hpos

end Sys2Proof.Machine
end

section
/-! Reset by the pin, and two hazards of the note operations: a trigger in the microsecond of the release, and captured
levels that are as old as the last EVAL (70_reset_and_hazards.md R240, R241, R251, R252). -/

namespace Sys2Proof.Machine

/-! ## Reset (R240, R241) -/

theorem fetch_rst {s : State} {rest : List Input} (hinputs : s.inputs = .rst :: rest) :
    fetch s = .done (State.hardReset { s with inputs := rest }) := by
  simp only [fetch, hinputs, takeInput, presented, if_true]

/-- Settles O14: the fetch of `rst` is done on the reset state, and executes nothing. -/
theorem resetPinRestoresTheResetState : Obligations.ResetPinRestoresTheResetState :=
  fun _ _ hinputs => step_of_fetch_done (fetch_rst hinputs)

/-! ## A trigger in the microsecond of the release (R252) -/

section retrigger
variable {e : Engine}

/-- The strict comparison of R47: equal stamps mean released. -/
theorem released_of_stamps_eq (h : e.tNoteOn = e.tNoteOff) : e.pressed = false :=
  (pressed_eq_false_iff e).2 (congrArg BitVec.toNat h).le

theorem noteOff_tNoteOff_of_release (h : e.notesHeld.toNat ≤ 1) (t : Time) : (e.noteOff t).tNoteOff = t := by
  rw [noteOff_release t e h]

/-- A release empties the count, so the trigger after it counts to one. -/
theorem noteOff_noteOn_notesHeld (h : e.notesHeld.toNat ≤ 1) (t u : Time) :
    ((e.noteOff t).noteOn u).notesHeld = 1#8 := by
  rw [noteOff_release t e h, noteOn_notesHeld]
  rfl

end retrigger

theorem execAll_noteOff_noteOn (c : Channel) (s : State) :
    ∃ t, execAll [.noteOff c, .noteOn c] s = .next t ∧
      t.engine c = ((s.engine c).noteOff s.now).noteOn s.now := by
  refine ⟨_, by rw [execAll_cons (exec_noteOff c s), execAll_cons (exec_noteOn c _), execAll], ?_⟩
  rw [noteOnAct_engine_self, noteOffAct_engine_self]
  rfl

/-- Settles O34: the release and the trigger stamp the one time, and equal stamps mean released. -/
theorem triggerInTheMicrosecondOfTheRelease : Obligations.TriggerInTheMicrosecondOfTheRelease := by
  intro c s hlast
  obtain ⟨t, ht, hengine⟩ := execAll_noteOff_noteOn c s
  have hheld : (t.engine c).notesHeld = 1#8 := by
    rw [hengine, noteOff_noteOn_notesHeld hlast]
  have hon : (t.engine c).tNoteOn = s.now := by
    rw [hengine, noteOn_tNoteOn]
  have hoff : (t.engine c).tNoteOff = s.now := by
    rw [hengine, noteOn_tNoteOff, noteOff_tNoteOff_of_release hlast]
  exact ⟨t, ht, hheld, hon, hoff, released_of_stamps_eq (hon.trans hoff.symm)⟩

/-! ## Captured levels (R251) -/

/-- The output level of a channel stays over any operations but its own EVAL (R226). -/
theorem execAll_lastOutputLevel {c : Channel} {ops : List Instr} (hops : .eval c ∉ ops) (s : State) :
    ∃ t, execAll ops s = .next t ∧ (t.engine c).lastOutputLevel = (s.engine c).lastOutputLevel :=
  execAll_keeps (P := fun t => (t.engine c).lastOutputLevel = (s.engine c).lastOutputLevel)
    (fun _ hi _ _ hexec hu => ((exec_written hexec c).outputKept (ne_of_mem_of_not_mem hi hops)).trans hu) rfl

theorem noteOff_captures (t : Time) {e : Engine} (h : e.notesHeld.toNat ≤ 1) :
    (e.noteOff t).releaseStartLevel = e.lastOutputLevel := by
  rw [noteOff_release t e h]

theorem noteOn_captures (t : Time) {e : Engine} (h : e.resetAttackOnTrigger = false) :
    (e.noteOn t).attackStartLevel = e.lastOutputLevel := by
  rw [noteOn_attackStart, h, if_neg Bool.false_ne_true]

/-- Settles O35: the output level is still the one of the last EVAL (`execAll_lastOutputLevel`) when a note action
captures it. -/
theorem capturedLevelIsTheLastEvaluation : Obligations.CapturedLevelIsTheLastEvaluation := by
  intro c s ops hops
  obtain ⟨t, ht, hlevel⟩ := execAll_lastOutputLevel hops s
  refine ⟨t, ht, hlevel, fun hlast => ⟨_, exec_noteOff c t, ?_⟩, fun hlegato => ⟨_, exec_noteOn c t, ?_⟩⟩
  · rw [noteOffAct_engine_self, noteOff_captures _ hlast, hlevel]
  · rw [noteOnAct_engine_self, noteOn_captures _ hlegato, hlevel]

end Sys2Proof.Machine
end
